-- ==== Sys2Proof/Word.lean ====
section
/-! DEFINITION. The fixed widths of 00_scope.md R9 and the BitString of R13. -/

namespace Sys2Proof

/-- A host register or a command word: 32 bits (R9, R80). -/
abbrev Word := BitVec 32

/-- A payload byte: 8 bits (R9). -/
abbrev Byte := BitVec 8

/-- A symbol: 21 bits, compared by equality only (R9). -/
abbrev Symbol := BitVec 21

/-- A BitString, its first bit at the head (R13). -/
abbrev Bits := List Bool

end Sys2Proof
end

