-- ==== Sys2Proof/Syntax.lean ====
section
/-! DEFINITION. The commands of 30_encoding.md R87, one constructor per row of spec/opcode_table.json. -/

namespace Sys2Proof

/-- A command. An index operand is a natural number whose bound `WellFormed` checks (R83, R84); the second operand of
FREQ_LOAD and CODE_READ is PARG and stands in the state (R86). -/
inductive Instr where
  | nop
  | clear
  | errClear
  | freqLoad (sym : Symbol)
  | freqRead (idx : Nat)
  | build
  | nodeRead (idx : Nat)
  | gen
  | codeFind (sym : Symbol)
  | codeRead (idx : Nat)
  | encStart
  | encSym (sym : Symbol)
  | encFinish
  | outRead (idx : Nat)
  | decStart
  | decByte (byte : Byte)
  | decFinish
  | decRead (idx : Nat)
  deriving DecidableEq, Repr

end Sys2Proof
end

