-- ==== Sys2Proof/WellFormed.lean ====
section
/-! DEFINITION. Which commands the formats of 30_encoding.md can carry: the index bounds of format X and format L. -/

namespace Sys2Proof

/-- An index that fits the 15-bit field of format X (R83). -/
abbrev FitsX (idx : Nat) : Prop := idx < 2 ^ 15

/-- An index that fits the 24-bit field of format L (R84). -/
abbrev FitsL (idx : Nat) : Prop := idx < 2 ^ 24

/-- Does every index fit its format? The symbol and byte fields are bounded by their types (R82, R85). -/
def wellFormed : Instr → Bool
  | .freqRead idx => decide (FitsX idx)
  | .nodeRead idx => decide (FitsX idx)
  | .codeRead idx => decide (FitsX idx)
  | .outRead idx => decide (FitsL idx)
  | .decRead idx => decide (FitsL idx)
  | .nop => true
  | .clear => true
  | .errClear => true
  | .freqLoad _ => true
  | .build => true
  | .gen => true
  | .codeFind _ => true
  | .encStart => true
  | .encSym _ => true
  | .encFinish => true
  | .decStart => true
  | .decByte _ => true
  | .decFinish => true

/-- A command every field of which its format can hold. -/
abbrev WellFormed (i : Instr) : Prop := wellFormed i = true

end Sys2Proof
end

