-- ==== Sys2Proof/Decode.lean ====
section
/-! DEFINITION. The command encoding of 30_encoding.md: the decoder (total, R89), the encoder, and the opcode table's rows. -/

namespace Sys2Proof

/-- Why a word is no legal command (R88, R89); either way executing it raises ILLEGAL_CMD. -/
inductive Illegal where
  /-- bits [31:24] are no opcode of R87. Safe: executing the word raises ILLEGAL_CMD, as R89 says. -/
  | unassignedOpcode
  /-- a reserved bit of the opcode's format is 1 (R81 to R85). Safe: executing the word raises ILLEGAL_CMD, as R89 says. -/
  | reservedBits
  deriving DecidableEq, Repr

/-! ### Fields (R80, R86) -/

/-- `op = w[31:24]`. -/
def opField (w : Word) : BitVec 8 := w.extractLsb' 24 8

/-- `sym = w[20:0]` of format S (R82). -/
def symField (w : Word) : Symbol := w.extractLsb' 0 21

/-- `idx = w[14:0]` of format X (R83). -/
def idxXField (w : Word) : Nat := (w.extractLsb' 0 15).toNat

/-- `idx = w[23:0]` of format L (R84). -/
def idxLField (w : Word) : Nat := (w.extractLsb' 0 24).toNat

/-- `byte = w[7:0]` of format B (R85). -/
def byteField (w : Word) : Byte := w.extractLsb' 0 8

/-! ### Decoding by format -/

/-- Format Z: bits [23:0] must be 0 (R81). -/
def formatZ (w : Word) (i : Instr) : Except Illegal Instr :=
  if w.extractLsb' 0 24 = 0#24 then .ok i else .error .reservedBits

/-- Format S: bits [23:21] must be 0 (R82). -/
def formatS (w : Word) (i : Symbol → Instr) : Except Illegal Instr :=
  if w.extractLsb' 21 3 = 0#3 then .ok (i (symField w)) else .error .reservedBits

/-- Format X: bits [23:15] must be 0 (R83). -/
def formatX (w : Word) (i : Nat → Instr) : Except Illegal Instr :=
  if w.extractLsb' 15 9 = 0#9 then .ok (i (idxXField w)) else .error .reservedBits

/-- Format L: no reserved bits (R84). -/
def formatL (w : Word) (i : Nat → Instr) : Except Illegal Instr := .ok (i (idxLField w))

/-- Format B: bits [23:8] must be 0 (R85). -/
def formatB (w : Word) (i : Byte → Instr) : Except Illegal Instr :=
  if w.extractLsb' 8 16 = 0#16 then .ok (i (byteField w)) else .error .reservedBits

/-- The command a word is, or why it is illegal (R87 to R89). Every word is exactly one of the two. -/
def decode (w : Word) : Except Illegal Instr :=
  match opField w with
  | 0x00#8 => formatZ w .nop
  | 0x01#8 => formatZ w .clear
  | 0x02#8 => formatZ w .errClear
  | 0x10#8 => formatS w .freqLoad
  | 0x11#8 => formatX w .freqRead
  | 0x20#8 => formatZ w .build
  | 0x21#8 => formatX w .nodeRead
  | 0x30#8 => formatZ w .gen
  | 0x31#8 => formatS w .codeFind
  | 0x32#8 => formatX w .codeRead
  | 0x40#8 => formatZ w .encStart
  | 0x41#8 => formatS w .encSym
  | 0x42#8 => formatZ w .encFinish
  | 0x43#8 => formatL w .outRead
  | 0x50#8 => formatZ w .decStart
  | 0x51#8 => formatB w .decByte
  | 0x52#8 => formatZ w .decFinish
  | 0x53#8 => formatL w .decRead
  | _ => .error .unassignedOpcode

/-! ### Encoding -/

/-- A field's value placed with its lowest bit at bit `lo` of a word (R12, R86). -/
def place {n : Nat} (x : BitVec n) (lo : Nat) : Word := x.setWidth 32 <<< lo

/-- A format Z word (R81). -/
def wordZ (op : BitVec 8) : Word := place op 24

/-- A format S word (R82). -/
def wordS (op : BitVec 8) (sym : Symbol) : Word := place op 24 ||| place sym 0

/-- A format X word (R83). -/
def wordX (op : BitVec 8) (idx : Nat) : Word := place op 24 ||| place (BitVec.ofNat 15 idx) 0

/-- A format L word (R84). -/
def wordL (op : BitVec 8) (idx : Nat) : Word := place op 24 ||| place (BitVec.ofNat 24 idx) 0

/-- A format B word (R85). -/
def wordB (op : BitVec 8) (byte : Byte) : Word := place op 24 ||| place byte 0

/-- The word of a command (R87); the command's own word when it is well-formed. -/
def encode : Instr → Word
  | .nop => wordZ 0x00#8
  | .clear => wordZ 0x01#8
  | .errClear => wordZ 0x02#8
  | .freqLoad sym => wordS 0x10#8 sym
  | .freqRead idx => wordX 0x11#8 idx
  | .build => wordZ 0x20#8
  | .nodeRead idx => wordX 0x21#8 idx
  | .gen => wordZ 0x30#8
  | .codeFind sym => wordS 0x31#8 sym
  | .codeRead idx => wordX 0x32#8 idx
  | .encStart => wordZ 0x40#8
  | .encSym sym => wordS 0x41#8 sym
  | .encFinish => wordZ 0x42#8
  | .outRead idx => wordL 0x43#8 idx
  | .decStart => wordZ 0x50#8
  | .decByte byte => wordB 0x51#8 byte
  | .decFinish => wordZ 0x52#8
  | .decRead idx => wordL 0x53#8 idx

/-! ### The opcode table (spec/opcode_table.json, R88 "Equivalently") -/

/-- One row: w belongs to it when `w &&& mask = pattern`. -/
structure OpcodeRow where
  pattern : Word
  mask : Word
  deriving DecidableEq, Repr

/-- The 18 rows, in the table's order. -/
def opcodeRows : List OpcodeRow :=
  [⟨0x00000000#32, 0xFFFFFFFF#32⟩, ⟨0x01000000#32, 0xFFFFFFFF#32⟩, ⟨0x02000000#32, 0xFFFFFFFF#32⟩] ++
  [⟨0x10000000#32, 0xFFE00000#32⟩, ⟨0x11000000#32, 0xFFFF8000#32⟩] ++
  [⟨0x20000000#32, 0xFFFFFFFF#32⟩, ⟨0x21000000#32, 0xFFFF8000#32⟩] ++
  [⟨0x30000000#32, 0xFFFFFFFF#32⟩, ⟨0x31000000#32, 0xFFE00000#32⟩, ⟨0x32000000#32, 0xFFFF8000#32⟩] ++
  [⟨0x40000000#32, 0xFFFFFFFF#32⟩, ⟨0x41000000#32, 0xFFE00000#32⟩, ⟨0x42000000#32, 0xFFFFFFFF#32⟩,
   ⟨0x43000000#32, 0xFF000000#32⟩] ++
  [⟨0x50000000#32, 0xFFFFFFFF#32⟩, ⟨0x51000000#32, 0xFFFFFF00#32⟩, ⟨0x52000000#32, 0xFFFFFFFF#32⟩,
   ⟨0x53000000#32, 0xFF000000#32⟩]

/-- The word matches the row. -/
def OpcodeRow.matches (r : OpcodeRow) (w : Word) : Bool := w &&& r.mask == r.pattern

/-! ### The word of a table row, as the host numbers it -/

/-- The 32-bit word whose low `nbits` bits are those of `w` and whose other bits are 0. The block takes a command word whole
(R80, R64), so there are no bytes to order (log 15). -/
def tableWord (nbits w : Nat) : Word := BitVec.ofNat 32 (w % 2 ^ nbits)

/-- What the decoder reads from an instruction whose bits are w. -/
def decodeTableWord (nbits w : Nat) : Option Instr :=
  match decode (tableWord nbits w) with
  | .ok i => some i
  | .error _ => none

end Sys2Proof
end

