-- ==== Sys2Proof/Config.lean ====
section
/-! DEFINITION. The OPEN parameters of the spec (00_scope.md R6 to R8, 20_memory.md R62), the sizes derived from them (R10)
and the free value of a read the spec leaves unspecified (10_state.md R48). -/

namespace Sys2Proof

/-- The parameters an implementation fixes (93 V6, V7). They stand in the state as data no step changes, so that every
statement about a state holds for every parameter value (log 1). -/
structure Params where
  /-- MAX_LEAVES: how many FrequencyTable entries the block holds (R6). -/
  maxLeaves : Nat
  /-- OUT_BYTES: the capacity of the payload buffer, header included (R7). -/
  outBytes : Nat
  /-- DEC_SYMS: the capacity of the decoder's output buffer (R8). -/
  decSyms : Nat
  /-- HUF_BASE: where the platform places the window in the host's address space (R62). -/
  hufBase : Nat
  deriving DecidableEq, Repr

/-- The ranges R6, R7 and R8 give the capacities, and the alignment R62 gives the base. -/
abbrev Params.Wf (c : Params) : Prop :=
  (1 ≤ c.maxLeaves ∧ c.maxLeaves ≤ 16384) ∧ (2 ≤ c.outBytes ∧ c.outBytes ≤ 2 ^ 24) ∧
    (1 ≤ c.decSyms ∧ c.decSyms ≤ 2 ^ 24) ∧ c.hufBase % 256 = 0

/-- MAX_NODES (R10). -/
def Params.maxNodes (c : Params) : Nat := 2 * c.maxLeaves - 1

/-- CODE_MAXLEN (R10). -/
def Params.codeMaxLen (c : Params) : Nat := max 1 (c.maxLeaves - 1)

/-- The capacities the vectors of 95_test_vectors.md use, and base 0. DESIGN CHOICE (log 1): they are what `State.reset`
holds; R6 to R8 leave them open. -/
def Params.vectors : Params := { maxLeaves := 256, outBytes := 65536, decSyms := 65536, hufBase := 0 }

/-- The value the n-th unspecified read returns (R48, 93 V1: "drawn independently per read"). It has no body, so nothing can
be proved about it. DESIGN CHOICE (log 5), safe. -/
opaque Config.busyRead : Nat → Word

end Sys2Proof
end

