-- ==== Sys2Proof/Machine/State.lean ====
section
/-! DEFINITION. The state of the block (10_state.md R51), of the host and of the reset input (00_scope.md R5), and the reasons
a step can stop. -/

namespace Sys2Proof.Machine

/-- The life-cycle of the tables (10_state.md R27). The value 3 never occurs (R25, 93 V13), so it has no constructor. -/
inductive Phase where
  | load
  | tree
  | codes
  deriving DecidableEq, Repr

/-- The error codes (60_exceptions.md R200). 0x0C to 0xFF are never produced, so they have no constructor. -/
inductive ErrCode where
  | none
  | illegalCmd
  | badSequence
  | indexRange
  | zeroCount
  | dupSymbol
  | tableFull
  | freqOverflow
  | unknownSymbol
  | outOverflow
  | corruptPayload
  | decOverflow
  deriving DecidableEq, Repr

/-- A FrequencyTable entry (10_state.md R31). -/
structure FreqEntry where
  sym : Symbol
  cnt : Word
  deriving DecidableEq, Repr

/-- A tree node (10_state.md R34): a leaf, or an internal node with its left and right child indices. -/
inductive Node where
  | leaf (sym : Symbol) (w : Word)
  | int (w : Word) (l r : Nat)
  deriving DecidableEq, Repr

/-- A bus access of the host (20_memory.md R60, R61): an address of the host's address space, a size in bytes, and for a
write its value. -/
inductive BusOp where
  | read (addr size : Nat)
  | write (addr size : Nat) (value : Word)
  deriving DecidableEq, Repr

/-- What the bus answers the host (R60, R61, R207). -/
inductive BusResp where
  /-- no access has completed yet -/
  | none
  /-- a read returned this value -/
  | data (value : Word)
  /-- a write completed -/
  | done
  /-- the bus error response: no data -/
  | busError
  /-- the address lies outside the block's window, so the block gives no answer (R62, log 10) -/
  | unselected
  deriving DecidableEq, Repr

/-- A statement of the host (30_encoding.md R91, R92): one bus access, or one of the two loops and tests on STATUS. -/
inductive HostStmt where
  | access (op : BusOp)
  /-- repeat a read of STATUS until BUSY is 0 -/
  | wait
  /-- read STATUS and stop the program if ERR is nonzero -/
  | check
  deriving DecidableEq, Repr

/-- Who moves next (60_exceptions.md R215, log 2). -/
inductive Turn where
  /-- the Core -/
  | core
  /-- the host runs its next statement -/
  | host
  /-- the reset input is driven: true asserted, false deasserted -/
  | resetInput (asserted : Bool)
  deriving DecidableEq, Repr

/-- The whole state. The fields of 10_state.md R51 come first, in its order; the model's own fields come last. -/
structure State where
  /-- ARG (R24) -/
  arg : Word
  /-- PCMD, the latched command word (R26) -/
  pcmd : Word
  /-- PARG, the ARG captured at issue (R26) -/
  parg : Word
  /-- BUSY, STATUS[0] (R25) -/
  busy : Bool
  /-- OVR, STATUS[1] (R25, R30) -/
  ovr : Bool
  /-- ERR, STATUS[15:8] (R25, R30) -/
  err : ErrCode
  /-- PHASE, STATUS[3:2] (R27) -/
  phase : Phase
  /-- FREQ, the FrequencyTable in load order (R31) -/
  freq : List FreqEntry
  /-- TOTAL (R32) -/
  total : Word
  /-- NODE, the tree memory (R34) -/
  node : List Node
  /-- ROOT, a node index or NONE (R35) -/
  root : Option Nat
  /-- CODE, the code of each leaf (R37) -/
  code : List Bits
  /-- RES0 (R38) -/
  res0 : Word
  /-- RES1 (R38) -/
  res1 : Word
  /-- ENC_ACTIVE, STATUS[4] (R28) -/
  encActive : Bool
  /-- OUT_DONE, STATUS[5] (R28) -/
  outDone : Bool
  /-- EBITS, the encoder's bit accumulator (R39) -/
  ebits : Bits
  /-- OUTBUF, the payload buffer (R41) -/
  outbuf : List Byte
  /-- DEC_ACTIVE, STATUS[6] (R29) -/
  decActive : Bool
  /-- DEC_DONE, STATUS[7] (R29) -/
  decDone : Bool
  /-- DHDR: the header byte has been taken (R42) -/
  dhdr : Bool
  /-- DP, the padding count 0..8 (R42) -/
  dp : Fin 9
  /-- DHOLD, the held byte (R43) -/
  dhold : Byte
  /-- DHOLDV: DHOLD holds a byte (R43) -/
  dholdv : Bool
  /-- DDEAD: the candidate can match nothing any more (R44) -/
  ddead : Bool
  /-- DNODE, the walker's position or NONE (R45) -/
  dnode : Option Nat
  /-- DECBUF, the symbols decoded so far (R46) -/
  decbuf : List Symbol
  /-- the implementation's parameters, which no step changes (R6 to R8, R62, log 1) -/
  cfg : Params
  /-- the level of the reset input (R230, log 6) -/
  inReset : Bool
  /-- the host's statements still to run (R215, log 2) -/
  prog : List HostStmt
  /-- who moves next, for as long as the list lasts (R215, log 2) -/
  turns : List Turn
  /-- what the bus last answered the host (R60, R61, log 4) -/
  resp : BusResp
  /-- how many free values have been drawn (R48, log 5) -/
  draws : Nat
  deriving DecidableEq, Repr

/-- The state of an implementation with parameters `c` right after reset: every field of R51 at its reset value (R230), the
reset input deasserted, no host statement pending (logs 2, 4, 5, 6). -/
def State.resetOf (c : Params) : State where
  arg := 0#32
  pcmd := 0#32
  parg := 0#32
  busy := false
  ovr := false
  err := .none
  phase := .load
  freq := []
  total := 0#32
  node := []
  root := none
  code := []
  res0 := 0#32
  res1 := 0#32
  encActive := false
  outDone := false
  ebits := []
  outbuf := []
  decActive := false
  decDone := false
  dhdr := false
  dp := 0
  dhold := 0#8
  dholdv := false
  ddead := false
  dnode := none
  decbuf := []
  cfg := c
  inReset := false
  prog := []
  turns := []
  resp := .none
  draws := 0

/-- The machine right after reset. Its parameters are those of the spec's test vectors (DESIGN CHOICE, log 1). -/
def State.reset : State := State.resetOf Params.vectors

/-- Why a command stops the machine. Each names a state that breaks an invariant of the spec, which no run from reset
reaches; there the spec gives the command no effect (log 7). -/
inductive Fault where
  /-- Raised by GEN, DEC_BYTE and DEC_FINISH when NODE and ROOT (or DNODE) are not a tree and a position in it as R34 to R36
  and R45 say. Safe. -/
  | malformedTree
  /-- Raised by CODE_FIND and ENC_SYM when CODE has no entry for a leaf of FREQ, against R37. Safe. -/
  | missingCode
  /-- Raised by BUILD when a sum of two weights passes 2^32 − 1, against R122. Safe. -/
  | weightOverflow
  deriving DecidableEq, Repr

/-- Why the model gives no meaning. -/
inductive Refusal where
  /-- Raised by `exec` alone, for an instruction that has no meaning yet. Safe. -/
  | notModelled (mnemonic : String)
  /-- Raised by a host access to the window while reset is asserted (R230: "a model refuses any host access in this
  interval"; 93 V3). Safe. -/
  | accessDuringReset
  deriving DecidableEq, Repr

/-- What a command or a step answers. -/
abbrev Result := Host.Outcome State Fault Refusal

end Sys2Proof.Machine
end

