-- ==== Sys2Proof/Machine/Flags.lean ====
section
/-! DEFINITION. The flags as STATUS shows them (10_state.md R25) and the codes of ERR (60_exceptions.md R200). -/

namespace Sys2Proof.Machine

/-- The value of PHASE in STATUS[3:2] (R25). -/
def Phase.bits : Phase → BitVec 2
  | .load => 0#2
  | .tree => 1#2
  | .codes => 2#2

/-- The value of ERR in STATUS[15:8] (R200). -/
def ErrCode.bits : ErrCode → BitVec 8
  | .none => 0x00#8
  | .illegalCmd => 0x01#8
  | .badSequence => 0x02#8
  | .indexRange => 0x03#8
  | .zeroCount => 0x04#8
  | .dupSymbol => 0x05#8
  | .tableFull => 0x06#8
  | .freqOverflow => 0x07#8
  | .unknownSymbol => 0x08#8
  | .outOverflow => 0x09#8
  | .corruptPayload => 0x0A#8
  | .decOverflow => 0x0B#8

/-- STATUS (R25), each field at its place; bits [31:16] are reserved and read 0. -/
def State.status (s : State) : Word :=
  place (BitVec.ofBool s.busy) 0 ||| place (BitVec.ofBool s.ovr) 1 ||| place s.phase.bits 2 |||
    place (BitVec.ofBool s.encActive) 4 ||| place (BitVec.ofBool s.outDone) 5 ||| place (BitVec.ofBool s.decActive) 6 |||
    place (BitVec.ofBool s.decDone) 7 ||| place s.err.bits 8

/-- BUSY as the host sees it in a STATUS value: bit 0. -/
def statusBusy (v : Word) : Bool := v.getLsbD 0

/-- ERR as the host sees it in a STATUS value: bits [15:8]. -/
def statusErr (v : Word) : BitVec 8 := v.extractLsb' 8 8

end Sys2Proof.Machine
end

