-- ==== Sys2Proof/Machine/Operands.lean ====
section
/-! DEFINITION. What a command operates on: the captured argument, the elements of the memories, and the packing of bit
strings into bytes and words (20_memory.md R65 to R67). -/

namespace Sys2Proof.Machine

/-- PARG as an unsigned integer (30_encoding.md R86). -/
def State.count (s : State) : Nat := s.parg.toNat

/-- `Find(sym)` (43_code_table.md R144): the index of the entry with this symbol. It is unique by R33; where two entries hold
the symbol, which no run reaches, this is the first (log 8). -/
def find (freq : List FreqEntry) (sym : Symbol) : Option Nat := freq.findIdx? (fun e => e.sym == sym)

/-- A node index or NONE as a 32-bit value: `NONE = 0xFFFFFFFF` (10_state.md R35). -/
def indexWord : Option Nat → Word
  | none => 0xFFFFFFFF#32
  | some k => BitVec.ofNat 32 k

/-- NODE_READ's RES0 (42_tree_builder.md R125): a leaf has bit 31 set and its symbol in [20:0]; an internal node has its left
child in [29:15] and its right child in [14:0]. -/
def Node.word : Node → Word
  | .leaf s _ => place 1#1 31 ||| place s 0
  | .int _ l r => place (BitVec.ofNat 15 l) 15 ||| place (BitVec.ofNat 15 r) 0

/-- A node's weight (R34). -/
def Node.weight : Node → Word
  | .leaf _ w => w
  | .int w _ _ => w

/-- The value of a bit. -/
def bitVal (b : Bool) : Nat := if b then 1 else 0

/-- `pack` (R65): each group of eight bits is a byte, its first bit the most significant. A last group of fewer than eight
bits does not occur: `pack` is used on a multiple of eight bits. -/
def pack : Bits → List Byte
  | b7 :: b6 :: b5 :: b4 :: b3 :: b2 :: b1 :: b0 :: rest =>
    BitVec.ofNat 8 (bitVal b7 * 128 + bitVal b6 * 64 + bitVal b5 * 32 + bitVal b4 * 16 + bitVal b3 * 8 + bitVal b2 * 4 +
      bitVal b1 * 2 + bitVal b0) :: pack rest
  | _ => []

/-- `unpack` of one byte (R65): bit 7 first. -/
def unpackByte (v : Byte) : Bits :=
  [v.getLsbD 7, v.getLsbD 6, v.getLsbD 5, v.getLsbD 4, v.getLsbD 3, v.getLsbD 2, v.getLsbD 1, v.getLsbD 0]

/-- The bits of a list of at most 32 as a number, its first bit at bit `hi` (R67). -/
def bitsFrom : Nat → Bits → Nat
  | _, [] => 0
  | 0, b :: _ => bitVal b
  | hi + 1, b :: bs => bitVal b * 2 ^ (hi + 1) + bitsFrom hi bs

/-- CODE_READ's word `wi` of a code (43_code_table.md R145, 20_memory.md R67): the first bit of the group at bit 31, bits after
the end of the code 0. -/
def codeWord (c : Bits) (wi : Nat) : Word := BitVec.ofNat 32 (bitsFrom 31 ((c.drop (32 * wi)).take 32))

/-- The padding count of a bit length b ≥ 1 (44_encoder.md R164). -/
def padding (b : Nat) : Nat := 8 - b % 8

/-- The payload of a bit string (44_encoder.md R165, R166): empty for no bits, else the header P and the packed bits followed
by P zeros. -/
def payload (bits : Bits) : List Byte :=
  if bits.length = 0 then []
  else
    BitVec.ofNat 8 (padding bits.length) :: pack (bits ++ List.replicate (padding bits.length) false)

/-- The payload length for b code bits that the capacity check of ENC_SYM uses (44_encoder.md R163, R168). -/
def payloadBytes (b : Nat) : Nat := b / 8 + 2

end Sys2Proof.Machine
end

