-- ==== Sys2Proof/Machine/Ops.lean ====
section
/-! DEFINITION. The named operations over the state: raising an error and leaving the error-blocked state, the results of a
query, the writers of each memory, the sessions, and the command latch. -/

namespace Sys2Proof.Machine

/-! ### Errors: entry and return (60_exceptions.md R201, R202, R206) -/

/-- `raise E` (R201): ERR takes E if it was 0; nothing else changes. -/
def State.raise (s : State) (e : ErrCode) : State :=
  { s with err := if s.err = .none then e else s.err }

/-- A command that ends by raising E. -/
def raise (s : State) (e : ErrCode) : Result := .next (s.raise e)

/-- The error-blocked state (R202, 40_control.md R100): while ERR ≠ 0 the command is ignored without any state change. -/
def unlessBlocked (s : State) (rule : Result) : Result :=
  if s.err = .none then rule else .next s

/-- ERR_CLEAR's writes (40_control.md R103), the return from an error that keeps the tables. -/
def State.abortSessions (s : State) : State :=
  { s with
    err := .none, ovr := false
    encActive := false, outDone := false, ebits := [], outbuf := []
    decActive := false, decDone := false, dhdr := false, dp := 0, dhold := 0#8, dholdv := false
    ddead := false, dnode := none, decbuf := [] }

/-- CLEAR's writes (40_control.md R102): every field of R51 but ARG, PCMD, PARG and BUSY takes its reset value. -/
def State.clearAll (s : State) : State :=
  { s with
    ovr := false, err := .none, phase := .load, freq := [], total := 0#32, node := [], root := none, code := []
    res0 := 0#32, res1 := 0#32
    encActive := false, outDone := false, ebits := [], outbuf := []
    decActive := false, decDone := false, dhdr := false, dp := 0, dhold := 0#8, dholdv := false
    ddead := false, dnode := none, decbuf := [] }

/-! ### Results (10_state.md R38) -/

/-- A query's results. -/
def State.setResults (s : State) (r0 r1 : Word) : State := { s with res0 := r0, res1 := r1 }

/-! ### Tables -/

/-- FREQ_LOAD's writes (41_frequency_table.md R110). -/
def State.appendFreq (s : State) (sym : Symbol) (cnt : Word) : State :=
  { s with freq := s.freq ++ [⟨sym, cnt⟩], total := s.total + cnt }

/-- BUILD's writes (42_tree_builder.md R120). -/
def State.setTree (s : State) (node : List Node) (root : Option Nat) : State :=
  { s with node := node, root := root, phase := .tree }

/-- GEN's writes (43_code_table.md R140). -/
def State.setCodes (s : State) (code : List Bits) : State := { s with code := code, phase := .codes }

/-! ### Encode session -/

/-- ENC_START's writes (44_encoder.md R160). -/
def State.openEnc (s : State) : State := { s with ebits := [], outbuf := [], encActive := true, outDone := false }

/-- ENC_SYM's write (R161). -/
def State.appendBits (s : State) (c : Bits) : State := { s with ebits := s.ebits ++ c }

/-- ENC_FINISH's writes (R166); EBITS is kept. -/
def State.closeEnc (s : State) (out : List Byte) : State := { s with outbuf := out, encActive := false, outDone := true }

/-! ### Decode session -/

/-- DEC_START's writes (45_decoder.md R180). -/
def State.openDec (s : State) : State :=
  { s with
    dhdr := false, dp := 0, dhold := 0#8, dholdv := false, ddead := false, dnode := s.root, decbuf := []
    decActive := true, decDone := false }

/-- The header byte is taken (R181). -/
def State.takeHeader (s : State) (p : Fin 9) : State := { s with dp := p, dhdr := true }

/-- A data byte is held back (R181). -/
def State.holdByte (s : State) (b : Byte) : State := { s with dhold := b, dholdv := true }

/-- The held byte is released for good (R186). -/
def State.dropHold (s : State) : State := { s with dholdv := false }

/-- `DECBUF <- DECBUF ++ [s]` (R184). -/
def State.pushSymbol (s : State) (x : Symbol) : State := { s with decbuf := s.decbuf ++ [x] }

/-- The walker moves (R183). -/
def State.walkTo (s : State) (k : Option Nat) : State := { s with dnode := k }

/-- The candidate is dead (R183). -/
def State.markDead (s : State) : State := { s with ddead := true }

/-- A successful DEC_FINISH's last writes (R186). -/
def State.closeDec (s : State) : State := { s with decActive := false, decDone := true }

/-! ### A rule that may stop half way (45_decoder.md R182 to R184) -/

/-- How a sub-step of a command ends: it goes on; it has raised, so the command ends in this state; or the state held no tree
to walk. -/
inductive Flow where
  | go (s : State)
  | raised (s : State)
  | broken (f : Fault)
  deriving DecidableEq, Repr

/-- The next sub-step, taken only if the one before it goes on. -/
def Flow.andThen (f : Flow) (k : State → Flow) : Flow :=
  match f with
  | .go s => k s
  | .raised s => .raised s
  | .broken r => .broken r

/-- The command's answer. -/
def Flow.result : Flow → Result
  | .go s => .next s
  | .raised s => .next s
  | .broken r => .fault r

/-! ### The command latch (10_state.md R23, R26; 40_control.md R100) -/

/-- A CMD write while BUSY = 0: the word and ARG are latched, BUSY becomes 1 (R23). -/
def State.issue (s : State) (w : Word) : State := { s with pcmd := w, parg := s.arg, busy := true }

/-- A CMD write while BUSY = 1 is dropped and sets OVR (R23, R30). -/
def State.overrun (s : State) : State := { s with ovr := true }

/-- The end of a Core step (R100). -/
def State.finish (s : State) : State := { s with busy := false }

/-- The Core step completes whatever the command answers. -/
def finishCommand : Result → Result
  | .next s => .next s.finish
  | .fault f => .fault f
  | .refused r => .refused r

/-- A command word latched by itself, with the reset input deasserted and the Core to move next; PARG stays. It stands for a
CMD write of the host whose ARG capture is already in PARG (log 2). -/
def State.latch (s : State) (w : Word) : State :=
  { s with pcmd := w, busy := true, inReset := false, turns := .core :: s.turns }

end Sys2Proof.Machine
end

