-- ==== Sys2Proof/Machine/CodeTable.lean ====
section
/-! DEFINITION. The Code Table Generator (43_code_table.md): the tree walk, GEN, CODE_FIND and CODE_READ. -/

namespace Sys2Proof.Machine

/-- `Walk(k, s)` (R141): the leaves below node k with their codes, given the bits s accumulated so far. The fuel bounds the
depth; the number of nodes suffices for a tree, since a child's index is smaller than its parent's (10_state.md R36). NONE if
an index names no node or the fuel runs out, which no tree of R36 does. -/
def walkCodes : Nat → List Node → Nat → Bits → Option (List (Nat × Bits))
  | 0, _, _, _ => none
  | fuel + 1, nodes, k, s =>
    match nodes[k]? with
    | none => none
    | some (.leaf _ _) => some [(k, s)]
    | some (.int _ l r) =>
      match walkCodes fuel nodes l (s ++ [false]) with
      | none => none
      | some ls =>
        match walkCodes fuel nodes r (s ++ [true]) with
        | none => none
        | some rs => some (ls ++ rs)

/-- The code the walk found for leaf i. -/
def codeOf (found : List (Nat × Bits)) (i : Nat) : Option Bits :=
  match found.find? (fun p => p.1 == i) with
  | none => none
  | some p => some p.2

/-- All the values, if every one is there. -/
def allSome : List (Option Bits) → Option (List Bits)
  | [] => some []
  | none :: _ => none
  | some c :: cs =>
    match allSome cs with
    | none => none
    | some rest => some (c :: rest)

/-- The codes of leaves 0..n − 1 of a tree with at least two leaves (R140, R141). -/
def treeCodes (nodes : List Node) (root : Option Nat) (n : Nat) : Option (List Bits) :=
  match root with
  | none => none
  | some r =>
    match walkCodes nodes.length nodes r [] with
    | none => none
    | some found => allSome ((List.range n).map (codeOf found))

/-- CODE for n leaves (R140): empty, the single-symbol code "0" (R142), or the codes of the walk. -/
def genCodes (nodes : List Node) (root : Option Nat) (n : Nat) : Option (List Bits) :=
  if n = 0 then some []
  else if n = 1 then some [[false]]
  else treeCodes nodes root n

/-- GEN (R140). -/
def execGen (s : State) : Result :=
  unlessBlocked s <|
    if s.phase ≠ .tree then raise s .badSequence
    else
      match genCodes s.node s.root s.freq.length with
      | none => .fault .malformedTree
      | some code => .next (s.setCodes code)

/-- CODE_FIND (R144): an absent symbol is no error. -/
def execCodeFind (sym : Symbol) (s : State) : Result :=
  unlessBlocked s <|
    if s.phase ≠ .codes then raise s .badSequence
    else
      match find s.freq sym with
      | none => .next (s.setResults (indexWord none) 0#32)
      | some i =>
        match s.code[i]? with
        | none => .fault .missingCode
        | some c => .next (s.setResults (indexWord (some i)) (BitVec.ofNat 32 c.length))

/-- CODE_READ (R145): the word index is PARG, and 32·wi is computed without overflow. -/
def execCodeRead (idx : Nat) (s : State) : Result :=
  unlessBlocked s <|
    if s.phase ≠ .codes then raise s .badSequence
    else
      match s.code[idx]? with
      | none => raise s .indexRange
      | some c =>
        if 32 * s.count ≥ c.length then raise s .indexRange
        else .next (s.setResults (codeWord c s.count) (BitVec.ofNat 32 c.length))

end Sys2Proof.Machine
end

