-- ==== Sys2Proof/Machine/Control.lean ====
section
/-! DEFINITION. The control commands (40_control.md R101 to R103). They execute while ERR ≠ 0 (R100). -/

namespace Sys2Proof.Machine

/-- NOP (R101): no state changes. -/
def execNop (s : State) : Result := .next s

/-- CLEAR (R102). -/
def execClear (s : State) : Result := .next s.clearAll

/-- ERR_CLEAR (R103). -/
def execErrClear (s : State) : Result := .next s.abortSessions

end Sys2Proof.Machine
end

