-- ==== Sys2Proof/Machine/Decoder.lean ====
section
/-! DEFINITION. The Bitstream Decoder (45_decoder.md): emission, the walker step, the release of bits, and the four decoder
commands. -/

namespace Sys2Proof.Machine

/-- `Emit(s)` (R184). -/
def emit (x : Symbol) (s : State) : Flow :=
  if s.decbuf.length = s.cfg.decSyms then .raised (s.raise .decOverflow) else .go (s.pushSymbol x)

/-- The child a bit leads to: left on 0, right on 1 (R183). -/
def child (nodes : List Node) (k : Option Nat) (bit : Bool) : Option Nat :=
  match k with
  | none => none
  | some j =>
    match nodes[j]? with
    | some (.int _ l r) => some (if bit then r else l)
    | _ => none

/-- The walker step in a tree of at least two leaves (R183, the Int case of NODE[ROOT]). -/
def stepInner (bit : Bool) (s : State) : Flow :=
  match child s.node s.dnode bit with
  | none => .broken .malformedTree
  | some nxt =>
    match s.node[nxt]? with
    | none => .broken .malformedTree
    | some (.leaf x _) => (emit x s).andThen fun t => .go (t.walkTo t.root)
    | some (.int _ _ _) => .go (s.walkTo (some nxt))

/-- `Step(bit)` (R183). -/
def stepBit (bit : Bool) (s : State) : Flow :=
  if s.ddead then .go s
  else
    match s.root with
    | none => .go s.markDead
    | some r =>
      match s.node[r]? with
      | none => .broken .malformedTree
      | some (.leaf x _) => if bit then .go s.markDead else emit x s
      | some (.int _ _ _) => stepInner bit s

/-- The bits walked one after another; a step that raises stops the rest (R182). -/
def walkBits : Bits → State → Flow
  | [], s => .go s
  | b :: bs, s => (stepBit b s).andThen (walkBits bs)

/-- `Release(v, m)` (R182): the first m bits of byte v, most significant first. -/
def release (v : Byte) (m : Nat) (s : State) : Flow := walkBits ((unpackByte v).take m) s

/-- DEC_START (R180): opens a session, discarding an open one. -/
def execDecStart (s : State) : Result :=
  unlessBlocked s <|
    if s.phase ≠ .codes then raise s .badSequence else .next s.openDec

/-- The held byte, if there is one, is not the last: all its bits are code bits (R181). -/
def releaseHeld (s : State) : Flow :=
  if s.dholdv then release s.dhold 8 s else .go s

/-- DEC_BYTE (R181, R185): the header byte, or a data byte that takes the held byte's place. -/
def execDecByte (byte : Byte) (s : State) : Result :=
  unlessBlocked s <|
    if s.decActive = false then raise s .badSequence
    else if s.dhdr = false then
      if h : byte.toNat < 9 then .next (s.takeHeader ⟨byte.toNat, h⟩) else raise s .corruptPayload
    else ((releaseHeld s).andThen fun t => .go (t.holdByte byte)).result

/-- The trailing check of DEC_FINISH (R186): a candidate that is not empty is corrupt. -/
def checkTrailing (s : State) : Flow :=
  if s.ddead = true ∨ s.dnode ≠ s.root then .raised (s.raise .corruptPayload) else .go s

/-- What DEC_FINISH does with a payload that is not empty (R186). -/
def finishPayload (s : State) : Flow :=
  if s.dholdv = false then
    if s.dp.val > 0 then .raised (s.raise .corruptPayload) else checkTrailing s
  else ((release s.dhold (8 - s.dp.val) s).andThen fun t => .go t.dropHold).andThen checkTrailing

/-- DEC_FINISH (R186, R188). -/
def execDecFinish (s : State) : Result :=
  unlessBlocked s <|
    if s.decActive = false then raise s .badSequence
    else ((if s.dhdr then finishPayload s else .go s).andThen fun t => .go t.closeDec).result

/-- DEC_READ (R187). -/
def execDecRead (idx : Nat) (s : State) : Result :=
  unlessBlocked s <|
    if s.decDone = false then raise s .badSequence
    else
      match s.decbuf[idx]? with
      | none => raise s .indexRange
      | some x => .next (s.setResults (x.setWidth 32) 0#32)

end Sys2Proof.Machine
end

