-- ==== Sys2Proof/Machine/Encoder.lean ====
section
/-! DEFINITION. The Bitstream Encoder (44_encoder.md R160 to R168). -/

namespace Sys2Proof.Machine

/-- ENC_START (R160): opens a session, discarding an open one or a finished payload. -/
def execEncStart (s : State) : Result :=
  unlessBlocked s <|
    if s.phase ≠ .codes then raise s .badSequence else .next s.openEnc

/-- ENC_SYM (R161 to R163). -/
def execEncSym (sym : Symbol) (s : State) : Result :=
  unlessBlocked s <|
    if s.encActive = false then raise s .badSequence
    else
      match find s.freq sym with
      | none => raise s .unknownSymbol
      | some i =>
        match s.code[i]? with
        | none => .fault .missingCode
        | some c =>
          if payloadBytes (s.ebits.length + c.length) > s.cfg.outBytes then raise s .outOverflow
          else .next (s.appendBits c)

/-- ENC_FINISH (R166). -/
def execEncFinish (s : State) : Result :=
  unlessBlocked s <|
    if s.encActive = false then raise s .badSequence else .next (s.closeEnc (payload s.ebits))

/-- OUT_READ (R167). -/
def execOutRead (idx : Nat) (s : State) : Result :=
  unlessBlocked s <|
    if s.outDone = false then raise s .badSequence
    else
      match s.outbuf[idx]? with
      | none => raise s .indexRange
      | some b => .next (s.setResults (b.setWidth 32) 0#32)

end Sys2Proof.Machine
end

