-- ==== Sys2Proof/Machine/Frequency.lean ====
section
/-! DEFINITION. The frequency-table port (41_frequency_table.md R110, R111). -/

namespace Sys2Proof.Machine

/-- FREQ_LOAD (R110): the checks in the rule's order, then the append. -/
def execFreqLoad (sym : Symbol) (s : State) : Result :=
  unlessBlocked s <|
    if s.phase ≠ .load then raise s .badSequence
    else if s.count = 0 then raise s .zeroCount
    else if (find s.freq sym).isSome then raise s .dupSymbol
    else if s.freq.length = s.cfg.maxLeaves then raise s .tableFull
    else if s.total.toNat + s.count > 2 ^ 32 - 1 then raise s .freqOverflow
    else .next (s.appendFreq sym s.parg)

/-- FREQ_READ (R111), admitted in every phase. -/
def execFreqRead (idx : Nat) (s : State) : Result :=
  unlessBlocked s <|
    match s.freq[idx]? with
    | none => raise s .indexRange
    | some e => .next (s.setResults (e.sym.setWidth 32) e.cnt)

end Sys2Proof.Machine
end

