-- ==== Sys2Proof/Machine/TreeBuilder.lean ====
section
/-! DEFINITION. The Tree Builder (42_tree_builder.md): the priority queue, the merge loop, BUILD and NODE_READ. -/

namespace Sys2Proof.Machine

/-- An element of the priority queue: a node index with its node's weight, which together are its key (R121). -/
structure QEntry where
  w : Word
  k : Nat
  deriving DecidableEq, Repr

/-- The key order of R121: smaller weight first, among equal weights the smaller node index. -/
def QEntry.before (a b : QEntry) : Bool := a.w.toNat < b.w.toNat || (a.w == b.w && a.k < b.k)

/-- The one of two elements that is popped first. -/
def QEntry.first (a b : QEntry) : QEntry := if b.before a then b else a

/-- `PopMin(Q)` (R121): the element with the smallest key, and the queue without it. -/
def popMin : List QEntry → Option (QEntry × List QEntry)
  | [] => none
  | e :: es =>
    let m := es.foldl QEntry.first e
    some (m, (e :: es).erase m)

/-- The merge loop of R120. The fuel bounds the number of merges; n merges suffice for a queue of n elements, because each
takes two elements and puts one back. A sum past 2^32 − 1 contradicts R122 and stops the loop (log 7). -/
def mergeLoop : Nat → List Node → List QEntry → Except Fault (List Node × List QEntry)
  | 0, nodes, q => .ok (nodes, q)
  | fuel + 1, nodes, q =>
    match popMin q with
    | none => .ok (nodes, q)
    | some (x, q1) =>
      match popMin q1 with
      | none => .ok (nodes, q)
      | some (y, q2) =>
        if x.w.toNat + y.w.toNat < 2 ^ 32 then
          mergeLoop fuel (nodes ++ [.int (x.w + y.w) x.k y.k]) (q2 ++ [⟨x.w + y.w, nodes.length⟩])
        else .error .weightOverflow

/-- Node i is leaf i (R120). -/
def leaves (freq : List FreqEntry) : List Node := freq.map fun e => .leaf e.sym e.cnt

/-- The queue at the start: every leaf index, from `start` on, with its weight (R120). -/
def seedQueue : Nat → List FreqEntry → List QEntry
  | _, [] => []
  | start, e :: es => ⟨e.cnt, start⟩ :: seedQueue (start + 1) es

/-- NODE and ROOT for a FrequencyTable (R120, R126, R127): ROOT is the single element left in the queue, NONE if there is
none. -/
def buildTree (freq : List FreqEntry) : Except Fault (List Node × Option Nat) :=
  match mergeLoop freq.length (leaves freq) (seedQueue 0 freq) with
  | .error f => .error f
  | .ok (nodes, q) => .ok (nodes, q.head?.map QEntry.k)

/-- BUILD (R120). -/
def execBuild (s : State) : Result :=
  unlessBlocked s <|
    if s.phase ≠ .load then raise s .badSequence
    else
      match buildTree s.freq with
      | .error f => .fault f
      | .ok (node, root) => .next (s.setTree node root)

/-- NODE_READ (R125). -/
def execNodeRead (idx : Nat) (s : State) : Result :=
  unlessBlocked s <|
    if s.phase = .load then raise s .badSequence
    else
      match s.node[idx]? with
      | none => raise s .indexRange
      | some n => .next (s.setResults n.word n.weight)

end Sys2Proof.Machine
end

