-- ==== Sys2Proof/Machine/Dispatch.lean ====
section
/-! DEFINITION. The dispatch of a decoded command to its meaning, one arm per command of 30_encoding.md R87. -/

namespace Sys2Proof.Machine

/-- The effect of a command (40_control.md R100, after the legality check and before BUSY is cleared). -/
def exec (i : Instr) (s : State) : Host.Outcome State Fault Refusal :=
  match i with
  | .nop => Sys2Proof.Machine.execNop s
  | .clear => Sys2Proof.Machine.execClear s
  | .errClear => Sys2Proof.Machine.execErrClear s
  | .freqLoad sym => Sys2Proof.Machine.execFreqLoad sym s
  | .freqRead idx => Sys2Proof.Machine.execFreqRead idx s
  | .build => Sys2Proof.Machine.execBuild s
  | .nodeRead idx => Sys2Proof.Machine.execNodeRead idx s
  | .gen => Sys2Proof.Machine.execGen s
  | .codeFind sym => Sys2Proof.Machine.execCodeFind sym s
  | .codeRead idx => Sys2Proof.Machine.execCodeRead idx s
  | .encStart => Sys2Proof.Machine.execEncStart s
  | .encSym sym => Sys2Proof.Machine.execEncSym sym s
  | .encFinish => Sys2Proof.Machine.execEncFinish s
  | .outRead idx => Sys2Proof.Machine.execOutRead idx s
  | .decStart => Sys2Proof.Machine.execDecStart s
  | .decByte byte => Sys2Proof.Machine.execDecByte byte s
  | .decFinish => Sys2Proof.Machine.execDecFinish s
  | .decRead idx => Sys2Proof.Machine.execDecRead idx s

end Sys2Proof.Machine
end

