-- ==== Sys2Proof/Machine/Bus.lean ====
section
/-! DEFINITION. The register window (10_state.md R20 to R48) and the host's bus accesses to it (20_memory.md R60 to R63). -/

namespace Sys2Proof.Machine

/-- The registers of the window (R20). -/
inductive Reg where
  | id
  | cmd
  | arg
  | status
  | res0
  | res1
  | nleaf
  | total
  | nnode
  | root
  | encBits
  | outLen
  | decLen
  /-- offsets 0x34 to 0xFC (R47) -/
  | reserved
  deriving DecidableEq, Repr

/-- The register at a word offset (R20). -/
def regAt (off : Nat) : Reg :=
  match off with
  | 0x00 => .id
  | 0x04 => .cmd
  | 0x08 => .arg
  | 0x0C => .status
  | 0x10 => .res0
  | 0x14 => .res1
  | 0x18 => .nleaf
  | 0x1C => .total
  | 0x20 => .nnode
  | 0x24 => .root
  | 0x28 => .encBits
  | 0x2C => .outLen
  | 0x30 => .decLen
  | _ => .reserved

/-- The offset of a register (R20); for the reserved offsets, the first of them. -/
def Reg.offset : Reg → Nat
  | .id => 0x00
  | .cmd => 0x04
  | .arg => 0x08
  | .status => 0x0C
  | .res0 => 0x10
  | .res1 => 0x14
  | .nleaf => 0x18
  | .total => 0x1C
  | .nnode => 0x20
  | .root => 0x24
  | .encBits => 0x28
  | .outLen => 0x2C
  | .decLen => 0x30
  | .reserved => 0x34

/-- HUF_ID (00_scope.md R11). -/
def hufId : Word := 0x48554631#32

/-- A length as a count register shows it (R32, R35, R40, R41, R46). -/
def lengthWord (n : Nat) : Word := BitVec.ofNat 32 n

/-- The value of a register as 10_state.md states it for BUSY = 0, and for ID, CMD, ARG, STATUS and the reserved offsets at
all times. -/
def State.reg (s : State) : Reg → Word
  | .id => hufId
  | .cmd => 0#32
  | .arg => s.arg
  | .status => s.status
  | .res0 => s.res0
  | .res1 => s.res1
  | .nleaf => lengthWord s.freq.length
  | .total => s.total
  | .nnode => lengthWord s.node.length
  | .root => indexWord s.root
  | .encBits => lengthWord s.ebits.length
  | .outLen => lengthWord s.outbuf.length
  | .decLen => lengthWord s.decbuf.length
  | .reserved => 0#32

/-- The registers whose value while BUSY = 1 is unspecified (R48). CMD, which R48 puts in neither list, reads 0 at all times
(R23; log 9). -/
def Reg.unspecifiedWhileBusy : Reg → Bool
  | .id => false
  | .cmd => false
  | .arg => false
  | .status => false
  | .reserved => false
  | .res0 => true
  | .res1 => true
  | .nleaf => true
  | .total => true
  | .nnode => true
  | .root => true
  | .encBits => true
  | .outLen => true
  | .decLen => true

/-- The bus answers the host. -/
def State.respond (s : State) (r : BusResp) : State := { s with resp := r }

/-- One free value has been drawn (R48, log 5). -/
def State.draw (s : State) : State := { s with draws := s.draws + 1 }

/-- ARG takes a value (R24). -/
def State.setArg (s : State) (v : Word) : State := { s with arg := v }

/-- An admitted read of a register (R60, R48): it changes nothing of the block (R63). -/
def readReg (r : Reg) (s : State) : State :=
  if s.busy && r.unspecifiedWhileBusy then s.draw.respond (.data (Config.busyRead s.draws)) else s.respond (.data (s.reg r))

/-- An admitted write of a register: only CMD and ARG have an effect (R63); RO registers and reserved offsets ignore it (R20,
R47). -/
def writeReg (r : Reg) (v : Word) (s : State) : State :=
  (match r with
    | .cmd => if s.busy then s.overrun else s.issue v
    | .arg => s.setArg v
    | .id => s
    | .status => s
    | .res0 => s
    | .res1 => s
    | .nleaf => s
    | .total => s
    | .nnode => s
    | .root => s
    | .encBits => s
    | .outLen => s
    | .decLen => s
    | .reserved => s).respond .done

/-- The only access the window admits (R61): 32 bits wide, at a multiple of 4. -/
def admitted (off size : Nat) : Bool := size == 4 && off % 4 == 0

/-- Does an address fall in the block's window, and at which offset (R62)? HUF_BASE is a multiple of 256, and the window
decodes address bits [7:0]. -/
def windowOffset (c : Params) (addr : Nat) : Option Nat :=
  if addr / 256 = c.hufBase / 256 then some (addr % 256) else none

/-- A read of the window at an offset (R60, R61, R207). -/
def windowRead (off size : Nat) (s : State) : State :=
  if admitted off size then readReg (regAt off) s else s.respond .busError

/-- A write to the window at an offset (R60, R61, R207). -/
def windowWrite (off size : Nat) (v : Word) (s : State) : State :=
  if admitted off size then writeReg (regAt off) v s else s.respond .busError

/-- A bus access of the host. While reset is asserted an access to the window is refused (70_reset_and_hazards.md R230). An
address outside the window does not reach the block (log 10). -/
def busAccess (op : BusOp) (s : State) : Result :=
  match op with
  | .read addr size =>
    match windowOffset s.cfg addr with
    | none => .next (s.respond .unselected)
    | some off => if s.inReset then .refused .accessDuringReset else .next (windowRead off size s)
  | .write addr size v =>
    match windowOffset s.cfg addr with
    | none => .next (s.respond .unselected)
    | some off => if s.inReset then .refused .accessDuringReset else .next (windowWrite off size v s)

end Sys2Proof.Machine
end

