-- ==== Sys2Proof/Machine/HostProgram.lean ====
section
/-! DEFINITION. The host's statements: how each runs, and the statements and pseudo-instructions of the host-program syntax
(30_encoding.md R91, R92). -/

namespace Sys2Proof.Machine

/-! ### The syntax of R91 and R92 as lists of statements -/

/-- `R <reg>` (R91). -/
def asmRead (c : Params) (r : Reg) : HostStmt := .access (.read (c.hufBase + r.offset) 4)

/-- `W <reg>, <value>` (R91). -/
def asmWrite (c : Params) (r : Reg) (v : Word) : HostStmt := .access (.write (c.hufBase + r.offset) 4 v)

/-- `<MNEMONIC> [<operand>]` (R91): a write of the command word to CMD, with no wait for completion. -/
def asmCommand (c : Params) (i : Instr) : HostStmt := asmWrite c .cmd (encode i)

/-- `DO <MNEMONIC> [<operand>]` (R92). -/
def asmDo (c : Params) (i : Instr) : List HostStmt := [asmCommand c i, .wait]

/-- `LOADF <sym>, <count>` (R92). -/
def asmLoadF (c : Params) (sym : Symbol) (count : Word) : List HostStmt :=
  [asmWrite c .arg count, asmCommand c (.freqLoad sym), .wait]

/-- `CODEW <idx>, <w>` (R92). -/
def asmCodeW (c : Params) (idx : Nat) (wi : Word) : List HostStmt :=
  [asmWrite c .arg wi, asmCommand c (.codeRead idx), .wait]

/-! ### Running a statement -/

/-- The statements still to run. -/
def State.setProg (s : State) (p : List HostStmt) : State := { s with prog := p }

/-- The STATUS value the last read returned, if it returned one. -/
def State.respValue (s : State) : Option Word :=
  match s.resp with
  | .data v => some v
  | .none => none
  | .done => none
  | .busError => none
  | .unselected => none

/-- The host's reaction to the STATUS value of a WAIT (R92): it goes on when BUSY (bit 0) is 0, else it stays at the WAIT. -/
def afterWait (rest : List HostStmt) (s : State) : State :=
  match s.respValue with
  | some v => if statusBusy v then s else s.setProg rest
  | none => s

/-- The host's reaction to the STATUS value of a CHECK (R92): it stops the program when ERR is nonzero. -/
def afterCheck (rest : List HostStmt) (s : State) : State :=
  match s.respValue with
  | some v => if statusErr v = 0#8 then s.setProg rest else s.setProg []
  | none => s

/-- What follows a bus access of the host. -/
def afterAccess (r : Result) (k : State → State) : Result :=
  match r with
  | .next s => .next (k s)
  | .fault f => .fault f
  | .refused x => .refused x

/-- The read of STATUS that WAIT and CHECK make. -/
def statusRead (c : Params) : BusOp := .read (c.hufBase + Reg.status.offset) 4

/-- The host runs its next statement; with none left it does nothing (60_exceptions.md R215). -/
def hostTurn (s : State) : Result :=
  match s.prog with
  | [] => .next s
  | .access op :: rest => afterAccess (busAccess op s) fun t => t.setProg rest
  | .wait :: rest => afterAccess (busAccess (statusRead s.cfg) s) (afterWait rest)
  | .check :: rest => afterAccess (busAccess (statusRead s.cfg) s) (afterCheck rest)

end Sys2Proof.Machine
end

