-- ==== Sys2Proof/Machine/Agents.lean ====
section
/-! DEFINITION. The Core's step (40_control.md R100), the reset input (70_reset_and_hazards.md R230, R231) and whose move it is
(60_exceptions.md R215). -/

namespace Sys2Proof.Machine

/-- `Execute(PCMD, PARG)` (R100): an illegal word raises ILLEGAL_CMD, a legal one is performed. -/
def execute (s : State) : Result :=
  match decode s.pcmd with
  | .ok i => exec i s
  | .error _ => raise s .illegalCmd

/-- `CoreStep` (R100): the latched command as one transition, then BUSY ← 0. -/
def coreStep (s : State) : Result := finishCommand (execute s)

/-- The Core has a step exactly when BUSY = 1 (R100), and takes none while reset is asserted (R230). Otherwise it does nothing
(60_exceptions.md R214). -/
def coreTurn (s : State) : Result :=
  if s.busy && !s.inReset then coreStep s else .next s

/-- Every field of R51 takes its reset value (R230); the parameters, the host and the model's own fields stay. -/
def State.resetBlock (s : State) : State :=
  { State.resetOf s.cfg with
    inReset := s.inReset, prog := s.prog, turns := s.turns, resp := s.resp, draws := s.draws }

/-- The level of the reset input. -/
def State.setReset (s : State) (level : Bool) : State := { s with inReset := level }

/-- The reset input is driven (R230, R231): when it is deasserted every field of R51 holds its reset value; a pending command
is abandoned. Driving it to the level it has is no event (log 6). -/
def resetTurn (asserted : Bool) (s : State) : State :=
  if asserted then s.setReset true
  else if s.inReset then s.resetBlock.setReset false
  else s

/-- The move is used up. -/
def State.setTurns (s : State) (ts : List Turn) : State := { s with turns := ts }

/-- One move of the agent the list names (R215). -/
def move (t : Turn) (s : State) : Result :=
  match t with
  | .core => coreTurn s
  | .host => hostTurn s
  | .resetInput level => .next (resetTurn level s)

/-- The move when the list names no one (log 2): a busy Core moves (the weak fairness of R246), else the host, who keeps off
the window while reset is asserted (R230). -/
def defaultMove (s : State) : Result :=
  if s.inReset then .next s
  else if s.busy then coreTurn s
  else hostTurn s

/-- One step of the whole: the agent whose turn it is moves. -/
def takeTurn (s : State) : Result :=
  match s.turns with
  | [] => defaultMove s
  | t :: ts => move t (s.setTurns ts)

end Sys2Proof.Machine
end

