-- ==== Sys2Proof/Machine/Step.lean ====
section
/-! DEFINITION. The step of the machine, and the placing of a command word where the next step executes it. -/

namespace Sys2Proof.Machine

/-- One step: one atomic move of the host, of the Core or of the reset input (00_scope.md R5, 20_memory.md R68). -/
def step (s : State) : Host.Outcome State Fault Refusal := takeTurn s

/-- The word of a table row latched as the command the very next step executes (log 2). -/
def State.withFetchWord (s : State) (nbits w : Nat) : State := s.latch (tableWord nbits w)

end Sys2Proof.Machine
end

