-- ==== Sys2Proof/Safety.lean ====
section
/-! DEFINITION. The invariants the spec gives the state (10_state.md R28, R29, R33 to R37, R39, R41, R44 to R46), the admission
table of 40_control.md R104, and what it means for a run of commands to succeed. -/

namespace Sys2Proof.Machine

/-! ### Answers -/

/-- The next state, if the answer is one. -/
def next? : Result → Option State
  | .next s => some s
  | .fault _ => none
  | .refused _ => none

/-- The commands of a list executed one after another on the block, each as the Core executes it (R100); they stop where one
answers no next state. -/
def runAll : List Instr → State → Result
  | [], s => .next s
  | i :: is, s =>
    match exec i s with
    | .next t => runAll is t
    | .fault f => .fault f
    | .refused r => .refused r

/-! ### Admission (40_control.md R104) -/

/-- The state admits the command: the middle column of R104's table. -/
def Admits (i : Instr) (s : State) : Prop :=
  match i with
  | .nop => True
  | .clear => True
  | .errClear => True
  | .freqLoad _ => s.phase = .load
  | .freqRead _ => True
  | .build => s.phase = .load
  | .nodeRead _ => s.phase = .tree ∨ s.phase = .codes
  | .gen => s.phase = .tree
  | .codeFind _ => s.phase = .codes
  | .codeRead _ => s.phase = .codes
  | .encStart => s.phase = .codes
  | .encSym _ => s.encActive = true
  | .encFinish => s.encActive = true
  | .outRead _ => s.outDone = true
  | .decStart => s.phase = .codes
  | .decByte _ => s.decActive = true
  | .decFinish => s.decActive = true
  | .decRead _ => s.decDone = true

/-- The three commands that execute while ERR ≠ 0 (R100). -/
def IsControl (i : Instr) : Prop := i = .nop ∨ i = .clear ∨ i = .errClear

/-! ### Capacities: the canonical form of the memories (R49) -/

/-- Each memory is a list within its capacity (R31, R34, R39, R41, R46). -/
abbrev Memory.wf (s : State) : Prop :=
  s.freq.length ≤ s.cfg.maxLeaves ∧ s.node.length ≤ s.cfg.maxNodes ∧
    s.ebits.length ≤ 8 * (s.cfg.outBytes - 2) + 7 ∧ s.outbuf.length ≤ s.cfg.outBytes ∧ s.decbuf.length ≤ s.cfg.decSyms

/-! ### The FrequencyTable (R32, R33) -/

/-- The sum of the counts. -/
def countSum (freq : List FreqEntry) : Nat := (freq.map fun e => e.cnt.toNat).sum

/-- Positive counts, distinct symbols, TOTAL their sum. TOTAL ≤ 2^32 − 1 holds by its width. -/
abbrev FreqInv (s : State) : Prop :=
  (∀ e ∈ s.freq, e.cnt ≠ 0#32) ∧ (s.freq.map FreqEntry.sym).Nodup ∧ s.total.toNat = countSum s.freq

/-! ### Sessions (R28, R29, R41, R104) -/

/-- The session flags exclude each other, are 1 only in phase CODES, and OUTBUF is empty unless OUT_DONE = 1. -/
abbrev SessionInv (s : State) : Prop :=
  ¬ (s.encActive = true ∧ s.outDone = true) ∧ ¬ (s.decActive = true ∧ s.decDone = true) ∧
    ((s.encActive = true ∨ s.outDone = true ∨ s.decActive = true ∨ s.decDone = true) → s.phase = .codes) ∧
    (s.outDone = false → s.outbuf = [])

/-! ### The tree (R34 to R36) -/

/-- The node indices that occur as children, each as often as it is one. -/
def childIndices (nodes : List Node) : List Nat :=
  nodes.flatMap fun n =>
    match n with
    | .leaf _ _ => []
    | .int _ l r => [l, r]

/-- The weight of the node at an index, 0 where there is none. -/
def weightAt (nodes : List Node) (k : Nat) : Nat :=
  match nodes[k]? with
  | none => 0
  | some n => n.weight.toNat

/-- Node k, if it is an internal node, has two different children of smaller index whose weights add up to its own (R36). -/
def innerOk (nodes : List Node) (k : Nat) : Bool :=
  match nodes[k]? with
  | some (.int w l r) =>
    decide (l < k) && decide (r < k) && decide (l ≠ r) && w.toNat == weightAt nodes l + weightAt nodes r
  | _ => false

/-- How many nodes the tree of n leaves has (R35). -/
def nodeCount (n : Nat) : Nat := if n = 0 then 0 else 2 * n - 1

/-- The root's index in a tree of n leaves (R35). -/
def rootIndex (n : Nat) : Option Nat := if n = 0 then none else some (2 * n - 2)

/-- NODE and ROOT are the tree of a FrequencyTable as R34 to R36 describe it. -/
abbrev TreeOf (freq : List FreqEntry) (nodes : List Node) (root : Option Nat) : Prop :=
  nodes.length = nodeCount freq.length ∧ root = rootIndex freq.length ∧
    nodes.take freq.length = leaves freq ∧
    (∀ k < nodes.length, freq.length ≤ k → innerOk nodes k = true) ∧
    (∀ k < nodes.length, (childIndices nodes).count k = if root = some k then 0 else 1)

/-- In phase LOAD there is no tree; in TREE and CODES there is the tree of FREQ (R34 to R36). -/
abbrev TreeInv (s : State) : Prop :=
  (s.phase = .load → s.node = [] ∧ s.root = none) ∧ (s.phase ≠ .load → TreeOf s.freq s.node s.root)

/-! ### The codes (R37, R141 to R143) -/

/-- The node a bit string leads to from node k: left on 0, right on 1 (R141). -/
def descend (nodes : List Node) : Nat → Bits → Option Nat
  | k, [] => some k
  | k, b :: bs =>
    match nodes[k]? with
    | some (.int _ l r) => descend nodes (if b then r else l) bs
    | _ => none

/-- CODE is the code table of the tree: "0" for a single leaf (R142), the path from ROOT to leaf i otherwise (R141), with the
lengths of R143. -/
def codesOk (n : Nat) (nodes : List Node) (root : Option Nat) (code : List Bits) : Bool :=
  if n ≤ 1 then code == List.replicate n [false]
  else
    match root with
    | none => false
    | some r =>
      code.length == n &&
        (List.range n).all fun i =>
          match code[i]? with
          | none => false
          | some c => decide (1 ≤ c.length) && decide (c.length ≤ n - 1) && descend nodes r c == some i

/-- CODE is the code table in phase CODES and empty before it (R37). -/
abbrev CodeInv (s : State) : Prop :=
  (s.phase ≠ .codes → s.code = []) ∧ (s.phase = .codes → codesOk s.freq.length s.node s.root s.code = true)

/-! ### The decoder's hidden state (R42 to R45) -/

/-- The walker stands where R45 says: at ROOT when there are fewer than two leaves, else at an internal node. -/
def walkerOk (n : Nat) (nodes : List Node) (root dnode : Option Nat) : Bool :=
  if n ≤ 1 then dnode == root
  else
    match dnode with
    | none => false
    | some k =>
      match nodes[k]? with
      | some (.int _ _ _) => true
      | _ => false

/-- During a session the walker is in place, a held byte follows a header, and the candidate can be dead only with fewer than
two leaves (R43 to R45). -/
abbrev DecoderInv (s : State) : Prop :=
  s.decActive = true →
    walkerOk s.freq.length s.node s.root s.dnode = true ∧ (s.dholdv = true → s.dhdr = true) ∧
      (s.ddead = true → s.freq.length ≤ 1)

/-! ### The encoder's data (R39, R41) and the root's weight (R36) -/

/-- EBITS is a concatenation of codes, empty when no session is open or finished (R39), and OUTBUF is the payload of EBITS when
OUT_DONE = 1 (R41). -/
def PayloadInv (s : State) : Prop :=
  (∃ cs : List Bits, (∀ c ∈ cs, c ∈ s.code) ∧ s.ebits = cs.flatten) ∧
    (s.encActive = false → s.outDone = false → s.ebits = []) ∧
    (s.outDone = true → s.outbuf = payload s.ebits)

/-- In phases TREE and CODES the root weighs TOTAL (R36). -/
def RootInv (s : State) : Prop :=
  s.phase ≠ .load → ∀ r, s.root = some r → weightAt s.node r = s.total.toNat

/-! ### The invariants together -/

/-- The parameters' ranges (R6 to R8), the capacities (R31, R34, R39, R41, R46), the FrequencyTable (R33), the session flags
(R28, R29, R41, R104), the tree (R34 to R36), the codes (R37, R141 to R143) and the decoder's position (R43 to R45). What R39
and R41 say of the encoder's data is `PayloadInv`, and what R36 says of the root's weight is `RootInv`. -/
structure SpecInv (s : State) : Prop where
  params : s.cfg.Wf
  memory : Memory.wf s
  freq : FreqInv s
  session : SessionInv s
  tree : TreeInv s
  code : CodeInv s
  decoder : DecoderInv s

/-! ### Legality as R88 writes it -/

/-- `Legal(w)` (30_encoding.md R88), case by case. -/
def legal (w : Word) : Bool :=
  if (opField w).toNat ∈ [0x00, 0x01, 0x02, 0x20, 0x30, 0x40, 0x42, 0x50, 0x52] then w.extractLsb' 0 24 == 0#24
  else if (opField w).toNat ∈ [0x10, 0x31, 0x41] then w.extractLsb' 21 3 == 0#3
  else if (opField w).toNat ∈ [0x11, 0x21, 0x32] then w.extractLsb' 15 9 == 0#9
  else if (opField w).toNat ∈ [0x43, 0x53] then true
  else if (opField w).toNat = 0x51 then w.extractLsb' 8 16 == 0#16
  else false

/-! ### The key order of the priority queue (42_tree_builder.md R121) -/

/-- Node a is popped before node b: smaller weight, or equal weight and smaller index. -/
def PoppedBefore (nodes : List Node) (a b : Nat) : Prop :=
  weightAt nodes a < weightAt nodes b ∨ (weightAt nodes a = weightAt nodes b ∧ a < b)

/-- Node j is in the queue when internal node k is created: it exists, and no earlier internal node took it as a child. -/
def WaitsAt (nodes : List Node) (j k : Nat) : Prop :=
  j < k ∧ ∀ i < k, ∀ w l r, nodes[i]? = some (.int w l r) → j ≠ l ∧ j ≠ r

/-! ### The bits that emit (45_decoder.md R183) -/

/-- From this state the bit completes the code of a leaf that holds x, so R183 reaches `Emit(x)`: a 0 in the tree of a single
leaf, or a step to a leaf in a larger tree. -/
def Completes (b : Bool) (s : State) (x : Symbol) : Prop :=
  s.ddead = false ∧ ∃ r, s.root = some r ∧
    ((b = false ∧ ∃ w, s.node[r]? = some (.leaf x w)) ∨
      ((∃ w i j, s.node[r]? = some (.int w i j)) ∧ ∃ k w, child s.node s.dnode b = some k ∧ s.node[k]? = some (.leaf x w)))

/-! ### Decoding as the source states it (45_decoder.md, its preamble and R185, R186, R188, R189) -/

/-- The inverse table: the symbol whose code is exactly this bit string. -/
def inverse (freq : List FreqEntry) (code : List Bits) (c : Bits) : Option Symbol :=
  match code.findIdx? (fun d => d == c) with
  | none => none
  | some i => (freq[i]?).map FreqEntry.sym

/-- The candidate scan: bits are accumulated into a candidate, and a match in the inverse table emits its symbol and empties
the candidate. The symbols emitted, and the candidate left at the end. -/
def scan (freq : List FreqEntry) (code : List Bits) : Bits → Bits → List Symbol × Bits
  | cand, [] => ([], cand)
  | cand, b :: bs =>
    match inverse freq code (cand ++ [b]) with
    | some x => (x :: (scan freq code [] bs).1, (scan freq code [] bs).2)
    | none => scan freq code (cand ++ [b]) bs

/-- `unpack` (20_memory.md R65). -/
def unpack (bytes : List Byte) : Bits := bytes.flatMap unpackByte

/-- The source's decode: the symbols emitted, and whether the payload is sound. The empty payload has no header (R188); a
header above 8 is refused (R185); a header-only payload with P ≥ 1 would strip more bits than exist (R186); the last P bits
are stripped; a candidate left over is corrupt. -/
def decodePayload (freq : List FreqEntry) (code : List Bits) (bytes : List Byte) : List Symbol × Bool :=
  match bytes with
  | [] => ([], true)
  | h :: data =>
    if h.toNat > 8 then ([], false)
    else if data = [] ∧ h.toNat > 0 then ([], false)
    else
      ((scan freq code [] ((unpack data).take (8 * data.length - h.toNat))).1,
        (scan freq code [] ((unpack data).take (8 * data.length - h.toNat))).2 == [])

/-- The commands that decode a payload (70_reset_and_hazards.md R235). -/
def decodeSession (bytes : List Byte) : List Instr := .decStart :: (bytes.map .decByte ++ [.decFinish])

/-- The commands that encode a text (R234). -/
def encodeSession (text : List Symbol) : List Instr := .encStart :: (text.map .encSym ++ [.encFinish])

/-- The code of a symbol, empty for a symbol that has none. -/
def codeOfSymbol (freq : List FreqEntry) (code : List Bits) (x : Symbol) : Bits :=
  match freq.findIdx? (fun e => e.sym == x) with
  | none => []
  | some i => (code[i]?).getD []

end Sys2Proof.Machine
end

