-- ==== Sys2Proof/Certificates/Slice0/Obligations.lean ====
section
/-! DEFINITION. The statements for the provers. Each docstring names the rule it formalises. A result written as a record update
of s is the command's frame too: every field it does not name is unchanged. -/

open Sys2Proof Sys2Proof.Machine

/-! ### Encoding (30_encoding.md) -/

/-- R81 to R87: the word of every well-formed command decodes to that command, at every value of every operand. -/
def Obligations.DecodeOfEncode : Prop := ∀ i, WellFormed i → decode (encode i) = .ok i

/-- R87, R89: a word that decodes is exactly the word of the command it decodes to, and that command is well-formed. -/
def Obligations.EncodeOfDecode : Prop := ∀ w i, decode w = .ok i → WellFormed i ∧ encode i = w

/-- R88: a word decodes exactly when it is Legal; it is Legal exactly when it matches a row of the opcode table; no word
matches two rows. -/
def Obligations.LegalWords : Prop := ∀ w,
  ((∃ i, decode w = .ok i) ↔ legal w = true) ∧
  (legal w = true ↔ ∃ r ∈ opcodeRows, r.matches w = true) ∧
  (∀ r ∈ opcodeRows, ∀ r' ∈ opcodeRows, r.matches w = true → r'.matches w = true → r = r')

/-- R93: the encoding examples, and the two illegal words. -/
def Obligations.ExampleWords : Prop :=
  decode 0x10000061#32 = .ok (.freqLoad 0x61#21) ∧ decode 0x11000003#32 = .ok (.freqRead 3) ∧
  decode 0x20000000#32 = .ok .build ∧ decode 0x21000008#32 = .ok (.nodeRead 8) ∧
  decode 0x32000004#32 = .ok (.codeRead 4) ∧ decode 0x41000072#32 = .ok (.encSym 0x72#21) ∧
  decode 0x43000002#32 = .ok (.outRead 2) ∧ decode 0x5100006E#32 = .ok (.decByte 0x6E#8) ∧
  decode 0x5300000A#32 = .ok (.decRead 10) ∧
  decode 0x20000001#32 = .error .reservedBits ∧ decode 0x60000000#32 = .error .unassignedOpcode

/-! ### The step: the Core, the host, the reset input (40_control.md R100, 60_exceptions.md R215, 70 R230) -/

/-- R100: a step of the busy Core is the effect of the command its latched word decodes to, after which BUSY is 0. The two
clauses are the two ways the Core gets its turn (log 2). -/
def Obligations.StepRunsCommand : Prop := ∀ s i,
  s.busy = true → s.inReset = false → decode s.pcmd = .ok i →
  (∀ ts, s.turns = .core :: ts →
    (∀ t, exec i { s with turns := ts } = .next t → step s = .next { t with busy := false }) ∧
    (∀ f, exec i { s with turns := ts } = .fault f → step s = .fault f)) ∧
  (s.turns = [] →
    (∀ t, exec i s = .next t → step s = .next { t with busy := false }) ∧ (∀ f, exec i s = .fault f → step s = .fault f))

/-- R89, R100, R201: executing a word that is not Legal sets ERR to ILLEGAL_CMD if it was 0, clears BUSY, and changes nothing
else. The two clauses are the two ways the Core gets its turn, the model's choice (log 2). -/
def Obligations.IllegalWordRaises : Prop := ∀ s,
  s.busy = true → s.inReset = false → legal s.pcmd = false →
  (∀ ts, s.turns = .core :: ts →
    step s = .next { s with turns := ts, busy := false, err := if s.err = .none then .illegalCmd else s.err }) ∧
  (s.turns = [] → step s = .next { s with busy := false, err := if s.err = .none then .illegalCmd else s.err })

/-- R91, R92, R215: the host's turn runs its next statement: a bus access; a WAIT, which reads STATUS and stays while BUSY is 1;
a CHECK, which reads STATUS and stops the program when ERR is nonzero. u is s with the host's turn taken off; the host moves
when it is named, and by default when the list is empty, the Core is not busy and reset is not asserted, which is the model's
choice (logs 2, 3). -/
def Obligations.HostStatements : Prop := ∀ s u rest,
  ((∃ ts, s.turns = .host :: ts ∧ u = { s with turns := ts }) ∨
    (s.turns = [] ∧ s.busy = false ∧ s.inReset = false ∧ u = s)) →
  (∀ op, s.prog = .access op :: rest →
    (∀ t, busAccess op u = .next t → step s = .next { t with prog := rest }) ∧
    (∀ r, busAccess op u = .refused r → step s = .refused r)) ∧
  (s.cfg.hufBase % 256 = 0 → s.inReset = false → s.prog = .wait :: rest →
    step s = .next { u with resp := .data s.status, prog := if s.busy = true then .wait :: rest else rest }) ∧
  (s.cfg.hufBase % 256 = 0 → s.inReset = false → s.prog = .check :: rest →
    step s = .next { u with resp := .data s.status, prog := if s.err = .none then rest else [] })

/-- R230: while reset is asserted a host access to the window is refused and the Core takes no step. R100: the Core takes no
step while BUSY = 0. The first clause, that asserting reset leaves every field but the level of the input as it was, is the
model's choice (log 6): R230 gives the fields' values only when the input is deasserted. -/
def Obligations.ResetHoldsTheBlock : Prop := ∀ s,
  (∀ ts, s.turns = .resetInput true :: ts → step s = .next { s with turns := ts, inReset := true }) ∧
  (∀ ts, s.turns = .core :: ts → (s.inReset = true ∨ s.busy = false) → step s = .next { s with turns := ts }) ∧
  (s.inReset = true → s.cfg.hufBase % 256 = 0 → ∀ off size v, off < 256 →
    busAccess (.read (s.cfg.hufBase + off) size) s = .refused .accessDuringReset ∧
    busAccess (.write (s.cfg.hufBase + off) size v) s = .refused .accessDuringReset)

/-- R230, R231, R51: when reset is deasserted every field holds its reset value, whatever command was pending, and the
registers read as R230 says. -/
def Obligations.ResetReleases : Prop := ∀ s ts,
  s.inReset = true → s.turns = .resetInput false :: ts →
  ∃ t, step s = .next t ∧
    (t.arg = 0#32 ∧ t.pcmd = 0#32 ∧ t.parg = 0#32 ∧ t.busy = false ∧ t.ovr = false ∧ t.err = .none ∧ t.phase = .load) ∧
    (t.freq = [] ∧ t.total = 0#32 ∧ t.node = [] ∧ t.root = none ∧ t.code = [] ∧ t.res0 = 0#32 ∧ t.res1 = 0#32) ∧
    (t.encActive = false ∧ t.outDone = false ∧ t.ebits = [] ∧ t.outbuf = [] ∧ t.decActive = false ∧ t.decDone = false) ∧
    (t.dhdr = false ∧ t.dp = 0 ∧ t.dhold = 0#8 ∧ t.dholdv = false ∧ t.ddead = false ∧ t.dnode = none ∧ t.decbuf = []) ∧
    (t.status = 0#32 ∧ t.reg .nleaf = 0#32 ∧ t.reg .total = 0#32 ∧ t.reg .nnode = 0#32 ∧ t.reg .encBits = 0#32 ∧
      t.reg .outLen = 0#32 ∧ t.reg .decLen = 0#32 ∧ t.reg .root = 0xFFFFFFFF#32 ∧ t.reg .id = 0x48554631#32) ∧
    (t.inReset = false ∧ t.cfg = s.cfg ∧ t.prog = s.prog ∧ t.turns = ts ∧ t.resp = s.resp ∧ t.draws = s.draws)

/-! ### The register window (10_state.md, 20_memory.md) -/

/-- R23: a CMD write while BUSY = 0 latches the word and ARG and sets BUSY; while BUSY = 1 it is dropped and sets OVR; CMD
reads 0. That it reads 0 while BUSY = 1 too is the model's inference (log 9): R48 puts CMD in neither of its lists. -/
def Obligations.CommandWriteIssuesOrOverruns : Prop := ∀ s w,
  s.cfg.hufBase % 256 = 0 → s.inReset = false →
  (s.busy = false → busAccess (.write (s.cfg.hufBase + 0x04) 4 w) s =
    .next { s with pcmd := w, parg := s.arg, busy := true, resp := .done }) ∧
  (s.busy = true → busAccess (.write (s.cfg.hufBase + 0x04) 4 w) s = .next { s with ovr := true, resp := .done }) ∧
  busAccess (.read (s.cfg.hufBase + 0x04) 4) s = .next { s with resp := .data 0#32 }

/-- R24: a write to ARG takes effect at once, whether BUSY is 0 or 1; reads return the last value written; its reset value is
0 and CLEAR does not change it. -/
def Obligations.ArgumentRegister : Prop := ∀ s v,
  s.cfg.hufBase % 256 = 0 → s.inReset = false →
  busAccess (.write (s.cfg.hufBase + 0x08) 4 v) s = .next { s with arg := v, resp := .done } ∧
  busAccess (.read (s.cfg.hufBase + 0x08) 4) s = .next { s with resp := .data s.arg } ∧
  (State.resetOf s.cfg).arg = 0#32 ∧ (∀ t, exec .clear s = .next t → t.arg = s.arg)

/-- R24, R26, R86, R243: no command reads ARG, so a later write to it never changes the argument of a command already issued;
and no command but FREQ_LOAD and CODE_READ reads PARG. -/
def Obligations.CommandsUseCapturedArgument : Prop := ∀ i s t v,
  exec i s = .next t →
  exec i { s with arg := v } = .next { t with arg := v } ∧
  ((∀ x, i ≠ .freqLoad x) → (∀ k, i ≠ .codeRead k) → exec i { s with parg := v } = .next { t with parg := v })

/-- R61, R207: an access of another width than 32 bits, or at an offset that is no multiple of 4, is answered by a bus error
and changes no state of the block; every other access to the window is admitted. R61 names the widths of 8 and 16 bits; that
every other size is answered alike is the model's inference (log 11). -/
def Obligations.BusErrorChangesNothing : Prop := ∀ s off size v,
  s.cfg.hufBase % 256 = 0 → s.inReset = false → off < 256 →
  ((size ≠ 4 ∨ off % 4 ≠ 0) →
    busAccess (.read (s.cfg.hufBase + off) size) s = .next { s with resp := .busError } ∧
    busAccess (.write (s.cfg.hufBase + off) size v) s = .next { s with resp := .busError }) ∧
  (size = 4 → off % 4 = 0 →
    (∃ t w, busAccess (.read (s.cfg.hufBase + off) size) s = .next t ∧ t.resp = .data w) ∧
    ∃ t, busAccess (.write (s.cfg.hufBase + off) size v) s = .next t ∧ t.resp = .done)

/-- R20, R47, R63: an admitted write anywhere but at CMD and ARG is ignored. -/
def Obligations.IgnoredWrites : Prop := ∀ s off v,
  s.cfg.hufBase % 256 = 0 → s.inReset = false → off < 256 → off % 4 = 0 → off ≠ 0x04 → off ≠ 0x08 →
  busAccess (.write (s.cfg.hufBase + off) 4 v) s = .next { s with resp := .done }

/-- R20, R22, R24, R25, R47, R48: ID, ARG, STATUS and the reserved offsets read their value at all times; each other register
reads its value (R32, R35, R38, R40, R41, R46) while BUSY = 0, and while BUSY = 1 a value drawn freely at each read (log 5),
which this statement leaves open. -/
def Obligations.RegisterReads : Prop := ∀ s,
  s.cfg.hufBase % 256 = 0 → s.inReset = false →
  (∀ p ∈ [(0x00, 0x48554631#32), (0x08, s.arg), (0x0C, s.status)],
    busAccess (.read (s.cfg.hufBase + p.1) 4) s = .next { s with resp := .data p.2 }) ∧
  (∀ off, 0x34 ≤ off → off < 256 → off % 4 = 0 →
    busAccess (.read (s.cfg.hufBase + off) 4) s = .next { s with resp := .data 0#32 }) ∧
  (∀ p ∈ [(0x10, s.res0), (0x14, s.res1), (0x18, BitVec.ofNat 32 s.freq.length), (0x1C, s.total),
      (0x20, BitVec.ofNat 32 s.node.length), (0x24, s.root.elim 0xFFFFFFFF#32 (BitVec.ofNat 32)),
      (0x28, BitVec.ofNat 32 s.ebits.length), (0x2C, BitVec.ofNat 32 s.outbuf.length),
      (0x30, BitVec.ofNat 32 s.decbuf.length)],
    (s.busy = false → busAccess (.read (s.cfg.hufBase + p.1) 4) s = .next { s with resp := .data p.2 }) ∧
    (s.busy = true → ∃ v, busAccess (.read (s.cfg.hufBase + p.1) 4) s =
      .next { s with resp := .data v, draws := s.draws + 1 }))

/-- R25, R200: the layout of STATUS and the codes of PHASE and ERR. -/
def Obligations.StatusLayout : Prop := ∀ s : State,
  s.status.getLsbD 0 = s.busy ∧ s.status.getLsbD 1 = s.ovr ∧
  s.status.extractLsb' 2 2 = (match s.phase with | .load => 0#2 | .tree => 1#2 | .codes => 2#2) ∧
  s.status.getLsbD 4 = s.encActive ∧ s.status.getLsbD 5 = s.outDone ∧
  s.status.getLsbD 6 = s.decActive ∧ s.status.getLsbD 7 = s.decDone ∧
  s.status.extractLsb' 8 8 = (match s.err with
    | .none => 0x00#8 | .illegalCmd => 0x01#8 | .badSequence => 0x02#8 | .indexRange => 0x03#8 | .zeroCount => 0x04#8
    | .dupSymbol => 0x05#8 | .tableFull => 0x06#8 | .freqOverflow => 0x07#8 | .unknownSymbol => 0x08#8
    | .outOverflow => 0x09#8 | .corruptPayload => 0x0A#8 | .decOverflow => 0x0B#8) ∧
  s.status.extractLsb' 16 16 = 0#16

/-- R63: a read changes nothing of the block, and a write at most ARG, the command latch and OVR. -/
def Obligations.BusSideEffects : Prop := ∀ s t,
  (∀ addr size, busAccess (.read addr size) s = .next t → t = { s with resp := t.resp, draws := t.draws }) ∧
  (∀ addr size v, busAccess (.write addr size v) s = .next t →
    t = { s with arg := t.arg, pcmd := t.pcmd, parg := t.parg, busy := t.busy, ovr := t.ovr, resp := t.resp })

/-! ### Errors (60_exceptions.md, 40_control.md R100, R104) -/

/-- R202: while ERR ≠ 0 every command but NOP, CLEAR and ERR_CLEAR is ignored without any state change. -/
def Obligations.BlockedCommandsIgnored : Prop := ∀ i s,
  s.err ≠ .none → i ≠ .nop → i ≠ .clear → i ≠ .errClear → exec i s = .next s

/-- R104, R204: with ERR = 0 a command the state does not admit raises BAD_SEQUENCE and changes nothing else; a command it
admits never raises BAD_SEQUENCE. -/
def Obligations.AdmissionTable : Prop := ∀ i s,
  s.err = .none →
  (¬ Admits i s → exec i s = .next { s with err := .badSequence }) ∧
  (Admits i s → ∀ t, exec i s = .next t → t.err ≠ .badSequence)

/-- R30, R201, R206: once ERR is nonzero no step gives it another code; it becomes 0 only by CLEAR, ERR_CLEAR or reset. -/
def Obligations.FirstErrorSticks : Prop := ∀ s t,
  step s = .next t → s.err ≠ .none →
  t.err = s.err ∨
  (t.err = .none ∧ ((s.busy = true ∧ (decode s.pcmd = .ok .clear ∨ decode s.pcmd = .ok .errClear)) ∨ s.inReset = true))

/-! ### Frequency table (41_frequency_table.md) -/

/-- R110: FREQ_LOAD in phase LOAD: its four operand checks in their order, each changing only ERR, and the append. -/
def Obligations.FreqLoadResult : Prop := ∀ x s,
  s.err = .none → s.phase = .load →
  (s.parg = 0#32 → exec (.freqLoad x) s = .next { s with err := .zeroCount }) ∧
  (s.parg ≠ 0#32 → (∃ e ∈ s.freq, e.sym = x) → exec (.freqLoad x) s = .next { s with err := .dupSymbol }) ∧
  (s.parg ≠ 0#32 → (∀ e ∈ s.freq, e.sym ≠ x) → s.freq.length = s.cfg.maxLeaves →
    exec (.freqLoad x) s = .next { s with err := .tableFull }) ∧
  (s.parg ≠ 0#32 → (∀ e ∈ s.freq, e.sym ≠ x) → s.freq.length ≠ s.cfg.maxLeaves →
    2 ^ 32 - 1 < s.total.toNat + s.parg.toNat → exec (.freqLoad x) s = .next { s with err := .freqOverflow }) ∧
  (s.parg ≠ 0#32 → (∀ e ∈ s.freq, e.sym ≠ x) → s.freq.length ≠ s.cfg.maxLeaves →
    s.total.toNat + s.parg.toNat ≤ 2 ^ 32 - 1 →
    exec (.freqLoad x) s = .next { s with
      freq := s.freq ++ [⟨x, s.parg⟩], total := BitVec.ofNat 32 (s.total.toNat + s.parg.toNat) })

/-- R111: FREQ_READ in any phase. -/
def Obligations.FreqReadResult : Prop := ∀ idx s,
  s.err = .none →
  (∀ e, s.freq[idx]? = some e →
    exec (.freqRead idx) s = .next { s with res0 := BitVec.ofNat 32 e.sym.toNat, res1 := e.cnt }) ∧
  (s.freq.length ≤ idx → exec (.freqRead idx) s = .next { s with err := .indexRange })

/-! ### Tree builder (42_tree_builder.md) -/

/-- R121: PopMin takes out the element with the smallest key (weight, node index), compared lexicographically. -/
def Obligations.PopMinIsLeast : Prop := ∀ q m rest,
  popMin q = some (m, rest) ↔
    m ∈ q ∧ rest = q.erase m ∧ ∀ e ∈ q, e = m ∨ m.w.toNat < e.w.toNat ∨ (m.w = e.w ∧ m.k < e.k)

/-- R35, R36, R120, R122, R124: from a table with the invariants of R33, BUILD makes the tree of the table, whose root weighs
TOTAL, and changes nothing else but PHASE. -/
def Obligations.BuildMakesTree : Prop := ∀ s,
  s.err = .none → s.phase = .load → FreqInv s →
  ∃ nodes root, exec .build s = .next { s with node := nodes, root := root, phase := .tree } ∧
    TreeOf s.freq nodes root ∧ ∀ r, root = some r → weightAt nodes r = s.total.toNat

/-- R120, R121, R123: each internal node BUILD makes merges the two nodes then in the queue with the smallest keys, the
smaller one as its left child. -/
def Obligations.BuildMergesTwoLeast : Prop := ∀ s t,
  s.err = .none → s.phase = .load → exec .build s = .next t →
  ∀ k w l r, t.node[k]? = some (.int w l r) →
    WaitsAt t.node l k ∧ WaitsAt t.node r k ∧ PoppedBefore t.node l r ∧
    ∀ j, WaitsAt t.node j k → j ≠ l → j ≠ r → PoppedBefore t.node r j

/-- R126: BUILD is a function of FREQ alone: two states with the same FREQ get the same tree. -/
def Obligations.BuildIsFunctionOfFreq : Prop := ∀ s t s' t',
  s.err = .none → t.err = .none → s.phase = .load → t.phase = .load → s.freq = t.freq →
  exec .build s = .next s' → exec .build t = .next t' → s'.node = t'.node ∧ s'.root = t'.root

/-- R127: BUILD of the empty table and of a table of one symbol. -/
def Obligations.BuildEdgeCases : Prop := ∀ s,
  s.err = .none → s.phase = .load →
  (s.freq = [] → exec .build s = .next { s with node := [], root := none, phase := .tree }) ∧
  (∀ e, s.freq = [e] → exec .build s = .next { s with node := [.leaf e.sym e.cnt], root := some 0, phase := .tree })

/-- R125: NODE_READ in phase TREE or CODES: a leaf is bit 31 and the symbol, an internal node its left child in [29:15] and its
right child in [14:0]; RES1 is the weight. -/
def Obligations.NodeReadResult : Prop := ∀ idx s,
  s.err = .none → s.phase ≠ .load →
  (∀ x w, s.node[idx]? = some (.leaf x w) →
    exec (.nodeRead idx) s = .next { s with res0 := BitVec.ofNat 32 (2 ^ 31 + x.toNat), res1 := w }) ∧
  (∀ w l r, s.node[idx]? = some (.int w l r) →
    exec (.nodeRead idx) s = .next { s with
      res0 := BitVec.ofNat 32 (l % 2 ^ 15 * 2 ^ 15 + r % 2 ^ 15), res1 := w }) ∧
  (s.node.length ≤ idx → exec (.nodeRead idx) s = .next { s with err := .indexRange })

/-! ### Code table (43_code_table.md) -/

/-- R37, R140, R141, R143: from a tree, GEN makes the code table: the code of each leaf is its path from ROOT, 0 for left and 1
for right, with the length bounds of R143; it changes nothing else but PHASE. -/
def Obligations.GenMakesCodes : Prop := ∀ s,
  s.err = .none → s.phase = .tree → TreeOf s.freq s.node s.root →
  ∃ code, exec .gen s = .next { s with code := code, phase := .codes } ∧
    codesOk s.freq.length s.node s.root code = true

/-- R140, R142: GEN of the empty table, and the one-bit code of a single symbol. -/
def Obligations.GenEdgeCases : Prop := ∀ s,
  s.err = .none → s.phase = .tree →
  (s.freq = [] → exec .gen s = .next { s with code := [], phase := .codes }) ∧
  (∀ e, s.freq = [e] → exec .gen s = .next { s with code := [[false]], phase := .codes })

/-- R146: in phase CODES no code is a prefix of the code of another symbol. -/
def Obligations.CodesPrefixFree : Prop := ∀ s,
  SpecInv s → s.phase = .codes →
  ∀ (i j : Nat) (c d : Bits), i ≠ j → s.code[i]? = some c → s.code[j]? = some d → ¬ c <+: d

/-- R147: in phase CODES the codes are distinct, and the inverse of a loaded symbol's code is the symbol. -/
def Obligations.CodeTableBijection : Prop := ∀ s,
  SpecInv s → s.phase = .codes →
  (∀ (i j : Nat) (c : Bits), s.code[i]? = some c → s.code[j]? = some c → i = j) ∧
  (∀ e ∈ s.freq, inverse s.freq s.code (codeOfSymbol s.freq s.code e.sym) = some e.sym)

/-- R143: in phase CODES every code length is within the bounds of the rule; and with at least two leaves the lengths satisfy
Kraft's equality, which R143 marks as from general knowledge, not in the source. -/
def Obligations.KraftEquality : Prop := ∀ s,
  SpecInv s → s.phase = .codes →
  (s.freq.length = 1 → ∀ c ∈ s.code, c.length = 1) ∧
  (2 ≤ s.freq.length →
    (∀ c ∈ s.code, 1 ≤ c.length ∧ c.length ≤ s.freq.length - 1) ∧
    (s.code.map fun c => (1 / 2 : ℚ) ^ c.length).sum = 1) ∧
  ∀ c ∈ s.code, c.length ≤ s.cfg.codeMaxLen

/-- R144: CODE_FIND in phase CODES: the leaf index and the code length of a symbol of the table, or 0xFFFFFFFF and 0. -/
def Obligations.CodeFindResult : Prop := ∀ s,
  s.err = .none → s.phase = .codes →
  (∀ x, (∀ e ∈ s.freq, e.sym ≠ x) → exec (.codeFind x) s = .next { s with res0 := 0xFFFFFFFF#32, res1 := 0#32 }) ∧
  (∀ (i : Nat) (e : FreqEntry) (c : Bits), (s.freq.map FreqEntry.sym).Nodup → s.freq[i]? = some e → s.code[i]? = some c →
    exec (.codeFind e.sym) s = .next { s with res0 := BitVec.ofNat 32 i, res1 := BitVec.ofNat 32 c.length })

/-- R145, R67: CODE_READ in phase CODES: bit 31 − j of RES0 is bit 32·wi + j of the code, 0 past its end; RES1 is the length;
the leaf index is checked before the word index. -/
def Obligations.CodeReadResult : Prop := ∀ idx s,
  s.err = .none → s.phase = .codes →
  (s.code.length ≤ idx → exec (.codeRead idx) s = .next { s with err := .indexRange }) ∧
  (∀ c, s.code[idx]? = some c → c.length ≤ 32 * s.parg.toNat →
    exec (.codeRead idx) s = .next { s with err := .indexRange }) ∧
  (∀ c, s.code[idx]? = some c → 32 * s.parg.toNat < c.length →
    ∃ v : Word, exec (.codeRead idx) s = .next { s with res0 := v, res1 := BitVec.ofNat 32 c.length } ∧
      ∀ j < 32, v.getLsbD (31 - j) = c.getD (32 * s.parg.toNat + j) false)

/-! ### Encoder (44_encoder.md) -/

/-- R160, R180: ENC_START and DEC_START in phase CODES open their session afresh and leave the other session as it is. -/
def Obligations.SessionStartResult : Prop := ∀ s,
  s.err = .none → s.phase = .codes →
  exec .encStart s = .next { s with ebits := [], outbuf := [], encActive := true, outDone := false } ∧
  exec .decStart s = .next { s with
    dhdr := false, dp := 0, dhold := 0#8, dholdv := false, ddead := false, dnode := s.root, decbuf := [],
    decActive := true, decDone := false }

/-- R161, R162, R163: ENC_SYM in an open session: UNKNOWN_SYMBOL, OUT_OVERFLOW, or the append of the symbol's code. -/
def Obligations.EncSymResult : Prop := ∀ s,
  s.err = .none → s.encActive = true →
  (∀ x, (∀ e ∈ s.freq, e.sym ≠ x) → exec (.encSym x) s = .next { s with err := .unknownSymbol }) ∧
  (∀ (i : Nat) (e : FreqEntry) (c : Bits), (s.freq.map FreqEntry.sym).Nodup → s.freq[i]? = some e → s.code[i]? = some c →
    (s.cfg.outBytes < (s.ebits.length + c.length) / 8 + 2 →
      exec (.encSym e.sym) s = .next { s with err := .outOverflow }) ∧
    ((s.ebits.length + c.length) / 8 + 2 ≤ s.cfg.outBytes →
      exec (.encSym e.sym) s = .next { s with ebits := s.ebits ++ c }))

/-- R164, R165, R166, R168: ENC_FINISH in an open session: no bytes for no bits; else the header P = 8 − (b mod 8), then bytes
that unpack to the code bits and P zeros, (b div 8) + 2 bytes in all; EBITS is kept. -/
def Obligations.EncFinishResult : Prop := ∀ s,
  s.err = .none → s.encActive = true →
  (s.ebits = [] → exec .encFinish s = .next { s with outbuf := [], encActive := false, outDone := true }) ∧
  (s.ebits ≠ [] → ∃ bytes,
    exec .encFinish s = .next { s with
      outbuf := BitVec.ofNat 8 (8 - s.ebits.length % 8) :: bytes, encActive := false, outDone := true } ∧
    unpack bytes = s.ebits ++ List.replicate (8 - s.ebits.length % 8) false ∧
    bytes.length + 1 = s.ebits.length / 8 + 2)

/-- R167: OUT_READ of a finished payload. -/
def Obligations.OutReadResult : Prop := ∀ idx s,
  s.err = .none → s.outDone = true →
  (∀ b, s.outbuf[idx]? = some b →
    exec (.outRead idx) s = .next { s with res0 := BitVec.ofNat 32 b.toNat, res1 := 0#32 }) ∧
  (s.outbuf.length ≤ idx → exec (.outRead idx) s = .next { s with err := .indexRange })

/-- R161, R169: a session that sent symbols without error has accumulated their codes one after another. In a state where two
entries hold one symbol, which R33 rules out, its code is that of the first entry, the model's choice (log 8). -/
def Obligations.EncodedBits : Prop := ∀ (text : List Symbol) s t,
  s.err = .none → s.phase = .codes →
  runAll (.encStart :: text.map .encSym) s = .next t → t.err = .none →
  t.ebits = text.flatMap (codeOfSymbol s.freq s.code) ∧
    t.ebits.length = (text.map fun x => (codeOfSymbol s.freq s.code x).length).sum

/-! ### Decoder (45_decoder.md) -/

/-- R181, R185: DEC_BYTE in an open session: the header byte, refused above 8; the first data byte, which is only held; a later
one, which releases the held byte's 8 bits first. -/
def Obligations.DecByteResult : Prop := ∀ b s,
  s.err = .none → s.decActive = true →
  (s.dhdr = false → 8 < b.toNat → exec (.decByte b) s = .next { s with err := .corruptPayload }) ∧
  (s.dhdr = false → ∀ p : Fin 9, b.toNat = p.val → exec (.decByte b) s = .next { s with dp := p, dhdr := true }) ∧
  (s.dhdr = true → s.dholdv = false → exec (.decByte b) s = .next { s with dhold := b, dholdv := true }) ∧
  (s.dhdr = true → s.dholdv = true → ∀ t, walkBits (unpackByte s.dhold) s = .go t →
    exec (.decByte b) s = .next { t with dhold := b, dholdv := true }) ∧
  (s.dhdr = true → s.dholdv = true → ∀ t, walkBits (unpackByte s.dhold) s = .raised t → exec (.decByte b) s = .next t)

/-- R186, R188: DEC_FINISH in an open session: the empty payload succeeds; a header-only payload with P ≥ 1 is corrupt; else the
first 8 − P bits of the held byte are walked, and a candidate left over is corrupt. -/
def Obligations.DecFinishResult : Prop := ∀ s,
  s.err = .none → s.decActive = true →
  (s.dhdr = false → exec .decFinish s = .next { s with decActive := false, decDone := true }) ∧
  (s.dhdr = true → s.dholdv = false → 0 < s.dp.val → exec .decFinish s = .next { s with err := .corruptPayload }) ∧
  (s.dhdr = true → s.dholdv = false → s.dp = 0 → (s.ddead = true ∨ s.dnode ≠ s.root) →
    exec .decFinish s = .next { s with err := .corruptPayload }) ∧
  (s.dhdr = true → s.dholdv = false → s.dp = 0 → s.ddead = false → s.dnode = s.root →
    exec .decFinish s = .next { s with decActive := false, decDone := true }) ∧
  (s.dhdr = true → s.dholdv = true → ∀ t, walkBits ((unpackByte s.dhold).take (8 - s.dp.val)) s = .go t →
    (t.ddead = false → t.dnode = t.root →
      exec .decFinish s = .next { t with dholdv := false, decActive := false, decDone := true }) ∧
    ((t.ddead = true ∨ t.dnode ≠ t.root) →
      exec .decFinish s = .next { t with dholdv := false, err := .corruptPayload })) ∧
  (s.dhdr = true → s.dholdv = true → ∀ t, walkBits ((unpackByte s.dhold).take (8 - s.dp.val)) s = .raised t →
    exec .decFinish s = .next t)

/-- R187: DEC_READ after a successful DEC_FINISH. -/
def Obligations.DecReadResult : Prop := ∀ idx s,
  s.err = .none → s.decDone = true →
  (∀ x, s.decbuf[idx]? = some x →
    exec (.decRead idx) s = .next { s with res0 := BitVec.ofNat 32 x.toNat, res1 := 0#32 }) ∧
  (s.decbuf.length ≤ idx → exec (.decRead idx) s = .next { s with err := .indexRange })

/-- R182, R184: where a bit completes a leaf's code, a full DECBUF makes the step raise DEC_OVERFLOW and change nothing else,
and one with room takes the symbol. A walk that raises has walked some bits to a state whose DECBUF is full, then met such a
bit: the state is that before the failing bit, with ERR set, and the remaining bits are not walked. And under the invariants,
from an empty candidate, a walk whose bits emit more symbols than there is room for does raise, with DECBUF filled by the first
of them. -/
def Obligations.WalkStopsAtOverflow : Prop :=
  (∀ b s x, Completes b s x →
    (s.decbuf.length = s.cfg.decSyms →
      stepBit b s = .raised { s with err := if s.err = .none then .decOverflow else s.err }) ∧
    (s.decbuf.length ≠ s.cfg.decSyms →
      ∃ t, stepBit b s = .go t ∧ t = { s with dnode := t.dnode, decbuf := s.decbuf ++ [x] })) ∧
  (∀ bits s t, walkBits bits s = .raised t →
    ∃ before b after m x, bits = before ++ b :: after ∧ walkBits before s = .go m ∧ Completes b m x ∧
      m.decbuf.length = m.cfg.decSyms ∧ stepBit b m = .raised t ∧
      t = { m with err := if m.err = .none then .decOverflow else m.err }) ∧
  (∀ bits s,
    SpecInv s → s.phase = .codes → s.dnode = s.root → s.ddead = false →
    s.cfg.decSyms < s.decbuf.length + (scan s.freq s.code [] bits).1.length →
    ∃ t, walkBits bits s = .raised t ∧
      t = { s with
        err := if s.err = .none then .decOverflow else s.err
        dnode := t.dnode
        decbuf := s.decbuf ++ (scan s.freq s.code [] bits).1.take (s.cfg.decSyms - s.decbuf.length) } ∧
      t.decbuf.length = s.cfg.decSyms)

/-- R183, R189: from an empty candidate the walker emits exactly the symbols of the candidate scan, in the same order, and its
candidate is empty at the end exactly when the scan's is. -/
def Obligations.WalkEqualsScan : Prop := ∀ bits s,
  SpecInv s → s.phase = .codes → s.dnode = s.root → s.ddead = false →
  s.decbuf.length + (scan s.freq s.code [] bits).1.length ≤ s.cfg.decSyms →
  ∃ t, walkBits bits s = .go t ∧
    t = { s with ddead := t.ddead, dnode := t.dnode, decbuf := s.decbuf ++ (scan s.freq s.code [] bits).1 } ∧
    ((scan s.freq s.code [] bits).2 = [] ↔ t.ddead = false ∧ t.dnode = t.root)

/-- R189, R188: a session decodes a payload exactly as the source does: the same symbols when the payload is sound, and
CORRUPT_PAYLOAD exactly when the source signals it or the header is above 8. -/
def Obligations.SessionDecodesPayload : Prop := ∀ bytes s,
  SpecInv s → s.phase = .codes → s.err = .none →
  (decodePayload s.freq s.code bytes).1.length ≤ s.cfg.decSyms →
  ∃ t, runAll (decodeSession bytes) s = .next t ∧ t.decbuf = (decodePayload s.freq s.code bytes).1 ∧
    ((decodePayload s.freq s.code bytes).2 = true → t.err = .none ∧ t.decActive = false ∧ t.decDone = true) ∧
    ((decodePayload s.freq s.code bytes).2 = false → t.err = .corruptPayload ∧ t.decActive = true ∧ t.decDone = false)

/-- R190: for every text whose symbols are all in FREQ and whose payload fits, feeding the payload of its encode session into a
decode session with the same tables yields the text and no error. -/
def Obligations.RoundTrip : Prop := ∀ text s,
  SpecInv s → s.phase = .codes → s.err = .none →
  (∀ x ∈ text, ∃ e ∈ s.freq, e.sym = x) →
  (text.flatMap (codeOfSymbol s.freq s.code)).length / 8 + 2 ≤ s.cfg.outBytes → text.length ≤ s.cfg.decSyms →
  ∃ t u, runAll (encodeSession text) s = .next t ∧ t.err = .none ∧
    runAll (decodeSession t.outbuf) t = .next u ∧ u.err = .none ∧ u.decDone = true ∧ u.decbuf = text

/-! ### Control commands and frames -/

/-- R101, R102, R103: NOP changes nothing; CLEAR leaves the reset state but for ARG and the latch; ERR_CLEAR clears ERR, OVR and
both sessions and keeps the tables and results. All three execute whatever ERR is. -/
def Obligations.ControlCommands : Prop := ∀ s,
  exec .nop s = .next s ∧
  exec .clear s = .next { State.resetOf s.cfg with
    arg := s.arg, pcmd := s.pcmd, parg := s.parg, busy := s.busy,
    inReset := s.inReset, prog := s.prog, turns := s.turns, resp := s.resp, draws := s.draws } ∧
  exec .errClear s = .next { s with
    err := .none, ovr := false, encActive := false, outDone := false, ebits := [], outbuf := [], decActive := false,
    decDone := false, dhdr := false, dp := 0, dhold := 0#8, dholdv := false, ddead := false, dnode := none, decbuf := [] }

/-- R102, R51: no command changes ARG, the latch, BUSY, or anything outside the block. -/
def Obligations.CommandFrame : Prop := ∀ i s t,
  exec i s = .next t →
  t.arg = s.arg ∧ t.pcmd = s.pcmd ∧ t.parg = s.parg ∧ t.busy = s.busy ∧ t.cfg = s.cfg ∧ t.inReset = s.inReset ∧
    t.prog = s.prog ∧ t.turns = s.turns ∧ t.resp = s.resp ∧ t.draws = s.draws

/-- R160, R161, R166, R167, R180, R181, R186, R187: the encoder commands change only the encoder session, ERR and the results;
the decoder commands only the decoder session, ERR and the results. -/
def Obligations.SessionsIndependent : Prop := ∀ i s t,
  exec i s = .next t →
  ((i = .encStart ∨ (∃ x, i = .encSym x) ∨ i = .encFinish ∨ ∃ k, i = .outRead k) →
    t = { s with err := t.err, ebits := t.ebits, outbuf := t.outbuf, encActive := t.encActive, outDone := t.outDone,
                 res0 := t.res0, res1 := t.res1 }) ∧
  ((i = .decStart ∨ (∃ b, i = .decByte b) ∨ i = .decFinish ∨ ∃ k, i = .decRead k) →
    t = { s with err := t.err, decActive := t.decActive, decDone := t.decDone, dhdr := t.dhdr, dp := t.dp,
                 dhold := t.dhold, dholdv := t.dholdv, ddead := t.ddead, dnode := t.dnode, decbuf := t.decbuf,
                 res0 := t.res0, res1 := t.res1 })

/-- R38: only CLEAR, which zeroes them, and a query that raises no error change RES0 and RES1. -/
def Obligations.ResultsOnlyByQueries : Prop := ∀ i s t,
  exec i s = .next t →
  (i = .clear → t.res0 = 0#32 ∧ t.res1 = 0#32) ∧
  (i ≠ .clear → (t.res0 ≠ s.res0 ∨ t.res1 ≠ s.res1) →
    t.err = s.err ∧ ((∃ k, i = .freqRead k) ∨ (∃ k, i = .nodeRead k) ∨ (∃ x, i = .codeFind x) ∨ (∃ k, i = .codeRead k) ∨
      (∃ k, i = .outRead k) ∨ ∃ k, i = .decRead k))

/-- R27, R245: PHASE goes only from LOAD to TREE and from TREE to CODES, and back to LOAD only by CLEAR or reset. -/
def Obligations.PhaseOrder : Prop := ∀ s t,
  step s = .next t →
  t.phase = s.phase ∨ (s.phase = .load ∧ t.phase = .tree) ∨ (s.phase = .tree ∧ t.phase = .codes) ∨
  (t.phase = .load ∧ ((s.busy = true ∧ decode s.pcmd = .ok .clear) ∨ s.inReset = true))

/-- R148: FREQ, NODE, ROOT and CODE persist unchanged in phase CODES until the next CLEAR or reset. -/
def Obligations.TablesPersist : Prop := ∀ s t,
  step s = .next t → s.phase = .codes →
  (t.freq = s.freq ∧ t.node = s.node ∧ t.root = s.root ∧ t.code = s.code ∧ t.phase = .codes) ∨
  (s.busy = true ∧ decode s.pcmd = .ok .clear) ∨ s.inReset = true

/-! ### Invariants of every step -/

/-- R33, R36, R39, R41, R113, R230: the invariants hold after reset, for every parameter value in the ranges of R6 to R8. -/
def Obligations.InvariantsAtReset : Prop := ∀ c : Params,
  c.Wf → SpecInv (State.resetOf c) ∧ PayloadInv (State.resetOf c) ∧ RootInv (State.resetOf c)

/-- R33, R113: every step keeps positive counts, distinct symbols and TOTAL as their sum. -/
def Obligations.FreqInvariantKept : Prop := ∀ s t, FreqInv s → step s = .next t → FreqInv t

/-- R28, R29, R41, R104: every step keeps the session flags exclusive and in phase CODES, and OUTBUF empty without OUT_DONE. -/
def Obligations.SessionInvariantKept : Prop := ∀ s t, SessionInv s → step s = .next t → SessionInv t

/-- R31, R34, R39, R41, R46, R163: every step keeps each memory within its capacity. -/
def Obligations.MemoryCapacityKept : Prop := ∀ s t,
  s.cfg.Wf → Memory.wf s → step s = .next t → Memory.wf t ∧ t.cfg = s.cfg

/-- R28, R29, R33 to R37, R39, R41, R43 to R46: every step keeps the invariants of `SpecInv`, and with them that EBITS is a
concatenation of codes and OUTBUF its payload (`PayloadInv`) and that the root weighs TOTAL (`RootInv`). -/
def Obligations.InvariantsKept : Prop := ∀ s t,
  SpecInv s → step s = .next t → SpecInv t ∧ (PayloadInv s → PayloadInv t) ∧ (RootInv s → RootInv t)

/-- R246: under the invariants every command completes, whatever its operands. -/
def Obligations.EveryCommandCompletes : Prop := ∀ i s, SpecInv s → ∃ t, exec i s = .next t

/-- R230, R246: under the invariants no step faults; the only refusal is a host access while reset is asserted; and a busy Core
completes its command when it moves, by name or by default (log 2). -/
def Obligations.StepsNeverFault : Prop := ∀ s,
  SpecInv s →
  (∀ f, step s ≠ .fault f) ∧ (∀ r, step s = .refused r → r = .accessDuringReset ∧ s.inReset = true) ∧
  (s.busy = true → s.inReset = false → (s.turns = [] ∨ ∃ ts, s.turns = .core :: ts) → ∃ t, step s = .next t ∧ t.busy = false)
end

