-- ==== Sys2Proof/Laws/State.lean ====
section
/-! SUPPORT. What each named update of the state leaves in each field, one lemma a field, all true by computation: no later
proof unfolds a record update. The fields an update does not write read as before. -/

namespace Sys2Proof.Machine

variable (s : State)

/-! `State.raise` -/
@[simp] theorem State.raise_arg (e : ErrCode) : (s.raise e).arg = s.arg := rfl
@[simp] theorem State.raise_pcmd (e : ErrCode) : (s.raise e).pcmd = s.pcmd := rfl
@[simp] theorem State.raise_parg (e : ErrCode) : (s.raise e).parg = s.parg := rfl
@[simp] theorem State.raise_busy (e : ErrCode) : (s.raise e).busy = s.busy := rfl
@[simp] theorem State.raise_ovr (e : ErrCode) : (s.raise e).ovr = s.ovr := rfl
@[simp] theorem State.raise_err (e : ErrCode) : (s.raise e).err = if s.err = .none then e else s.err := rfl
@[simp] theorem State.raise_phase (e : ErrCode) : (s.raise e).phase = s.phase := rfl
@[simp] theorem State.raise_freq (e : ErrCode) : (s.raise e).freq = s.freq := rfl
@[simp] theorem State.raise_total (e : ErrCode) : (s.raise e).total = s.total := rfl
@[simp] theorem State.raise_node (e : ErrCode) : (s.raise e).node = s.node := rfl
@[simp] theorem State.raise_root (e : ErrCode) : (s.raise e).root = s.root := rfl
@[simp] theorem State.raise_code (e : ErrCode) : (s.raise e).code = s.code := rfl
@[simp] theorem State.raise_res0 (e : ErrCode) : (s.raise e).res0 = s.res0 := rfl
@[simp] theorem State.raise_res1 (e : ErrCode) : (s.raise e).res1 = s.res1 := rfl
@[simp] theorem State.raise_encActive (e : ErrCode) : (s.raise e).encActive = s.encActive := rfl
@[simp] theorem State.raise_outDone (e : ErrCode) : (s.raise e).outDone = s.outDone := rfl
@[simp] theorem State.raise_ebits (e : ErrCode) : (s.raise e).ebits = s.ebits := rfl
@[simp] theorem State.raise_outbuf (e : ErrCode) : (s.raise e).outbuf = s.outbuf := rfl
@[simp] theorem State.raise_decActive (e : ErrCode) : (s.raise e).decActive = s.decActive := rfl
@[simp] theorem State.raise_decDone (e : ErrCode) : (s.raise e).decDone = s.decDone := rfl
@[simp] theorem State.raise_dhdr (e : ErrCode) : (s.raise e).dhdr = s.dhdr := rfl
@[simp] theorem State.raise_dp (e : ErrCode) : (s.raise e).dp = s.dp := rfl
@[simp] theorem State.raise_dhold (e : ErrCode) : (s.raise e).dhold = s.dhold := rfl
@[simp] theorem State.raise_dholdv (e : ErrCode) : (s.raise e).dholdv = s.dholdv := rfl
@[simp] theorem State.raise_ddead (e : ErrCode) : (s.raise e).ddead = s.ddead := rfl
@[simp] theorem State.raise_dnode (e : ErrCode) : (s.raise e).dnode = s.dnode := rfl
@[simp] theorem State.raise_decbuf (e : ErrCode) : (s.raise e).decbuf = s.decbuf := rfl
@[simp] theorem State.raise_cfg (e : ErrCode) : (s.raise e).cfg = s.cfg := rfl
@[simp] theorem State.raise_inReset (e : ErrCode) : (s.raise e).inReset = s.inReset := rfl
@[simp] theorem State.raise_prog (e : ErrCode) : (s.raise e).prog = s.prog := rfl
@[simp] theorem State.raise_turns (e : ErrCode) : (s.raise e).turns = s.turns := rfl
@[simp] theorem State.raise_resp (e : ErrCode) : (s.raise e).resp = s.resp := rfl
@[simp] theorem State.raise_draws (e : ErrCode) : (s.raise e).draws = s.draws := rfl

/-! `State.abortSessions` -/
@[simp] theorem State.abortSessions_arg : (s.abortSessions).arg = s.arg := rfl
@[simp] theorem State.abortSessions_pcmd : (s.abortSessions).pcmd = s.pcmd := rfl
@[simp] theorem State.abortSessions_parg : (s.abortSessions).parg = s.parg := rfl
@[simp] theorem State.abortSessions_busy : (s.abortSessions).busy = s.busy := rfl
@[simp] theorem State.abortSessions_ovr : (s.abortSessions).ovr = false := rfl
@[simp] theorem State.abortSessions_err : (s.abortSessions).err = .none := rfl
@[simp] theorem State.abortSessions_phase : (s.abortSessions).phase = s.phase := rfl
@[simp] theorem State.abortSessions_freq : (s.abortSessions).freq = s.freq := rfl
@[simp] theorem State.abortSessions_total : (s.abortSessions).total = s.total := rfl
@[simp] theorem State.abortSessions_node : (s.abortSessions).node = s.node := rfl
@[simp] theorem State.abortSessions_root : (s.abortSessions).root = s.root := rfl
@[simp] theorem State.abortSessions_code : (s.abortSessions).code = s.code := rfl
@[simp] theorem State.abortSessions_res0 : (s.abortSessions).res0 = s.res0 := rfl
@[simp] theorem State.abortSessions_res1 : (s.abortSessions).res1 = s.res1 := rfl
@[simp] theorem State.abortSessions_encActive : (s.abortSessions).encActive = false := rfl
@[simp] theorem State.abortSessions_outDone : (s.abortSessions).outDone = false := rfl
@[simp] theorem State.abortSessions_ebits : (s.abortSessions).ebits = [] := rfl
@[simp] theorem State.abortSessions_outbuf : (s.abortSessions).outbuf = [] := rfl
@[simp] theorem State.abortSessions_decActive : (s.abortSessions).decActive = false := rfl
@[simp] theorem State.abortSessions_decDone : (s.abortSessions).decDone = false := rfl
@[simp] theorem State.abortSessions_dhdr : (s.abortSessions).dhdr = false := rfl
@[simp] theorem State.abortSessions_dp : (s.abortSessions).dp = 0 := rfl
@[simp] theorem State.abortSessions_dhold : (s.abortSessions).dhold = 0#8 := rfl
@[simp] theorem State.abortSessions_dholdv : (s.abortSessions).dholdv = false := rfl
@[simp] theorem State.abortSessions_ddead : (s.abortSessions).ddead = false := rfl
@[simp] theorem State.abortSessions_dnode : (s.abortSessions).dnode = none := rfl
@[simp] theorem State.abortSessions_decbuf : (s.abortSessions).decbuf = [] := rfl
@[simp] theorem State.abortSessions_cfg : (s.abortSessions).cfg = s.cfg := rfl
@[simp] theorem State.abortSessions_inReset : (s.abortSessions).inReset = s.inReset := rfl
@[simp] theorem State.abortSessions_prog : (s.abortSessions).prog = s.prog := rfl
@[simp] theorem State.abortSessions_turns : (s.abortSessions).turns = s.turns := rfl
@[simp] theorem State.abortSessions_resp : (s.abortSessions).resp = s.resp := rfl
@[simp] theorem State.abortSessions_draws : (s.abortSessions).draws = s.draws := rfl

/-! `State.clearAll` -/
@[simp] theorem State.clearAll_arg : (s.clearAll).arg = s.arg := rfl
@[simp] theorem State.clearAll_pcmd : (s.clearAll).pcmd = s.pcmd := rfl
@[simp] theorem State.clearAll_parg : (s.clearAll).parg = s.parg := rfl
@[simp] theorem State.clearAll_busy : (s.clearAll).busy = s.busy := rfl
@[simp] theorem State.clearAll_ovr : (s.clearAll).ovr = false := rfl
@[simp] theorem State.clearAll_err : (s.clearAll).err = .none := rfl
@[simp] theorem State.clearAll_phase : (s.clearAll).phase = .load := rfl
@[simp] theorem State.clearAll_freq : (s.clearAll).freq = [] := rfl
@[simp] theorem State.clearAll_total : (s.clearAll).total = 0#32 := rfl
@[simp] theorem State.clearAll_node : (s.clearAll).node = [] := rfl
@[simp] theorem State.clearAll_root : (s.clearAll).root = none := rfl
@[simp] theorem State.clearAll_code : (s.clearAll).code = [] := rfl
@[simp] theorem State.clearAll_res0 : (s.clearAll).res0 = 0#32 := rfl
@[simp] theorem State.clearAll_res1 : (s.clearAll).res1 = 0#32 := rfl
@[simp] theorem State.clearAll_encActive : (s.clearAll).encActive = false := rfl
@[simp] theorem State.clearAll_outDone : (s.clearAll).outDone = false := rfl
@[simp] theorem State.clearAll_ebits : (s.clearAll).ebits = [] := rfl
@[simp] theorem State.clearAll_outbuf : (s.clearAll).outbuf = [] := rfl
@[simp] theorem State.clearAll_decActive : (s.clearAll).decActive = false := rfl
@[simp] theorem State.clearAll_decDone : (s.clearAll).decDone = false := rfl
@[simp] theorem State.clearAll_dhdr : (s.clearAll).dhdr = false := rfl
@[simp] theorem State.clearAll_dp : (s.clearAll).dp = 0 := rfl
@[simp] theorem State.clearAll_dhold : (s.clearAll).dhold = 0#8 := rfl
@[simp] theorem State.clearAll_dholdv : (s.clearAll).dholdv = false := rfl
@[simp] theorem State.clearAll_ddead : (s.clearAll).ddead = false := rfl
@[simp] theorem State.clearAll_dnode : (s.clearAll).dnode = none := rfl
@[simp] theorem State.clearAll_decbuf : (s.clearAll).decbuf = [] := rfl
@[simp] theorem State.clearAll_cfg : (s.clearAll).cfg = s.cfg := rfl
@[simp] theorem State.clearAll_inReset : (s.clearAll).inReset = s.inReset := rfl
@[simp] theorem State.clearAll_prog : (s.clearAll).prog = s.prog := rfl
@[simp] theorem State.clearAll_turns : (s.clearAll).turns = s.turns := rfl
@[simp] theorem State.clearAll_resp : (s.clearAll).resp = s.resp := rfl
@[simp] theorem State.clearAll_draws : (s.clearAll).draws = s.draws := rfl

/-! `State.setResults` -/
@[simp] theorem State.setResults_arg (r0 r1 : Word) : (s.setResults r0 r1).arg = s.arg := rfl
@[simp] theorem State.setResults_pcmd (r0 r1 : Word) : (s.setResults r0 r1).pcmd = s.pcmd := rfl
@[simp] theorem State.setResults_parg (r0 r1 : Word) : (s.setResults r0 r1).parg = s.parg := rfl
@[simp] theorem State.setResults_busy (r0 r1 : Word) : (s.setResults r0 r1).busy = s.busy := rfl
@[simp] theorem State.setResults_ovr (r0 r1 : Word) : (s.setResults r0 r1).ovr = s.ovr := rfl
@[simp] theorem State.setResults_err (r0 r1 : Word) : (s.setResults r0 r1).err = s.err := rfl
@[simp] theorem State.setResults_phase (r0 r1 : Word) : (s.setResults r0 r1).phase = s.phase := rfl
@[simp] theorem State.setResults_freq (r0 r1 : Word) : (s.setResults r0 r1).freq = s.freq := rfl
@[simp] theorem State.setResults_total (r0 r1 : Word) : (s.setResults r0 r1).total = s.total := rfl
@[simp] theorem State.setResults_node (r0 r1 : Word) : (s.setResults r0 r1).node = s.node := rfl
@[simp] theorem State.setResults_root (r0 r1 : Word) : (s.setResults r0 r1).root = s.root := rfl
@[simp] theorem State.setResults_code (r0 r1 : Word) : (s.setResults r0 r1).code = s.code := rfl
@[simp] theorem State.setResults_res0 (r0 r1 : Word) : (s.setResults r0 r1).res0 = r0 := rfl
@[simp] theorem State.setResults_res1 (r0 r1 : Word) : (s.setResults r0 r1).res1 = r1 := rfl
@[simp] theorem State.setResults_encActive (r0 r1 : Word) : (s.setResults r0 r1).encActive = s.encActive := rfl
@[simp] theorem State.setResults_outDone (r0 r1 : Word) : (s.setResults r0 r1).outDone = s.outDone := rfl
@[simp] theorem State.setResults_ebits (r0 r1 : Word) : (s.setResults r0 r1).ebits = s.ebits := rfl
@[simp] theorem State.setResults_outbuf (r0 r1 : Word) : (s.setResults r0 r1).outbuf = s.outbuf := rfl
@[simp] theorem State.setResults_decActive (r0 r1 : Word) : (s.setResults r0 r1).decActive = s.decActive := rfl
@[simp] theorem State.setResults_decDone (r0 r1 : Word) : (s.setResults r0 r1).decDone = s.decDone := rfl
@[simp] theorem State.setResults_dhdr (r0 r1 : Word) : (s.setResults r0 r1).dhdr = s.dhdr := rfl
@[simp] theorem State.setResults_dp (r0 r1 : Word) : (s.setResults r0 r1).dp = s.dp := rfl
@[simp] theorem State.setResults_dhold (r0 r1 : Word) : (s.setResults r0 r1).dhold = s.dhold := rfl
@[simp] theorem State.setResults_dholdv (r0 r1 : Word) : (s.setResults r0 r1).dholdv = s.dholdv := rfl
@[simp] theorem State.setResults_ddead (r0 r1 : Word) : (s.setResults r0 r1).ddead = s.ddead := rfl
@[simp] theorem State.setResults_dnode (r0 r1 : Word) : (s.setResults r0 r1).dnode = s.dnode := rfl
@[simp] theorem State.setResults_decbuf (r0 r1 : Word) : (s.setResults r0 r1).decbuf = s.decbuf := rfl
@[simp] theorem State.setResults_cfg (r0 r1 : Word) : (s.setResults r0 r1).cfg = s.cfg := rfl
@[simp] theorem State.setResults_inReset (r0 r1 : Word) : (s.setResults r0 r1).inReset = s.inReset := rfl
@[simp] theorem State.setResults_prog (r0 r1 : Word) : (s.setResults r0 r1).prog = s.prog := rfl
@[simp] theorem State.setResults_turns (r0 r1 : Word) : (s.setResults r0 r1).turns = s.turns := rfl
@[simp] theorem State.setResults_resp (r0 r1 : Word) : (s.setResults r0 r1).resp = s.resp := rfl
@[simp] theorem State.setResults_draws (r0 r1 : Word) : (s.setResults r0 r1).draws = s.draws := rfl

/-! `State.appendFreq` -/
@[simp] theorem State.appendFreq_arg (x : Symbol) (c : Word) : (s.appendFreq x c).arg = s.arg := rfl
@[simp] theorem State.appendFreq_pcmd (x : Symbol) (c : Word) : (s.appendFreq x c).pcmd = s.pcmd := rfl
@[simp] theorem State.appendFreq_parg (x : Symbol) (c : Word) : (s.appendFreq x c).parg = s.parg := rfl
@[simp] theorem State.appendFreq_busy (x : Symbol) (c : Word) : (s.appendFreq x c).busy = s.busy := rfl
@[simp] theorem State.appendFreq_ovr (x : Symbol) (c : Word) : (s.appendFreq x c).ovr = s.ovr := rfl
@[simp] theorem State.appendFreq_err (x : Symbol) (c : Word) : (s.appendFreq x c).err = s.err := rfl
@[simp] theorem State.appendFreq_phase (x : Symbol) (c : Word) : (s.appendFreq x c).phase = s.phase := rfl
@[simp] theorem State.appendFreq_freq (x : Symbol) (c : Word) : (s.appendFreq x c).freq = s.freq ++ [⟨x, c⟩] := rfl
@[simp] theorem State.appendFreq_total (x : Symbol) (c : Word) : (s.appendFreq x c).total = s.total + c := rfl
@[simp] theorem State.appendFreq_node (x : Symbol) (c : Word) : (s.appendFreq x c).node = s.node := rfl
@[simp] theorem State.appendFreq_root (x : Symbol) (c : Word) : (s.appendFreq x c).root = s.root := rfl
@[simp] theorem State.appendFreq_code (x : Symbol) (c : Word) : (s.appendFreq x c).code = s.code := rfl
@[simp] theorem State.appendFreq_res0 (x : Symbol) (c : Word) : (s.appendFreq x c).res0 = s.res0 := rfl
@[simp] theorem State.appendFreq_res1 (x : Symbol) (c : Word) : (s.appendFreq x c).res1 = s.res1 := rfl
@[simp] theorem State.appendFreq_encActive (x : Symbol) (c : Word) : (s.appendFreq x c).encActive = s.encActive := rfl
@[simp] theorem State.appendFreq_outDone (x : Symbol) (c : Word) : (s.appendFreq x c).outDone = s.outDone := rfl
@[simp] theorem State.appendFreq_ebits (x : Symbol) (c : Word) : (s.appendFreq x c).ebits = s.ebits := rfl
@[simp] theorem State.appendFreq_outbuf (x : Symbol) (c : Word) : (s.appendFreq x c).outbuf = s.outbuf := rfl
@[simp] theorem State.appendFreq_decActive (x : Symbol) (c : Word) : (s.appendFreq x c).decActive = s.decActive := rfl
@[simp] theorem State.appendFreq_decDone (x : Symbol) (c : Word) : (s.appendFreq x c).decDone = s.decDone := rfl
@[simp] theorem State.appendFreq_dhdr (x : Symbol) (c : Word) : (s.appendFreq x c).dhdr = s.dhdr := rfl
@[simp] theorem State.appendFreq_dp (x : Symbol) (c : Word) : (s.appendFreq x c).dp = s.dp := rfl
@[simp] theorem State.appendFreq_dhold (x : Symbol) (c : Word) : (s.appendFreq x c).dhold = s.dhold := rfl
@[simp] theorem State.appendFreq_dholdv (x : Symbol) (c : Word) : (s.appendFreq x c).dholdv = s.dholdv := rfl
@[simp] theorem State.appendFreq_ddead (x : Symbol) (c : Word) : (s.appendFreq x c).ddead = s.ddead := rfl
@[simp] theorem State.appendFreq_dnode (x : Symbol) (c : Word) : (s.appendFreq x c).dnode = s.dnode := rfl
@[simp] theorem State.appendFreq_decbuf (x : Symbol) (c : Word) : (s.appendFreq x c).decbuf = s.decbuf := rfl
@[simp] theorem State.appendFreq_cfg (x : Symbol) (c : Word) : (s.appendFreq x c).cfg = s.cfg := rfl
@[simp] theorem State.appendFreq_inReset (x : Symbol) (c : Word) : (s.appendFreq x c).inReset = s.inReset := rfl
@[simp] theorem State.appendFreq_prog (x : Symbol) (c : Word) : (s.appendFreq x c).prog = s.prog := rfl
@[simp] theorem State.appendFreq_turns (x : Symbol) (c : Word) : (s.appendFreq x c).turns = s.turns := rfl
@[simp] theorem State.appendFreq_resp (x : Symbol) (c : Word) : (s.appendFreq x c).resp = s.resp := rfl
@[simp] theorem State.appendFreq_draws (x : Symbol) (c : Word) : (s.appendFreq x c).draws = s.draws := rfl

/-! `State.setTree` -/
@[simp] theorem State.setTree_arg (ns : List Node) (r : Option Nat) : (s.setTree ns r).arg = s.arg := rfl
@[simp] theorem State.setTree_pcmd (ns : List Node) (r : Option Nat) : (s.setTree ns r).pcmd = s.pcmd := rfl
@[simp] theorem State.setTree_parg (ns : List Node) (r : Option Nat) : (s.setTree ns r).parg = s.parg := rfl
@[simp] theorem State.setTree_busy (ns : List Node) (r : Option Nat) : (s.setTree ns r).busy = s.busy := rfl
@[simp] theorem State.setTree_ovr (ns : List Node) (r : Option Nat) : (s.setTree ns r).ovr = s.ovr := rfl
@[simp] theorem State.setTree_err (ns : List Node) (r : Option Nat) : (s.setTree ns r).err = s.err := rfl
@[simp] theorem State.setTree_phase (ns : List Node) (r : Option Nat) : (s.setTree ns r).phase = .tree := rfl
@[simp] theorem State.setTree_freq (ns : List Node) (r : Option Nat) : (s.setTree ns r).freq = s.freq := rfl
@[simp] theorem State.setTree_total (ns : List Node) (r : Option Nat) : (s.setTree ns r).total = s.total := rfl
@[simp] theorem State.setTree_node (ns : List Node) (r : Option Nat) : (s.setTree ns r).node = ns := rfl
@[simp] theorem State.setTree_root (ns : List Node) (r : Option Nat) : (s.setTree ns r).root = r := rfl
@[simp] theorem State.setTree_code (ns : List Node) (r : Option Nat) : (s.setTree ns r).code = s.code := rfl
@[simp] theorem State.setTree_res0 (ns : List Node) (r : Option Nat) : (s.setTree ns r).res0 = s.res0 := rfl
@[simp] theorem State.setTree_res1 (ns : List Node) (r : Option Nat) : (s.setTree ns r).res1 = s.res1 := rfl
@[simp] theorem State.setTree_encActive (ns : List Node) (r : Option Nat) : (s.setTree ns r).encActive = s.encActive := rfl
@[simp] theorem State.setTree_outDone (ns : List Node) (r : Option Nat) : (s.setTree ns r).outDone = s.outDone := rfl
@[simp] theorem State.setTree_ebits (ns : List Node) (r : Option Nat) : (s.setTree ns r).ebits = s.ebits := rfl
@[simp] theorem State.setTree_outbuf (ns : List Node) (r : Option Nat) : (s.setTree ns r).outbuf = s.outbuf := rfl
@[simp] theorem State.setTree_decActive (ns : List Node) (r : Option Nat) : (s.setTree ns r).decActive = s.decActive := rfl
@[simp] theorem State.setTree_decDone (ns : List Node) (r : Option Nat) : (s.setTree ns r).decDone = s.decDone := rfl
@[simp] theorem State.setTree_dhdr (ns : List Node) (r : Option Nat) : (s.setTree ns r).dhdr = s.dhdr := rfl
@[simp] theorem State.setTree_dp (ns : List Node) (r : Option Nat) : (s.setTree ns r).dp = s.dp := rfl
@[simp] theorem State.setTree_dhold (ns : List Node) (r : Option Nat) : (s.setTree ns r).dhold = s.dhold := rfl
@[simp] theorem State.setTree_dholdv (ns : List Node) (r : Option Nat) : (s.setTree ns r).dholdv = s.dholdv := rfl
@[simp] theorem State.setTree_ddead (ns : List Node) (r : Option Nat) : (s.setTree ns r).ddead = s.ddead := rfl
@[simp] theorem State.setTree_dnode (ns : List Node) (r : Option Nat) : (s.setTree ns r).dnode = s.dnode := rfl
@[simp] theorem State.setTree_decbuf (ns : List Node) (r : Option Nat) : (s.setTree ns r).decbuf = s.decbuf := rfl
@[simp] theorem State.setTree_cfg (ns : List Node) (r : Option Nat) : (s.setTree ns r).cfg = s.cfg := rfl
@[simp] theorem State.setTree_inReset (ns : List Node) (r : Option Nat) : (s.setTree ns r).inReset = s.inReset := rfl
@[simp] theorem State.setTree_prog (ns : List Node) (r : Option Nat) : (s.setTree ns r).prog = s.prog := rfl
@[simp] theorem State.setTree_turns (ns : List Node) (r : Option Nat) : (s.setTree ns r).turns = s.turns := rfl
@[simp] theorem State.setTree_resp (ns : List Node) (r : Option Nat) : (s.setTree ns r).resp = s.resp := rfl
@[simp] theorem State.setTree_draws (ns : List Node) (r : Option Nat) : (s.setTree ns r).draws = s.draws := rfl

/-! `State.setCodes` -/
@[simp] theorem State.setCodes_arg (cs : List Bits) : (s.setCodes cs).arg = s.arg := rfl
@[simp] theorem State.setCodes_pcmd (cs : List Bits) : (s.setCodes cs).pcmd = s.pcmd := rfl
@[simp] theorem State.setCodes_parg (cs : List Bits) : (s.setCodes cs).parg = s.parg := rfl
@[simp] theorem State.setCodes_busy (cs : List Bits) : (s.setCodes cs).busy = s.busy := rfl
@[simp] theorem State.setCodes_ovr (cs : List Bits) : (s.setCodes cs).ovr = s.ovr := rfl
@[simp] theorem State.setCodes_err (cs : List Bits) : (s.setCodes cs).err = s.err := rfl
@[simp] theorem State.setCodes_phase (cs : List Bits) : (s.setCodes cs).phase = .codes := rfl
@[simp] theorem State.setCodes_freq (cs : List Bits) : (s.setCodes cs).freq = s.freq := rfl
@[simp] theorem State.setCodes_total (cs : List Bits) : (s.setCodes cs).total = s.total := rfl
@[simp] theorem State.setCodes_node (cs : List Bits) : (s.setCodes cs).node = s.node := rfl
@[simp] theorem State.setCodes_root (cs : List Bits) : (s.setCodes cs).root = s.root := rfl
@[simp] theorem State.setCodes_code (cs : List Bits) : (s.setCodes cs).code = cs := rfl
@[simp] theorem State.setCodes_res0 (cs : List Bits) : (s.setCodes cs).res0 = s.res0 := rfl
@[simp] theorem State.setCodes_res1 (cs : List Bits) : (s.setCodes cs).res1 = s.res1 := rfl
@[simp] theorem State.setCodes_encActive (cs : List Bits) : (s.setCodes cs).encActive = s.encActive := rfl
@[simp] theorem State.setCodes_outDone (cs : List Bits) : (s.setCodes cs).outDone = s.outDone := rfl
@[simp] theorem State.setCodes_ebits (cs : List Bits) : (s.setCodes cs).ebits = s.ebits := rfl
@[simp] theorem State.setCodes_outbuf (cs : List Bits) : (s.setCodes cs).outbuf = s.outbuf := rfl
@[simp] theorem State.setCodes_decActive (cs : List Bits) : (s.setCodes cs).decActive = s.decActive := rfl
@[simp] theorem State.setCodes_decDone (cs : List Bits) : (s.setCodes cs).decDone = s.decDone := rfl
@[simp] theorem State.setCodes_dhdr (cs : List Bits) : (s.setCodes cs).dhdr = s.dhdr := rfl
@[simp] theorem State.setCodes_dp (cs : List Bits) : (s.setCodes cs).dp = s.dp := rfl
@[simp] theorem State.setCodes_dhold (cs : List Bits) : (s.setCodes cs).dhold = s.dhold := rfl
@[simp] theorem State.setCodes_dholdv (cs : List Bits) : (s.setCodes cs).dholdv = s.dholdv := rfl
@[simp] theorem State.setCodes_ddead (cs : List Bits) : (s.setCodes cs).ddead = s.ddead := rfl
@[simp] theorem State.setCodes_dnode (cs : List Bits) : (s.setCodes cs).dnode = s.dnode := rfl
@[simp] theorem State.setCodes_decbuf (cs : List Bits) : (s.setCodes cs).decbuf = s.decbuf := rfl
@[simp] theorem State.setCodes_cfg (cs : List Bits) : (s.setCodes cs).cfg = s.cfg := rfl
@[simp] theorem State.setCodes_inReset (cs : List Bits) : (s.setCodes cs).inReset = s.inReset := rfl
@[simp] theorem State.setCodes_prog (cs : List Bits) : (s.setCodes cs).prog = s.prog := rfl
@[simp] theorem State.setCodes_turns (cs : List Bits) : (s.setCodes cs).turns = s.turns := rfl
@[simp] theorem State.setCodes_resp (cs : List Bits) : (s.setCodes cs).resp = s.resp := rfl
@[simp] theorem State.setCodes_draws (cs : List Bits) : (s.setCodes cs).draws = s.draws := rfl

/-! `State.openEnc` -/
@[simp] theorem State.openEnc_arg : (s.openEnc).arg = s.arg := rfl
@[simp] theorem State.openEnc_pcmd : (s.openEnc).pcmd = s.pcmd := rfl
@[simp] theorem State.openEnc_parg : (s.openEnc).parg = s.parg := rfl
@[simp] theorem State.openEnc_busy : (s.openEnc).busy = s.busy := rfl
@[simp] theorem State.openEnc_ovr : (s.openEnc).ovr = s.ovr := rfl
@[simp] theorem State.openEnc_err : (s.openEnc).err = s.err := rfl
@[simp] theorem State.openEnc_phase : (s.openEnc).phase = s.phase := rfl
@[simp] theorem State.openEnc_freq : (s.openEnc).freq = s.freq := rfl
@[simp] theorem State.openEnc_total : (s.openEnc).total = s.total := rfl
@[simp] theorem State.openEnc_node : (s.openEnc).node = s.node := rfl
@[simp] theorem State.openEnc_root : (s.openEnc).root = s.root := rfl
@[simp] theorem State.openEnc_code : (s.openEnc).code = s.code := rfl
@[simp] theorem State.openEnc_res0 : (s.openEnc).res0 = s.res0 := rfl
@[simp] theorem State.openEnc_res1 : (s.openEnc).res1 = s.res1 := rfl
@[simp] theorem State.openEnc_encActive : (s.openEnc).encActive = true := rfl
@[simp] theorem State.openEnc_outDone : (s.openEnc).outDone = false := rfl
@[simp] theorem State.openEnc_ebits : (s.openEnc).ebits = [] := rfl
@[simp] theorem State.openEnc_outbuf : (s.openEnc).outbuf = [] := rfl
@[simp] theorem State.openEnc_decActive : (s.openEnc).decActive = s.decActive := rfl
@[simp] theorem State.openEnc_decDone : (s.openEnc).decDone = s.decDone := rfl
@[simp] theorem State.openEnc_dhdr : (s.openEnc).dhdr = s.dhdr := rfl
@[simp] theorem State.openEnc_dp : (s.openEnc).dp = s.dp := rfl
@[simp] theorem State.openEnc_dhold : (s.openEnc).dhold = s.dhold := rfl
@[simp] theorem State.openEnc_dholdv : (s.openEnc).dholdv = s.dholdv := rfl
@[simp] theorem State.openEnc_ddead : (s.openEnc).ddead = s.ddead := rfl
@[simp] theorem State.openEnc_dnode : (s.openEnc).dnode = s.dnode := rfl
@[simp] theorem State.openEnc_decbuf : (s.openEnc).decbuf = s.decbuf := rfl
@[simp] theorem State.openEnc_cfg : (s.openEnc).cfg = s.cfg := rfl
@[simp] theorem State.openEnc_inReset : (s.openEnc).inReset = s.inReset := rfl
@[simp] theorem State.openEnc_prog : (s.openEnc).prog = s.prog := rfl
@[simp] theorem State.openEnc_turns : (s.openEnc).turns = s.turns := rfl
@[simp] theorem State.openEnc_resp : (s.openEnc).resp = s.resp := rfl
@[simp] theorem State.openEnc_draws : (s.openEnc).draws = s.draws := rfl

/-! `State.appendBits` -/
@[simp] theorem State.appendBits_arg (c : Bits) : (s.appendBits c).arg = s.arg := rfl
@[simp] theorem State.appendBits_pcmd (c : Bits) : (s.appendBits c).pcmd = s.pcmd := rfl
@[simp] theorem State.appendBits_parg (c : Bits) : (s.appendBits c).parg = s.parg := rfl
@[simp] theorem State.appendBits_busy (c : Bits) : (s.appendBits c).busy = s.busy := rfl
@[simp] theorem State.appendBits_ovr (c : Bits) : (s.appendBits c).ovr = s.ovr := rfl
@[simp] theorem State.appendBits_err (c : Bits) : (s.appendBits c).err = s.err := rfl
@[simp] theorem State.appendBits_phase (c : Bits) : (s.appendBits c).phase = s.phase := rfl
@[simp] theorem State.appendBits_freq (c : Bits) : (s.appendBits c).freq = s.freq := rfl
@[simp] theorem State.appendBits_total (c : Bits) : (s.appendBits c).total = s.total := rfl
@[simp] theorem State.appendBits_node (c : Bits) : (s.appendBits c).node = s.node := rfl
@[simp] theorem State.appendBits_root (c : Bits) : (s.appendBits c).root = s.root := rfl
@[simp] theorem State.appendBits_code (c : Bits) : (s.appendBits c).code = s.code := rfl
@[simp] theorem State.appendBits_res0 (c : Bits) : (s.appendBits c).res0 = s.res0 := rfl
@[simp] theorem State.appendBits_res1 (c : Bits) : (s.appendBits c).res1 = s.res1 := rfl
@[simp] theorem State.appendBits_encActive (c : Bits) : (s.appendBits c).encActive = s.encActive := rfl
@[simp] theorem State.appendBits_outDone (c : Bits) : (s.appendBits c).outDone = s.outDone := rfl
@[simp] theorem State.appendBits_ebits (c : Bits) : (s.appendBits c).ebits = s.ebits ++ c := rfl
@[simp] theorem State.appendBits_outbuf (c : Bits) : (s.appendBits c).outbuf = s.outbuf := rfl
@[simp] theorem State.appendBits_decActive (c : Bits) : (s.appendBits c).decActive = s.decActive := rfl
@[simp] theorem State.appendBits_decDone (c : Bits) : (s.appendBits c).decDone = s.decDone := rfl
@[simp] theorem State.appendBits_dhdr (c : Bits) : (s.appendBits c).dhdr = s.dhdr := rfl
@[simp] theorem State.appendBits_dp (c : Bits) : (s.appendBits c).dp = s.dp := rfl
@[simp] theorem State.appendBits_dhold (c : Bits) : (s.appendBits c).dhold = s.dhold := rfl
@[simp] theorem State.appendBits_dholdv (c : Bits) : (s.appendBits c).dholdv = s.dholdv := rfl
@[simp] theorem State.appendBits_ddead (c : Bits) : (s.appendBits c).ddead = s.ddead := rfl
@[simp] theorem State.appendBits_dnode (c : Bits) : (s.appendBits c).dnode = s.dnode := rfl
@[simp] theorem State.appendBits_decbuf (c : Bits) : (s.appendBits c).decbuf = s.decbuf := rfl
@[simp] theorem State.appendBits_cfg (c : Bits) : (s.appendBits c).cfg = s.cfg := rfl
@[simp] theorem State.appendBits_inReset (c : Bits) : (s.appendBits c).inReset = s.inReset := rfl
@[simp] theorem State.appendBits_prog (c : Bits) : (s.appendBits c).prog = s.prog := rfl
@[simp] theorem State.appendBits_turns (c : Bits) : (s.appendBits c).turns = s.turns := rfl
@[simp] theorem State.appendBits_resp (c : Bits) : (s.appendBits c).resp = s.resp := rfl
@[simp] theorem State.appendBits_draws (c : Bits) : (s.appendBits c).draws = s.draws := rfl

/-! `State.closeEnc` -/
@[simp] theorem State.closeEnc_arg (o : List Byte) : (s.closeEnc o).arg = s.arg := rfl
@[simp] theorem State.closeEnc_pcmd (o : List Byte) : (s.closeEnc o).pcmd = s.pcmd := rfl
@[simp] theorem State.closeEnc_parg (o : List Byte) : (s.closeEnc o).parg = s.parg := rfl
@[simp] theorem State.closeEnc_busy (o : List Byte) : (s.closeEnc o).busy = s.busy := rfl
@[simp] theorem State.closeEnc_ovr (o : List Byte) : (s.closeEnc o).ovr = s.ovr := rfl
@[simp] theorem State.closeEnc_err (o : List Byte) : (s.closeEnc o).err = s.err := rfl
@[simp] theorem State.closeEnc_phase (o : List Byte) : (s.closeEnc o).phase = s.phase := rfl
@[simp] theorem State.closeEnc_freq (o : List Byte) : (s.closeEnc o).freq = s.freq := rfl
@[simp] theorem State.closeEnc_total (o : List Byte) : (s.closeEnc o).total = s.total := rfl
@[simp] theorem State.closeEnc_node (o : List Byte) : (s.closeEnc o).node = s.node := rfl
@[simp] theorem State.closeEnc_root (o : List Byte) : (s.closeEnc o).root = s.root := rfl
@[simp] theorem State.closeEnc_code (o : List Byte) : (s.closeEnc o).code = s.code := rfl
@[simp] theorem State.closeEnc_res0 (o : List Byte) : (s.closeEnc o).res0 = s.res0 := rfl
@[simp] theorem State.closeEnc_res1 (o : List Byte) : (s.closeEnc o).res1 = s.res1 := rfl
@[simp] theorem State.closeEnc_encActive (o : List Byte) : (s.closeEnc o).encActive = false := rfl
@[simp] theorem State.closeEnc_outDone (o : List Byte) : (s.closeEnc o).outDone = true := rfl
@[simp] theorem State.closeEnc_ebits (o : List Byte) : (s.closeEnc o).ebits = s.ebits := rfl
@[simp] theorem State.closeEnc_outbuf (o : List Byte) : (s.closeEnc o).outbuf = o := rfl
@[simp] theorem State.closeEnc_decActive (o : List Byte) : (s.closeEnc o).decActive = s.decActive := rfl
@[simp] theorem State.closeEnc_decDone (o : List Byte) : (s.closeEnc o).decDone = s.decDone := rfl
@[simp] theorem State.closeEnc_dhdr (o : List Byte) : (s.closeEnc o).dhdr = s.dhdr := rfl
@[simp] theorem State.closeEnc_dp (o : List Byte) : (s.closeEnc o).dp = s.dp := rfl
@[simp] theorem State.closeEnc_dhold (o : List Byte) : (s.closeEnc o).dhold = s.dhold := rfl
@[simp] theorem State.closeEnc_dholdv (o : List Byte) : (s.closeEnc o).dholdv = s.dholdv := rfl
@[simp] theorem State.closeEnc_ddead (o : List Byte) : (s.closeEnc o).ddead = s.ddead := rfl
@[simp] theorem State.closeEnc_dnode (o : List Byte) : (s.closeEnc o).dnode = s.dnode := rfl
@[simp] theorem State.closeEnc_decbuf (o : List Byte) : (s.closeEnc o).decbuf = s.decbuf := rfl
@[simp] theorem State.closeEnc_cfg (o : List Byte) : (s.closeEnc o).cfg = s.cfg := rfl
@[simp] theorem State.closeEnc_inReset (o : List Byte) : (s.closeEnc o).inReset = s.inReset := rfl
@[simp] theorem State.closeEnc_prog (o : List Byte) : (s.closeEnc o).prog = s.prog := rfl
@[simp] theorem State.closeEnc_turns (o : List Byte) : (s.closeEnc o).turns = s.turns := rfl
@[simp] theorem State.closeEnc_resp (o : List Byte) : (s.closeEnc o).resp = s.resp := rfl
@[simp] theorem State.closeEnc_draws (o : List Byte) : (s.closeEnc o).draws = s.draws := rfl

/-! `State.openDec` -/
@[simp] theorem State.openDec_arg : (s.openDec).arg = s.arg := rfl
@[simp] theorem State.openDec_pcmd : (s.openDec).pcmd = s.pcmd := rfl
@[simp] theorem State.openDec_parg : (s.openDec).parg = s.parg := rfl
@[simp] theorem State.openDec_busy : (s.openDec).busy = s.busy := rfl
@[simp] theorem State.openDec_ovr : (s.openDec).ovr = s.ovr := rfl
@[simp] theorem State.openDec_err : (s.openDec).err = s.err := rfl
@[simp] theorem State.openDec_phase : (s.openDec).phase = s.phase := rfl
@[simp] theorem State.openDec_freq : (s.openDec).freq = s.freq := rfl
@[simp] theorem State.openDec_total : (s.openDec).total = s.total := rfl
@[simp] theorem State.openDec_node : (s.openDec).node = s.node := rfl
@[simp] theorem State.openDec_root : (s.openDec).root = s.root := rfl
@[simp] theorem State.openDec_code : (s.openDec).code = s.code := rfl
@[simp] theorem State.openDec_res0 : (s.openDec).res0 = s.res0 := rfl
@[simp] theorem State.openDec_res1 : (s.openDec).res1 = s.res1 := rfl
@[simp] theorem State.openDec_encActive : (s.openDec).encActive = s.encActive := rfl
@[simp] theorem State.openDec_outDone : (s.openDec).outDone = s.outDone := rfl
@[simp] theorem State.openDec_ebits : (s.openDec).ebits = s.ebits := rfl
@[simp] theorem State.openDec_outbuf : (s.openDec).outbuf = s.outbuf := rfl
@[simp] theorem State.openDec_decActive : (s.openDec).decActive = true := rfl
@[simp] theorem State.openDec_decDone : (s.openDec).decDone = false := rfl
@[simp] theorem State.openDec_dhdr : (s.openDec).dhdr = false := rfl
@[simp] theorem State.openDec_dp : (s.openDec).dp = 0 := rfl
@[simp] theorem State.openDec_dhold : (s.openDec).dhold = 0#8 := rfl
@[simp] theorem State.openDec_dholdv : (s.openDec).dholdv = false := rfl
@[simp] theorem State.openDec_ddead : (s.openDec).ddead = false := rfl
@[simp] theorem State.openDec_dnode : (s.openDec).dnode = s.root := rfl
@[simp] theorem State.openDec_decbuf : (s.openDec).decbuf = [] := rfl
@[simp] theorem State.openDec_cfg : (s.openDec).cfg = s.cfg := rfl
@[simp] theorem State.openDec_inReset : (s.openDec).inReset = s.inReset := rfl
@[simp] theorem State.openDec_prog : (s.openDec).prog = s.prog := rfl
@[simp] theorem State.openDec_turns : (s.openDec).turns = s.turns := rfl
@[simp] theorem State.openDec_resp : (s.openDec).resp = s.resp := rfl
@[simp] theorem State.openDec_draws : (s.openDec).draws = s.draws := rfl

/-! `State.takeHeader` -/
@[simp] theorem State.takeHeader_arg (p : Fin 9) : (s.takeHeader p).arg = s.arg := rfl
@[simp] theorem State.takeHeader_pcmd (p : Fin 9) : (s.takeHeader p).pcmd = s.pcmd := rfl
@[simp] theorem State.takeHeader_parg (p : Fin 9) : (s.takeHeader p).parg = s.parg := rfl
@[simp] theorem State.takeHeader_busy (p : Fin 9) : (s.takeHeader p).busy = s.busy := rfl
@[simp] theorem State.takeHeader_ovr (p : Fin 9) : (s.takeHeader p).ovr = s.ovr := rfl
@[simp] theorem State.takeHeader_err (p : Fin 9) : (s.takeHeader p).err = s.err := rfl
@[simp] theorem State.takeHeader_phase (p : Fin 9) : (s.takeHeader p).phase = s.phase := rfl
@[simp] theorem State.takeHeader_freq (p : Fin 9) : (s.takeHeader p).freq = s.freq := rfl
@[simp] theorem State.takeHeader_total (p : Fin 9) : (s.takeHeader p).total = s.total := rfl
@[simp] theorem State.takeHeader_node (p : Fin 9) : (s.takeHeader p).node = s.node := rfl
@[simp] theorem State.takeHeader_root (p : Fin 9) : (s.takeHeader p).root = s.root := rfl
@[simp] theorem State.takeHeader_code (p : Fin 9) : (s.takeHeader p).code = s.code := rfl
@[simp] theorem State.takeHeader_res0 (p : Fin 9) : (s.takeHeader p).res0 = s.res0 := rfl
@[simp] theorem State.takeHeader_res1 (p : Fin 9) : (s.takeHeader p).res1 = s.res1 := rfl
@[simp] theorem State.takeHeader_encActive (p : Fin 9) : (s.takeHeader p).encActive = s.encActive := rfl
@[simp] theorem State.takeHeader_outDone (p : Fin 9) : (s.takeHeader p).outDone = s.outDone := rfl
@[simp] theorem State.takeHeader_ebits (p : Fin 9) : (s.takeHeader p).ebits = s.ebits := rfl
@[simp] theorem State.takeHeader_outbuf (p : Fin 9) : (s.takeHeader p).outbuf = s.outbuf := rfl
@[simp] theorem State.takeHeader_decActive (p : Fin 9) : (s.takeHeader p).decActive = s.decActive := rfl
@[simp] theorem State.takeHeader_decDone (p : Fin 9) : (s.takeHeader p).decDone = s.decDone := rfl
@[simp] theorem State.takeHeader_dhdr (p : Fin 9) : (s.takeHeader p).dhdr = true := rfl
@[simp] theorem State.takeHeader_dp (p : Fin 9) : (s.takeHeader p).dp = p := rfl
@[simp] theorem State.takeHeader_dhold (p : Fin 9) : (s.takeHeader p).dhold = s.dhold := rfl
@[simp] theorem State.takeHeader_dholdv (p : Fin 9) : (s.takeHeader p).dholdv = s.dholdv := rfl
@[simp] theorem State.takeHeader_ddead (p : Fin 9) : (s.takeHeader p).ddead = s.ddead := rfl
@[simp] theorem State.takeHeader_dnode (p : Fin 9) : (s.takeHeader p).dnode = s.dnode := rfl
@[simp] theorem State.takeHeader_decbuf (p : Fin 9) : (s.takeHeader p).decbuf = s.decbuf := rfl
@[simp] theorem State.takeHeader_cfg (p : Fin 9) : (s.takeHeader p).cfg = s.cfg := rfl
@[simp] theorem State.takeHeader_inReset (p : Fin 9) : (s.takeHeader p).inReset = s.inReset := rfl
@[simp] theorem State.takeHeader_prog (p : Fin 9) : (s.takeHeader p).prog = s.prog := rfl
@[simp] theorem State.takeHeader_turns (p : Fin 9) : (s.takeHeader p).turns = s.turns := rfl
@[simp] theorem State.takeHeader_resp (p : Fin 9) : (s.takeHeader p).resp = s.resp := rfl
@[simp] theorem State.takeHeader_draws (p : Fin 9) : (s.takeHeader p).draws = s.draws := rfl

/-! `State.holdByte` -/
@[simp] theorem State.holdByte_arg (b : Byte) : (s.holdByte b).arg = s.arg := rfl
@[simp] theorem State.holdByte_pcmd (b : Byte) : (s.holdByte b).pcmd = s.pcmd := rfl
@[simp] theorem State.holdByte_parg (b : Byte) : (s.holdByte b).parg = s.parg := rfl
@[simp] theorem State.holdByte_busy (b : Byte) : (s.holdByte b).busy = s.busy := rfl
@[simp] theorem State.holdByte_ovr (b : Byte) : (s.holdByte b).ovr = s.ovr := rfl
@[simp] theorem State.holdByte_err (b : Byte) : (s.holdByte b).err = s.err := rfl
@[simp] theorem State.holdByte_phase (b : Byte) : (s.holdByte b).phase = s.phase := rfl
@[simp] theorem State.holdByte_freq (b : Byte) : (s.holdByte b).freq = s.freq := rfl
@[simp] theorem State.holdByte_total (b : Byte) : (s.holdByte b).total = s.total := rfl
@[simp] theorem State.holdByte_node (b : Byte) : (s.holdByte b).node = s.node := rfl
@[simp] theorem State.holdByte_root (b : Byte) : (s.holdByte b).root = s.root := rfl
@[simp] theorem State.holdByte_code (b : Byte) : (s.holdByte b).code = s.code := rfl
@[simp] theorem State.holdByte_res0 (b : Byte) : (s.holdByte b).res0 = s.res0 := rfl
@[simp] theorem State.holdByte_res1 (b : Byte) : (s.holdByte b).res1 = s.res1 := rfl
@[simp] theorem State.holdByte_encActive (b : Byte) : (s.holdByte b).encActive = s.encActive := rfl
@[simp] theorem State.holdByte_outDone (b : Byte) : (s.holdByte b).outDone = s.outDone := rfl
@[simp] theorem State.holdByte_ebits (b : Byte) : (s.holdByte b).ebits = s.ebits := rfl
@[simp] theorem State.holdByte_outbuf (b : Byte) : (s.holdByte b).outbuf = s.outbuf := rfl
@[simp] theorem State.holdByte_decActive (b : Byte) : (s.holdByte b).decActive = s.decActive := rfl
@[simp] theorem State.holdByte_decDone (b : Byte) : (s.holdByte b).decDone = s.decDone := rfl
@[simp] theorem State.holdByte_dhdr (b : Byte) : (s.holdByte b).dhdr = s.dhdr := rfl
@[simp] theorem State.holdByte_dp (b : Byte) : (s.holdByte b).dp = s.dp := rfl
@[simp] theorem State.holdByte_dhold (b : Byte) : (s.holdByte b).dhold = b := rfl
@[simp] theorem State.holdByte_dholdv (b : Byte) : (s.holdByte b).dholdv = true := rfl
@[simp] theorem State.holdByte_ddead (b : Byte) : (s.holdByte b).ddead = s.ddead := rfl
@[simp] theorem State.holdByte_dnode (b : Byte) : (s.holdByte b).dnode = s.dnode := rfl
@[simp] theorem State.holdByte_decbuf (b : Byte) : (s.holdByte b).decbuf = s.decbuf := rfl
@[simp] theorem State.holdByte_cfg (b : Byte) : (s.holdByte b).cfg = s.cfg := rfl
@[simp] theorem State.holdByte_inReset (b : Byte) : (s.holdByte b).inReset = s.inReset := rfl
@[simp] theorem State.holdByte_prog (b : Byte) : (s.holdByte b).prog = s.prog := rfl
@[simp] theorem State.holdByte_turns (b : Byte) : (s.holdByte b).turns = s.turns := rfl
@[simp] theorem State.holdByte_resp (b : Byte) : (s.holdByte b).resp = s.resp := rfl
@[simp] theorem State.holdByte_draws (b : Byte) : (s.holdByte b).draws = s.draws := rfl

/-! `State.dropHold` -/
@[simp] theorem State.dropHold_arg : (s.dropHold).arg = s.arg := rfl
@[simp] theorem State.dropHold_pcmd : (s.dropHold).pcmd = s.pcmd := rfl
@[simp] theorem State.dropHold_parg : (s.dropHold).parg = s.parg := rfl
@[simp] theorem State.dropHold_busy : (s.dropHold).busy = s.busy := rfl
@[simp] theorem State.dropHold_ovr : (s.dropHold).ovr = s.ovr := rfl
@[simp] theorem State.dropHold_err : (s.dropHold).err = s.err := rfl
@[simp] theorem State.dropHold_phase : (s.dropHold).phase = s.phase := rfl
@[simp] theorem State.dropHold_freq : (s.dropHold).freq = s.freq := rfl
@[simp] theorem State.dropHold_total : (s.dropHold).total = s.total := rfl
@[simp] theorem State.dropHold_node : (s.dropHold).node = s.node := rfl
@[simp] theorem State.dropHold_root : (s.dropHold).root = s.root := rfl
@[simp] theorem State.dropHold_code : (s.dropHold).code = s.code := rfl
@[simp] theorem State.dropHold_res0 : (s.dropHold).res0 = s.res0 := rfl
@[simp] theorem State.dropHold_res1 : (s.dropHold).res1 = s.res1 := rfl
@[simp] theorem State.dropHold_encActive : (s.dropHold).encActive = s.encActive := rfl
@[simp] theorem State.dropHold_outDone : (s.dropHold).outDone = s.outDone := rfl
@[simp] theorem State.dropHold_ebits : (s.dropHold).ebits = s.ebits := rfl
@[simp] theorem State.dropHold_outbuf : (s.dropHold).outbuf = s.outbuf := rfl
@[simp] theorem State.dropHold_decActive : (s.dropHold).decActive = s.decActive := rfl
@[simp] theorem State.dropHold_decDone : (s.dropHold).decDone = s.decDone := rfl
@[simp] theorem State.dropHold_dhdr : (s.dropHold).dhdr = s.dhdr := rfl
@[simp] theorem State.dropHold_dp : (s.dropHold).dp = s.dp := rfl
@[simp] theorem State.dropHold_dhold : (s.dropHold).dhold = s.dhold := rfl
@[simp] theorem State.dropHold_dholdv : (s.dropHold).dholdv = false := rfl
@[simp] theorem State.dropHold_ddead : (s.dropHold).ddead = s.ddead := rfl
@[simp] theorem State.dropHold_dnode : (s.dropHold).dnode = s.dnode := rfl
@[simp] theorem State.dropHold_decbuf : (s.dropHold).decbuf = s.decbuf := rfl
@[simp] theorem State.dropHold_cfg : (s.dropHold).cfg = s.cfg := rfl
@[simp] theorem State.dropHold_inReset : (s.dropHold).inReset = s.inReset := rfl
@[simp] theorem State.dropHold_prog : (s.dropHold).prog = s.prog := rfl
@[simp] theorem State.dropHold_turns : (s.dropHold).turns = s.turns := rfl
@[simp] theorem State.dropHold_resp : (s.dropHold).resp = s.resp := rfl
@[simp] theorem State.dropHold_draws : (s.dropHold).draws = s.draws := rfl

/-! `State.pushSymbol` -/
@[simp] theorem State.pushSymbol_arg (x : Symbol) : (s.pushSymbol x).arg = s.arg := rfl
@[simp] theorem State.pushSymbol_pcmd (x : Symbol) : (s.pushSymbol x).pcmd = s.pcmd := rfl
@[simp] theorem State.pushSymbol_parg (x : Symbol) : (s.pushSymbol x).parg = s.parg := rfl
@[simp] theorem State.pushSymbol_busy (x : Symbol) : (s.pushSymbol x).busy = s.busy := rfl
@[simp] theorem State.pushSymbol_ovr (x : Symbol) : (s.pushSymbol x).ovr = s.ovr := rfl
@[simp] theorem State.pushSymbol_err (x : Symbol) : (s.pushSymbol x).err = s.err := rfl
@[simp] theorem State.pushSymbol_phase (x : Symbol) : (s.pushSymbol x).phase = s.phase := rfl
@[simp] theorem State.pushSymbol_freq (x : Symbol) : (s.pushSymbol x).freq = s.freq := rfl
@[simp] theorem State.pushSymbol_total (x : Symbol) : (s.pushSymbol x).total = s.total := rfl
@[simp] theorem State.pushSymbol_node (x : Symbol) : (s.pushSymbol x).node = s.node := rfl
@[simp] theorem State.pushSymbol_root (x : Symbol) : (s.pushSymbol x).root = s.root := rfl
@[simp] theorem State.pushSymbol_code (x : Symbol) : (s.pushSymbol x).code = s.code := rfl
@[simp] theorem State.pushSymbol_res0 (x : Symbol) : (s.pushSymbol x).res0 = s.res0 := rfl
@[simp] theorem State.pushSymbol_res1 (x : Symbol) : (s.pushSymbol x).res1 = s.res1 := rfl
@[simp] theorem State.pushSymbol_encActive (x : Symbol) : (s.pushSymbol x).encActive = s.encActive := rfl
@[simp] theorem State.pushSymbol_outDone (x : Symbol) : (s.pushSymbol x).outDone = s.outDone := rfl
@[simp] theorem State.pushSymbol_ebits (x : Symbol) : (s.pushSymbol x).ebits = s.ebits := rfl
@[simp] theorem State.pushSymbol_outbuf (x : Symbol) : (s.pushSymbol x).outbuf = s.outbuf := rfl
@[simp] theorem State.pushSymbol_decActive (x : Symbol) : (s.pushSymbol x).decActive = s.decActive := rfl
@[simp] theorem State.pushSymbol_decDone (x : Symbol) : (s.pushSymbol x).decDone = s.decDone := rfl
@[simp] theorem State.pushSymbol_dhdr (x : Symbol) : (s.pushSymbol x).dhdr = s.dhdr := rfl
@[simp] theorem State.pushSymbol_dp (x : Symbol) : (s.pushSymbol x).dp = s.dp := rfl
@[simp] theorem State.pushSymbol_dhold (x : Symbol) : (s.pushSymbol x).dhold = s.dhold := rfl
@[simp] theorem State.pushSymbol_dholdv (x : Symbol) : (s.pushSymbol x).dholdv = s.dholdv := rfl
@[simp] theorem State.pushSymbol_ddead (x : Symbol) : (s.pushSymbol x).ddead = s.ddead := rfl
@[simp] theorem State.pushSymbol_dnode (x : Symbol) : (s.pushSymbol x).dnode = s.dnode := rfl
@[simp] theorem State.pushSymbol_decbuf (x : Symbol) : (s.pushSymbol x).decbuf = s.decbuf ++ [x] := rfl
@[simp] theorem State.pushSymbol_cfg (x : Symbol) : (s.pushSymbol x).cfg = s.cfg := rfl
@[simp] theorem State.pushSymbol_inReset (x : Symbol) : (s.pushSymbol x).inReset = s.inReset := rfl
@[simp] theorem State.pushSymbol_prog (x : Symbol) : (s.pushSymbol x).prog = s.prog := rfl
@[simp] theorem State.pushSymbol_turns (x : Symbol) : (s.pushSymbol x).turns = s.turns := rfl
@[simp] theorem State.pushSymbol_resp (x : Symbol) : (s.pushSymbol x).resp = s.resp := rfl
@[simp] theorem State.pushSymbol_draws (x : Symbol) : (s.pushSymbol x).draws = s.draws := rfl

/-! `State.walkTo` -/
@[simp] theorem State.walkTo_arg (k : Option Nat) : (s.walkTo k).arg = s.arg := rfl
@[simp] theorem State.walkTo_pcmd (k : Option Nat) : (s.walkTo k).pcmd = s.pcmd := rfl
@[simp] theorem State.walkTo_parg (k : Option Nat) : (s.walkTo k).parg = s.parg := rfl
@[simp] theorem State.walkTo_busy (k : Option Nat) : (s.walkTo k).busy = s.busy := rfl
@[simp] theorem State.walkTo_ovr (k : Option Nat) : (s.walkTo k).ovr = s.ovr := rfl
@[simp] theorem State.walkTo_err (k : Option Nat) : (s.walkTo k).err = s.err := rfl
@[simp] theorem State.walkTo_phase (k : Option Nat) : (s.walkTo k).phase = s.phase := rfl
@[simp] theorem State.walkTo_freq (k : Option Nat) : (s.walkTo k).freq = s.freq := rfl
@[simp] theorem State.walkTo_total (k : Option Nat) : (s.walkTo k).total = s.total := rfl
@[simp] theorem State.walkTo_node (k : Option Nat) : (s.walkTo k).node = s.node := rfl
@[simp] theorem State.walkTo_root (k : Option Nat) : (s.walkTo k).root = s.root := rfl
@[simp] theorem State.walkTo_code (k : Option Nat) : (s.walkTo k).code = s.code := rfl
@[simp] theorem State.walkTo_res0 (k : Option Nat) : (s.walkTo k).res0 = s.res0 := rfl
@[simp] theorem State.walkTo_res1 (k : Option Nat) : (s.walkTo k).res1 = s.res1 := rfl
@[simp] theorem State.walkTo_encActive (k : Option Nat) : (s.walkTo k).encActive = s.encActive := rfl
@[simp] theorem State.walkTo_outDone (k : Option Nat) : (s.walkTo k).outDone = s.outDone := rfl
@[simp] theorem State.walkTo_ebits (k : Option Nat) : (s.walkTo k).ebits = s.ebits := rfl
@[simp] theorem State.walkTo_outbuf (k : Option Nat) : (s.walkTo k).outbuf = s.outbuf := rfl
@[simp] theorem State.walkTo_decActive (k : Option Nat) : (s.walkTo k).decActive = s.decActive := rfl
@[simp] theorem State.walkTo_decDone (k : Option Nat) : (s.walkTo k).decDone = s.decDone := rfl
@[simp] theorem State.walkTo_dhdr (k : Option Nat) : (s.walkTo k).dhdr = s.dhdr := rfl
@[simp] theorem State.walkTo_dp (k : Option Nat) : (s.walkTo k).dp = s.dp := rfl
@[simp] theorem State.walkTo_dhold (k : Option Nat) : (s.walkTo k).dhold = s.dhold := rfl
@[simp] theorem State.walkTo_dholdv (k : Option Nat) : (s.walkTo k).dholdv = s.dholdv := rfl
@[simp] theorem State.walkTo_ddead (k : Option Nat) : (s.walkTo k).ddead = s.ddead := rfl
@[simp] theorem State.walkTo_dnode (k : Option Nat) : (s.walkTo k).dnode = k := rfl
@[simp] theorem State.walkTo_decbuf (k : Option Nat) : (s.walkTo k).decbuf = s.decbuf := rfl
@[simp] theorem State.walkTo_cfg (k : Option Nat) : (s.walkTo k).cfg = s.cfg := rfl
@[simp] theorem State.walkTo_inReset (k : Option Nat) : (s.walkTo k).inReset = s.inReset := rfl
@[simp] theorem State.walkTo_prog (k : Option Nat) : (s.walkTo k).prog = s.prog := rfl
@[simp] theorem State.walkTo_turns (k : Option Nat) : (s.walkTo k).turns = s.turns := rfl
@[simp] theorem State.walkTo_resp (k : Option Nat) : (s.walkTo k).resp = s.resp := rfl
@[simp] theorem State.walkTo_draws (k : Option Nat) : (s.walkTo k).draws = s.draws := rfl

/-! `State.markDead` -/
@[simp] theorem State.markDead_arg : (s.markDead).arg = s.arg := rfl
@[simp] theorem State.markDead_pcmd : (s.markDead).pcmd = s.pcmd := rfl
@[simp] theorem State.markDead_parg : (s.markDead).parg = s.parg := rfl
@[simp] theorem State.markDead_busy : (s.markDead).busy = s.busy := rfl
@[simp] theorem State.markDead_ovr : (s.markDead).ovr = s.ovr := rfl
@[simp] theorem State.markDead_err : (s.markDead).err = s.err := rfl
@[simp] theorem State.markDead_phase : (s.markDead).phase = s.phase := rfl
@[simp] theorem State.markDead_freq : (s.markDead).freq = s.freq := rfl
@[simp] theorem State.markDead_total : (s.markDead).total = s.total := rfl
@[simp] theorem State.markDead_node : (s.markDead).node = s.node := rfl
@[simp] theorem State.markDead_root : (s.markDead).root = s.root := rfl
@[simp] theorem State.markDead_code : (s.markDead).code = s.code := rfl
@[simp] theorem State.markDead_res0 : (s.markDead).res0 = s.res0 := rfl
@[simp] theorem State.markDead_res1 : (s.markDead).res1 = s.res1 := rfl
@[simp] theorem State.markDead_encActive : (s.markDead).encActive = s.encActive := rfl
@[simp] theorem State.markDead_outDone : (s.markDead).outDone = s.outDone := rfl
@[simp] theorem State.markDead_ebits : (s.markDead).ebits = s.ebits := rfl
@[simp] theorem State.markDead_outbuf : (s.markDead).outbuf = s.outbuf := rfl
@[simp] theorem State.markDead_decActive : (s.markDead).decActive = s.decActive := rfl
@[simp] theorem State.markDead_decDone : (s.markDead).decDone = s.decDone := rfl
@[simp] theorem State.markDead_dhdr : (s.markDead).dhdr = s.dhdr := rfl
@[simp] theorem State.markDead_dp : (s.markDead).dp = s.dp := rfl
@[simp] theorem State.markDead_dhold : (s.markDead).dhold = s.dhold := rfl
@[simp] theorem State.markDead_dholdv : (s.markDead).dholdv = s.dholdv := rfl
@[simp] theorem State.markDead_ddead : (s.markDead).ddead = true := rfl
@[simp] theorem State.markDead_dnode : (s.markDead).dnode = s.dnode := rfl
@[simp] theorem State.markDead_decbuf : (s.markDead).decbuf = s.decbuf := rfl
@[simp] theorem State.markDead_cfg : (s.markDead).cfg = s.cfg := rfl
@[simp] theorem State.markDead_inReset : (s.markDead).inReset = s.inReset := rfl
@[simp] theorem State.markDead_prog : (s.markDead).prog = s.prog := rfl
@[simp] theorem State.markDead_turns : (s.markDead).turns = s.turns := rfl
@[simp] theorem State.markDead_resp : (s.markDead).resp = s.resp := rfl
@[simp] theorem State.markDead_draws : (s.markDead).draws = s.draws := rfl

/-! `State.closeDec` -/
@[simp] theorem State.closeDec_arg : (s.closeDec).arg = s.arg := rfl
@[simp] theorem State.closeDec_pcmd : (s.closeDec).pcmd = s.pcmd := rfl
@[simp] theorem State.closeDec_parg : (s.closeDec).parg = s.parg := rfl
@[simp] theorem State.closeDec_busy : (s.closeDec).busy = s.busy := rfl
@[simp] theorem State.closeDec_ovr : (s.closeDec).ovr = s.ovr := rfl
@[simp] theorem State.closeDec_err : (s.closeDec).err = s.err := rfl
@[simp] theorem State.closeDec_phase : (s.closeDec).phase = s.phase := rfl
@[simp] theorem State.closeDec_freq : (s.closeDec).freq = s.freq := rfl
@[simp] theorem State.closeDec_total : (s.closeDec).total = s.total := rfl
@[simp] theorem State.closeDec_node : (s.closeDec).node = s.node := rfl
@[simp] theorem State.closeDec_root : (s.closeDec).root = s.root := rfl
@[simp] theorem State.closeDec_code : (s.closeDec).code = s.code := rfl
@[simp] theorem State.closeDec_res0 : (s.closeDec).res0 = s.res0 := rfl
@[simp] theorem State.closeDec_res1 : (s.closeDec).res1 = s.res1 := rfl
@[simp] theorem State.closeDec_encActive : (s.closeDec).encActive = s.encActive := rfl
@[simp] theorem State.closeDec_outDone : (s.closeDec).outDone = s.outDone := rfl
@[simp] theorem State.closeDec_ebits : (s.closeDec).ebits = s.ebits := rfl
@[simp] theorem State.closeDec_outbuf : (s.closeDec).outbuf = s.outbuf := rfl
@[simp] theorem State.closeDec_decActive : (s.closeDec).decActive = false := rfl
@[simp] theorem State.closeDec_decDone : (s.closeDec).decDone = true := rfl
@[simp] theorem State.closeDec_dhdr : (s.closeDec).dhdr = s.dhdr := rfl
@[simp] theorem State.closeDec_dp : (s.closeDec).dp = s.dp := rfl
@[simp] theorem State.closeDec_dhold : (s.closeDec).dhold = s.dhold := rfl
@[simp] theorem State.closeDec_dholdv : (s.closeDec).dholdv = s.dholdv := rfl
@[simp] theorem State.closeDec_ddead : (s.closeDec).ddead = s.ddead := rfl
@[simp] theorem State.closeDec_dnode : (s.closeDec).dnode = s.dnode := rfl
@[simp] theorem State.closeDec_decbuf : (s.closeDec).decbuf = s.decbuf := rfl
@[simp] theorem State.closeDec_cfg : (s.closeDec).cfg = s.cfg := rfl
@[simp] theorem State.closeDec_inReset : (s.closeDec).inReset = s.inReset := rfl
@[simp] theorem State.closeDec_prog : (s.closeDec).prog = s.prog := rfl
@[simp] theorem State.closeDec_turns : (s.closeDec).turns = s.turns := rfl
@[simp] theorem State.closeDec_resp : (s.closeDec).resp = s.resp := rfl
@[simp] theorem State.closeDec_draws : (s.closeDec).draws = s.draws := rfl

/-! `State.issue` -/
@[simp] theorem State.issue_arg (w : Word) : (s.issue w).arg = s.arg := rfl
@[simp] theorem State.issue_pcmd (w : Word) : (s.issue w).pcmd = w := rfl
@[simp] theorem State.issue_parg (w : Word) : (s.issue w).parg = s.arg := rfl
@[simp] theorem State.issue_busy (w : Word) : (s.issue w).busy = true := rfl
@[simp] theorem State.issue_ovr (w : Word) : (s.issue w).ovr = s.ovr := rfl
@[simp] theorem State.issue_err (w : Word) : (s.issue w).err = s.err := rfl
@[simp] theorem State.issue_phase (w : Word) : (s.issue w).phase = s.phase := rfl
@[simp] theorem State.issue_freq (w : Word) : (s.issue w).freq = s.freq := rfl
@[simp] theorem State.issue_total (w : Word) : (s.issue w).total = s.total := rfl
@[simp] theorem State.issue_node (w : Word) : (s.issue w).node = s.node := rfl
@[simp] theorem State.issue_root (w : Word) : (s.issue w).root = s.root := rfl
@[simp] theorem State.issue_code (w : Word) : (s.issue w).code = s.code := rfl
@[simp] theorem State.issue_res0 (w : Word) : (s.issue w).res0 = s.res0 := rfl
@[simp] theorem State.issue_res1 (w : Word) : (s.issue w).res1 = s.res1 := rfl
@[simp] theorem State.issue_encActive (w : Word) : (s.issue w).encActive = s.encActive := rfl
@[simp] theorem State.issue_outDone (w : Word) : (s.issue w).outDone = s.outDone := rfl
@[simp] theorem State.issue_ebits (w : Word) : (s.issue w).ebits = s.ebits := rfl
@[simp] theorem State.issue_outbuf (w : Word) : (s.issue w).outbuf = s.outbuf := rfl
@[simp] theorem State.issue_decActive (w : Word) : (s.issue w).decActive = s.decActive := rfl
@[simp] theorem State.issue_decDone (w : Word) : (s.issue w).decDone = s.decDone := rfl
@[simp] theorem State.issue_dhdr (w : Word) : (s.issue w).dhdr = s.dhdr := rfl
@[simp] theorem State.issue_dp (w : Word) : (s.issue w).dp = s.dp := rfl
@[simp] theorem State.issue_dhold (w : Word) : (s.issue w).dhold = s.dhold := rfl
@[simp] theorem State.issue_dholdv (w : Word) : (s.issue w).dholdv = s.dholdv := rfl
@[simp] theorem State.issue_ddead (w : Word) : (s.issue w).ddead = s.ddead := rfl
@[simp] theorem State.issue_dnode (w : Word) : (s.issue w).dnode = s.dnode := rfl
@[simp] theorem State.issue_decbuf (w : Word) : (s.issue w).decbuf = s.decbuf := rfl
@[simp] theorem State.issue_cfg (w : Word) : (s.issue w).cfg = s.cfg := rfl
@[simp] theorem State.issue_inReset (w : Word) : (s.issue w).inReset = s.inReset := rfl
@[simp] theorem State.issue_prog (w : Word) : (s.issue w).prog = s.prog := rfl
@[simp] theorem State.issue_turns (w : Word) : (s.issue w).turns = s.turns := rfl
@[simp] theorem State.issue_resp (w : Word) : (s.issue w).resp = s.resp := rfl
@[simp] theorem State.issue_draws (w : Word) : (s.issue w).draws = s.draws := rfl

/-! `State.overrun` -/
@[simp] theorem State.overrun_arg : (s.overrun).arg = s.arg := rfl
@[simp] theorem State.overrun_pcmd : (s.overrun).pcmd = s.pcmd := rfl
@[simp] theorem State.overrun_parg : (s.overrun).parg = s.parg := rfl
@[simp] theorem State.overrun_busy : (s.overrun).busy = s.busy := rfl
@[simp] theorem State.overrun_ovr : (s.overrun).ovr = true := rfl
@[simp] theorem State.overrun_err : (s.overrun).err = s.err := rfl
@[simp] theorem State.overrun_phase : (s.overrun).phase = s.phase := rfl
@[simp] theorem State.overrun_freq : (s.overrun).freq = s.freq := rfl
@[simp] theorem State.overrun_total : (s.overrun).total = s.total := rfl
@[simp] theorem State.overrun_node : (s.overrun).node = s.node := rfl
@[simp] theorem State.overrun_root : (s.overrun).root = s.root := rfl
@[simp] theorem State.overrun_code : (s.overrun).code = s.code := rfl
@[simp] theorem State.overrun_res0 : (s.overrun).res0 = s.res0 := rfl
@[simp] theorem State.overrun_res1 : (s.overrun).res1 = s.res1 := rfl
@[simp] theorem State.overrun_encActive : (s.overrun).encActive = s.encActive := rfl
@[simp] theorem State.overrun_outDone : (s.overrun).outDone = s.outDone := rfl
@[simp] theorem State.overrun_ebits : (s.overrun).ebits = s.ebits := rfl
@[simp] theorem State.overrun_outbuf : (s.overrun).outbuf = s.outbuf := rfl
@[simp] theorem State.overrun_decActive : (s.overrun).decActive = s.decActive := rfl
@[simp] theorem State.overrun_decDone : (s.overrun).decDone = s.decDone := rfl
@[simp] theorem State.overrun_dhdr : (s.overrun).dhdr = s.dhdr := rfl
@[simp] theorem State.overrun_dp : (s.overrun).dp = s.dp := rfl
@[simp] theorem State.overrun_dhold : (s.overrun).dhold = s.dhold := rfl
@[simp] theorem State.overrun_dholdv : (s.overrun).dholdv = s.dholdv := rfl
@[simp] theorem State.overrun_ddead : (s.overrun).ddead = s.ddead := rfl
@[simp] theorem State.overrun_dnode : (s.overrun).dnode = s.dnode := rfl
@[simp] theorem State.overrun_decbuf : (s.overrun).decbuf = s.decbuf := rfl
@[simp] theorem State.overrun_cfg : (s.overrun).cfg = s.cfg := rfl
@[simp] theorem State.overrun_inReset : (s.overrun).inReset = s.inReset := rfl
@[simp] theorem State.overrun_prog : (s.overrun).prog = s.prog := rfl
@[simp] theorem State.overrun_turns : (s.overrun).turns = s.turns := rfl
@[simp] theorem State.overrun_resp : (s.overrun).resp = s.resp := rfl
@[simp] theorem State.overrun_draws : (s.overrun).draws = s.draws := rfl

/-! `State.finish` -/
@[simp] theorem State.finish_arg : (s.finish).arg = s.arg := rfl
@[simp] theorem State.finish_pcmd : (s.finish).pcmd = s.pcmd := rfl
@[simp] theorem State.finish_parg : (s.finish).parg = s.parg := rfl
@[simp] theorem State.finish_busy : (s.finish).busy = false := rfl
@[simp] theorem State.finish_ovr : (s.finish).ovr = s.ovr := rfl
@[simp] theorem State.finish_err : (s.finish).err = s.err := rfl
@[simp] theorem State.finish_phase : (s.finish).phase = s.phase := rfl
@[simp] theorem State.finish_freq : (s.finish).freq = s.freq := rfl
@[simp] theorem State.finish_total : (s.finish).total = s.total := rfl
@[simp] theorem State.finish_node : (s.finish).node = s.node := rfl
@[simp] theorem State.finish_root : (s.finish).root = s.root := rfl
@[simp] theorem State.finish_code : (s.finish).code = s.code := rfl
@[simp] theorem State.finish_res0 : (s.finish).res0 = s.res0 := rfl
@[simp] theorem State.finish_res1 : (s.finish).res1 = s.res1 := rfl
@[simp] theorem State.finish_encActive : (s.finish).encActive = s.encActive := rfl
@[simp] theorem State.finish_outDone : (s.finish).outDone = s.outDone := rfl
@[simp] theorem State.finish_ebits : (s.finish).ebits = s.ebits := rfl
@[simp] theorem State.finish_outbuf : (s.finish).outbuf = s.outbuf := rfl
@[simp] theorem State.finish_decActive : (s.finish).decActive = s.decActive := rfl
@[simp] theorem State.finish_decDone : (s.finish).decDone = s.decDone := rfl
@[simp] theorem State.finish_dhdr : (s.finish).dhdr = s.dhdr := rfl
@[simp] theorem State.finish_dp : (s.finish).dp = s.dp := rfl
@[simp] theorem State.finish_dhold : (s.finish).dhold = s.dhold := rfl
@[simp] theorem State.finish_dholdv : (s.finish).dholdv = s.dholdv := rfl
@[simp] theorem State.finish_ddead : (s.finish).ddead = s.ddead := rfl
@[simp] theorem State.finish_dnode : (s.finish).dnode = s.dnode := rfl
@[simp] theorem State.finish_decbuf : (s.finish).decbuf = s.decbuf := rfl
@[simp] theorem State.finish_cfg : (s.finish).cfg = s.cfg := rfl
@[simp] theorem State.finish_inReset : (s.finish).inReset = s.inReset := rfl
@[simp] theorem State.finish_prog : (s.finish).prog = s.prog := rfl
@[simp] theorem State.finish_turns : (s.finish).turns = s.turns := rfl
@[simp] theorem State.finish_resp : (s.finish).resp = s.resp := rfl
@[simp] theorem State.finish_draws : (s.finish).draws = s.draws := rfl

/-! `State.latch` -/
@[simp] theorem State.latch_arg (w : Word) : (s.latch w).arg = s.arg := rfl
@[simp] theorem State.latch_pcmd (w : Word) : (s.latch w).pcmd = w := rfl
@[simp] theorem State.latch_parg (w : Word) : (s.latch w).parg = s.parg := rfl
@[simp] theorem State.latch_busy (w : Word) : (s.latch w).busy = true := rfl
@[simp] theorem State.latch_ovr (w : Word) : (s.latch w).ovr = s.ovr := rfl
@[simp] theorem State.latch_err (w : Word) : (s.latch w).err = s.err := rfl
@[simp] theorem State.latch_phase (w : Word) : (s.latch w).phase = s.phase := rfl
@[simp] theorem State.latch_freq (w : Word) : (s.latch w).freq = s.freq := rfl
@[simp] theorem State.latch_total (w : Word) : (s.latch w).total = s.total := rfl
@[simp] theorem State.latch_node (w : Word) : (s.latch w).node = s.node := rfl
@[simp] theorem State.latch_root (w : Word) : (s.latch w).root = s.root := rfl
@[simp] theorem State.latch_code (w : Word) : (s.latch w).code = s.code := rfl
@[simp] theorem State.latch_res0 (w : Word) : (s.latch w).res0 = s.res0 := rfl
@[simp] theorem State.latch_res1 (w : Word) : (s.latch w).res1 = s.res1 := rfl
@[simp] theorem State.latch_encActive (w : Word) : (s.latch w).encActive = s.encActive := rfl
@[simp] theorem State.latch_outDone (w : Word) : (s.latch w).outDone = s.outDone := rfl
@[simp] theorem State.latch_ebits (w : Word) : (s.latch w).ebits = s.ebits := rfl
@[simp] theorem State.latch_outbuf (w : Word) : (s.latch w).outbuf = s.outbuf := rfl
@[simp] theorem State.latch_decActive (w : Word) : (s.latch w).decActive = s.decActive := rfl
@[simp] theorem State.latch_decDone (w : Word) : (s.latch w).decDone = s.decDone := rfl
@[simp] theorem State.latch_dhdr (w : Word) : (s.latch w).dhdr = s.dhdr := rfl
@[simp] theorem State.latch_dp (w : Word) : (s.latch w).dp = s.dp := rfl
@[simp] theorem State.latch_dhold (w : Word) : (s.latch w).dhold = s.dhold := rfl
@[simp] theorem State.latch_dholdv (w : Word) : (s.latch w).dholdv = s.dholdv := rfl
@[simp] theorem State.latch_ddead (w : Word) : (s.latch w).ddead = s.ddead := rfl
@[simp] theorem State.latch_dnode (w : Word) : (s.latch w).dnode = s.dnode := rfl
@[simp] theorem State.latch_decbuf (w : Word) : (s.latch w).decbuf = s.decbuf := rfl
@[simp] theorem State.latch_cfg (w : Word) : (s.latch w).cfg = s.cfg := rfl
@[simp] theorem State.latch_inReset (w : Word) : (s.latch w).inReset = false := rfl
@[simp] theorem State.latch_prog (w : Word) : (s.latch w).prog = s.prog := rfl
@[simp] theorem State.latch_turns (w : Word) : (s.latch w).turns = .core :: s.turns := rfl
@[simp] theorem State.latch_resp (w : Word) : (s.latch w).resp = s.resp := rfl
@[simp] theorem State.latch_draws (w : Word) : (s.latch w).draws = s.draws := rfl

/-! `State.respond` -/
@[simp] theorem State.respond_arg (r : BusResp) : (s.respond r).arg = s.arg := rfl
@[simp] theorem State.respond_pcmd (r : BusResp) : (s.respond r).pcmd = s.pcmd := rfl
@[simp] theorem State.respond_parg (r : BusResp) : (s.respond r).parg = s.parg := rfl
@[simp] theorem State.respond_busy (r : BusResp) : (s.respond r).busy = s.busy := rfl
@[simp] theorem State.respond_ovr (r : BusResp) : (s.respond r).ovr = s.ovr := rfl
@[simp] theorem State.respond_err (r : BusResp) : (s.respond r).err = s.err := rfl
@[simp] theorem State.respond_phase (r : BusResp) : (s.respond r).phase = s.phase := rfl
@[simp] theorem State.respond_freq (r : BusResp) : (s.respond r).freq = s.freq := rfl
@[simp] theorem State.respond_total (r : BusResp) : (s.respond r).total = s.total := rfl
@[simp] theorem State.respond_node (r : BusResp) : (s.respond r).node = s.node := rfl
@[simp] theorem State.respond_root (r : BusResp) : (s.respond r).root = s.root := rfl
@[simp] theorem State.respond_code (r : BusResp) : (s.respond r).code = s.code := rfl
@[simp] theorem State.respond_res0 (r : BusResp) : (s.respond r).res0 = s.res0 := rfl
@[simp] theorem State.respond_res1 (r : BusResp) : (s.respond r).res1 = s.res1 := rfl
@[simp] theorem State.respond_encActive (r : BusResp) : (s.respond r).encActive = s.encActive := rfl
@[simp] theorem State.respond_outDone (r : BusResp) : (s.respond r).outDone = s.outDone := rfl
@[simp] theorem State.respond_ebits (r : BusResp) : (s.respond r).ebits = s.ebits := rfl
@[simp] theorem State.respond_outbuf (r : BusResp) : (s.respond r).outbuf = s.outbuf := rfl
@[simp] theorem State.respond_decActive (r : BusResp) : (s.respond r).decActive = s.decActive := rfl
@[simp] theorem State.respond_decDone (r : BusResp) : (s.respond r).decDone = s.decDone := rfl
@[simp] theorem State.respond_dhdr (r : BusResp) : (s.respond r).dhdr = s.dhdr := rfl
@[simp] theorem State.respond_dp (r : BusResp) : (s.respond r).dp = s.dp := rfl
@[simp] theorem State.respond_dhold (r : BusResp) : (s.respond r).dhold = s.dhold := rfl
@[simp] theorem State.respond_dholdv (r : BusResp) : (s.respond r).dholdv = s.dholdv := rfl
@[simp] theorem State.respond_ddead (r : BusResp) : (s.respond r).ddead = s.ddead := rfl
@[simp] theorem State.respond_dnode (r : BusResp) : (s.respond r).dnode = s.dnode := rfl
@[simp] theorem State.respond_decbuf (r : BusResp) : (s.respond r).decbuf = s.decbuf := rfl
@[simp] theorem State.respond_cfg (r : BusResp) : (s.respond r).cfg = s.cfg := rfl
@[simp] theorem State.respond_inReset (r : BusResp) : (s.respond r).inReset = s.inReset := rfl
@[simp] theorem State.respond_prog (r : BusResp) : (s.respond r).prog = s.prog := rfl
@[simp] theorem State.respond_turns (r : BusResp) : (s.respond r).turns = s.turns := rfl
@[simp] theorem State.respond_resp (r : BusResp) : (s.respond r).resp = r := rfl
@[simp] theorem State.respond_draws (r : BusResp) : (s.respond r).draws = s.draws := rfl

/-! `State.draw` -/
@[simp] theorem State.draw_arg : (s.draw).arg = s.arg := rfl
@[simp] theorem State.draw_pcmd : (s.draw).pcmd = s.pcmd := rfl
@[simp] theorem State.draw_parg : (s.draw).parg = s.parg := rfl
@[simp] theorem State.draw_busy : (s.draw).busy = s.busy := rfl
@[simp] theorem State.draw_ovr : (s.draw).ovr = s.ovr := rfl
@[simp] theorem State.draw_err : (s.draw).err = s.err := rfl
@[simp] theorem State.draw_phase : (s.draw).phase = s.phase := rfl
@[simp] theorem State.draw_freq : (s.draw).freq = s.freq := rfl
@[simp] theorem State.draw_total : (s.draw).total = s.total := rfl
@[simp] theorem State.draw_node : (s.draw).node = s.node := rfl
@[simp] theorem State.draw_root : (s.draw).root = s.root := rfl
@[simp] theorem State.draw_code : (s.draw).code = s.code := rfl
@[simp] theorem State.draw_res0 : (s.draw).res0 = s.res0 := rfl
@[simp] theorem State.draw_res1 : (s.draw).res1 = s.res1 := rfl
@[simp] theorem State.draw_encActive : (s.draw).encActive = s.encActive := rfl
@[simp] theorem State.draw_outDone : (s.draw).outDone = s.outDone := rfl
@[simp] theorem State.draw_ebits : (s.draw).ebits = s.ebits := rfl
@[simp] theorem State.draw_outbuf : (s.draw).outbuf = s.outbuf := rfl
@[simp] theorem State.draw_decActive : (s.draw).decActive = s.decActive := rfl
@[simp] theorem State.draw_decDone : (s.draw).decDone = s.decDone := rfl
@[simp] theorem State.draw_dhdr : (s.draw).dhdr = s.dhdr := rfl
@[simp] theorem State.draw_dp : (s.draw).dp = s.dp := rfl
@[simp] theorem State.draw_dhold : (s.draw).dhold = s.dhold := rfl
@[simp] theorem State.draw_dholdv : (s.draw).dholdv = s.dholdv := rfl
@[simp] theorem State.draw_ddead : (s.draw).ddead = s.ddead := rfl
@[simp] theorem State.draw_dnode : (s.draw).dnode = s.dnode := rfl
@[simp] theorem State.draw_decbuf : (s.draw).decbuf = s.decbuf := rfl
@[simp] theorem State.draw_cfg : (s.draw).cfg = s.cfg := rfl
@[simp] theorem State.draw_inReset : (s.draw).inReset = s.inReset := rfl
@[simp] theorem State.draw_prog : (s.draw).prog = s.prog := rfl
@[simp] theorem State.draw_turns : (s.draw).turns = s.turns := rfl
@[simp] theorem State.draw_resp : (s.draw).resp = s.resp := rfl
@[simp] theorem State.draw_draws : (s.draw).draws = s.draws + 1 := rfl

/-! `State.setArg` -/
@[simp] theorem State.setArg_arg (v : Word) : (s.setArg v).arg = v := rfl
@[simp] theorem State.setArg_pcmd (v : Word) : (s.setArg v).pcmd = s.pcmd := rfl
@[simp] theorem State.setArg_parg (v : Word) : (s.setArg v).parg = s.parg := rfl
@[simp] theorem State.setArg_busy (v : Word) : (s.setArg v).busy = s.busy := rfl
@[simp] theorem State.setArg_ovr (v : Word) : (s.setArg v).ovr = s.ovr := rfl
@[simp] theorem State.setArg_err (v : Word) : (s.setArg v).err = s.err := rfl
@[simp] theorem State.setArg_phase (v : Word) : (s.setArg v).phase = s.phase := rfl
@[simp] theorem State.setArg_freq (v : Word) : (s.setArg v).freq = s.freq := rfl
@[simp] theorem State.setArg_total (v : Word) : (s.setArg v).total = s.total := rfl
@[simp] theorem State.setArg_node (v : Word) : (s.setArg v).node = s.node := rfl
@[simp] theorem State.setArg_root (v : Word) : (s.setArg v).root = s.root := rfl
@[simp] theorem State.setArg_code (v : Word) : (s.setArg v).code = s.code := rfl
@[simp] theorem State.setArg_res0 (v : Word) : (s.setArg v).res0 = s.res0 := rfl
@[simp] theorem State.setArg_res1 (v : Word) : (s.setArg v).res1 = s.res1 := rfl
@[simp] theorem State.setArg_encActive (v : Word) : (s.setArg v).encActive = s.encActive := rfl
@[simp] theorem State.setArg_outDone (v : Word) : (s.setArg v).outDone = s.outDone := rfl
@[simp] theorem State.setArg_ebits (v : Word) : (s.setArg v).ebits = s.ebits := rfl
@[simp] theorem State.setArg_outbuf (v : Word) : (s.setArg v).outbuf = s.outbuf := rfl
@[simp] theorem State.setArg_decActive (v : Word) : (s.setArg v).decActive = s.decActive := rfl
@[simp] theorem State.setArg_decDone (v : Word) : (s.setArg v).decDone = s.decDone := rfl
@[simp] theorem State.setArg_dhdr (v : Word) : (s.setArg v).dhdr = s.dhdr := rfl
@[simp] theorem State.setArg_dp (v : Word) : (s.setArg v).dp = s.dp := rfl
@[simp] theorem State.setArg_dhold (v : Word) : (s.setArg v).dhold = s.dhold := rfl
@[simp] theorem State.setArg_dholdv (v : Word) : (s.setArg v).dholdv = s.dholdv := rfl
@[simp] theorem State.setArg_ddead (v : Word) : (s.setArg v).ddead = s.ddead := rfl
@[simp] theorem State.setArg_dnode (v : Word) : (s.setArg v).dnode = s.dnode := rfl
@[simp] theorem State.setArg_decbuf (v : Word) : (s.setArg v).decbuf = s.decbuf := rfl
@[simp] theorem State.setArg_cfg (v : Word) : (s.setArg v).cfg = s.cfg := rfl
@[simp] theorem State.setArg_inReset (v : Word) : (s.setArg v).inReset = s.inReset := rfl
@[simp] theorem State.setArg_prog (v : Word) : (s.setArg v).prog = s.prog := rfl
@[simp] theorem State.setArg_turns (v : Word) : (s.setArg v).turns = s.turns := rfl
@[simp] theorem State.setArg_resp (v : Word) : (s.setArg v).resp = s.resp := rfl
@[simp] theorem State.setArg_draws (v : Word) : (s.setArg v).draws = s.draws := rfl

/-! `State.setProg` -/
@[simp] theorem State.setProg_arg (p : List HostStmt) : (s.setProg p).arg = s.arg := rfl
@[simp] theorem State.setProg_pcmd (p : List HostStmt) : (s.setProg p).pcmd = s.pcmd := rfl
@[simp] theorem State.setProg_parg (p : List HostStmt) : (s.setProg p).parg = s.parg := rfl
@[simp] theorem State.setProg_busy (p : List HostStmt) : (s.setProg p).busy = s.busy := rfl
@[simp] theorem State.setProg_ovr (p : List HostStmt) : (s.setProg p).ovr = s.ovr := rfl
@[simp] theorem State.setProg_err (p : List HostStmt) : (s.setProg p).err = s.err := rfl
@[simp] theorem State.setProg_phase (p : List HostStmt) : (s.setProg p).phase = s.phase := rfl
@[simp] theorem State.setProg_freq (p : List HostStmt) : (s.setProg p).freq = s.freq := rfl
@[simp] theorem State.setProg_total (p : List HostStmt) : (s.setProg p).total = s.total := rfl
@[simp] theorem State.setProg_node (p : List HostStmt) : (s.setProg p).node = s.node := rfl
@[simp] theorem State.setProg_root (p : List HostStmt) : (s.setProg p).root = s.root := rfl
@[simp] theorem State.setProg_code (p : List HostStmt) : (s.setProg p).code = s.code := rfl
@[simp] theorem State.setProg_res0 (p : List HostStmt) : (s.setProg p).res0 = s.res0 := rfl
@[simp] theorem State.setProg_res1 (p : List HostStmt) : (s.setProg p).res1 = s.res1 := rfl
@[simp] theorem State.setProg_encActive (p : List HostStmt) : (s.setProg p).encActive = s.encActive := rfl
@[simp] theorem State.setProg_outDone (p : List HostStmt) : (s.setProg p).outDone = s.outDone := rfl
@[simp] theorem State.setProg_ebits (p : List HostStmt) : (s.setProg p).ebits = s.ebits := rfl
@[simp] theorem State.setProg_outbuf (p : List HostStmt) : (s.setProg p).outbuf = s.outbuf := rfl
@[simp] theorem State.setProg_decActive (p : List HostStmt) : (s.setProg p).decActive = s.decActive := rfl
@[simp] theorem State.setProg_decDone (p : List HostStmt) : (s.setProg p).decDone = s.decDone := rfl
@[simp] theorem State.setProg_dhdr (p : List HostStmt) : (s.setProg p).dhdr = s.dhdr := rfl
@[simp] theorem State.setProg_dp (p : List HostStmt) : (s.setProg p).dp = s.dp := rfl
@[simp] theorem State.setProg_dhold (p : List HostStmt) : (s.setProg p).dhold = s.dhold := rfl
@[simp] theorem State.setProg_dholdv (p : List HostStmt) : (s.setProg p).dholdv = s.dholdv := rfl
@[simp] theorem State.setProg_ddead (p : List HostStmt) : (s.setProg p).ddead = s.ddead := rfl
@[simp] theorem State.setProg_dnode (p : List HostStmt) : (s.setProg p).dnode = s.dnode := rfl
@[simp] theorem State.setProg_decbuf (p : List HostStmt) : (s.setProg p).decbuf = s.decbuf := rfl
@[simp] theorem State.setProg_cfg (p : List HostStmt) : (s.setProg p).cfg = s.cfg := rfl
@[simp] theorem State.setProg_inReset (p : List HostStmt) : (s.setProg p).inReset = s.inReset := rfl
@[simp] theorem State.setProg_prog (p : List HostStmt) : (s.setProg p).prog = p := rfl
@[simp] theorem State.setProg_turns (p : List HostStmt) : (s.setProg p).turns = s.turns := rfl
@[simp] theorem State.setProg_resp (p : List HostStmt) : (s.setProg p).resp = s.resp := rfl
@[simp] theorem State.setProg_draws (p : List HostStmt) : (s.setProg p).draws = s.draws := rfl

/-! `State.resetBlock` -/
@[simp] theorem State.resetBlock_arg : (s.resetBlock).arg = 0#32 := rfl
@[simp] theorem State.resetBlock_pcmd : (s.resetBlock).pcmd = 0#32 := rfl
@[simp] theorem State.resetBlock_parg : (s.resetBlock).parg = 0#32 := rfl
@[simp] theorem State.resetBlock_busy : (s.resetBlock).busy = false := rfl
@[simp] theorem State.resetBlock_ovr : (s.resetBlock).ovr = false := rfl
@[simp] theorem State.resetBlock_err : (s.resetBlock).err = .none := rfl
@[simp] theorem State.resetBlock_phase : (s.resetBlock).phase = .load := rfl
@[simp] theorem State.resetBlock_freq : (s.resetBlock).freq = [] := rfl
@[simp] theorem State.resetBlock_total : (s.resetBlock).total = 0#32 := rfl
@[simp] theorem State.resetBlock_node : (s.resetBlock).node = [] := rfl
@[simp] theorem State.resetBlock_root : (s.resetBlock).root = none := rfl
@[simp] theorem State.resetBlock_code : (s.resetBlock).code = [] := rfl
@[simp] theorem State.resetBlock_res0 : (s.resetBlock).res0 = 0#32 := rfl
@[simp] theorem State.resetBlock_res1 : (s.resetBlock).res1 = 0#32 := rfl
@[simp] theorem State.resetBlock_encActive : (s.resetBlock).encActive = false := rfl
@[simp] theorem State.resetBlock_outDone : (s.resetBlock).outDone = false := rfl
@[simp] theorem State.resetBlock_ebits : (s.resetBlock).ebits = [] := rfl
@[simp] theorem State.resetBlock_outbuf : (s.resetBlock).outbuf = [] := rfl
@[simp] theorem State.resetBlock_decActive : (s.resetBlock).decActive = false := rfl
@[simp] theorem State.resetBlock_decDone : (s.resetBlock).decDone = false := rfl
@[simp] theorem State.resetBlock_dhdr : (s.resetBlock).dhdr = false := rfl
@[simp] theorem State.resetBlock_dp : (s.resetBlock).dp = 0 := rfl
@[simp] theorem State.resetBlock_dhold : (s.resetBlock).dhold = 0#8 := rfl
@[simp] theorem State.resetBlock_dholdv : (s.resetBlock).dholdv = false := rfl
@[simp] theorem State.resetBlock_ddead : (s.resetBlock).ddead = false := rfl
@[simp] theorem State.resetBlock_dnode : (s.resetBlock).dnode = none := rfl
@[simp] theorem State.resetBlock_decbuf : (s.resetBlock).decbuf = [] := rfl
@[simp] theorem State.resetBlock_cfg : (s.resetBlock).cfg = s.cfg := rfl
@[simp] theorem State.resetBlock_inReset : (s.resetBlock).inReset = s.inReset := rfl
@[simp] theorem State.resetBlock_prog : (s.resetBlock).prog = s.prog := rfl
@[simp] theorem State.resetBlock_turns : (s.resetBlock).turns = s.turns := rfl
@[simp] theorem State.resetBlock_resp : (s.resetBlock).resp = s.resp := rfl
@[simp] theorem State.resetBlock_draws : (s.resetBlock).draws = s.draws := rfl

/-! `State.setReset` -/
@[simp] theorem State.setReset_arg (l : Bool) : (s.setReset l).arg = s.arg := rfl
@[simp] theorem State.setReset_pcmd (l : Bool) : (s.setReset l).pcmd = s.pcmd := rfl
@[simp] theorem State.setReset_parg (l : Bool) : (s.setReset l).parg = s.parg := rfl
@[simp] theorem State.setReset_busy (l : Bool) : (s.setReset l).busy = s.busy := rfl
@[simp] theorem State.setReset_ovr (l : Bool) : (s.setReset l).ovr = s.ovr := rfl
@[simp] theorem State.setReset_err (l : Bool) : (s.setReset l).err = s.err := rfl
@[simp] theorem State.setReset_phase (l : Bool) : (s.setReset l).phase = s.phase := rfl
@[simp] theorem State.setReset_freq (l : Bool) : (s.setReset l).freq = s.freq := rfl
@[simp] theorem State.setReset_total (l : Bool) : (s.setReset l).total = s.total := rfl
@[simp] theorem State.setReset_node (l : Bool) : (s.setReset l).node = s.node := rfl
@[simp] theorem State.setReset_root (l : Bool) : (s.setReset l).root = s.root := rfl
@[simp] theorem State.setReset_code (l : Bool) : (s.setReset l).code = s.code := rfl
@[simp] theorem State.setReset_res0 (l : Bool) : (s.setReset l).res0 = s.res0 := rfl
@[simp] theorem State.setReset_res1 (l : Bool) : (s.setReset l).res1 = s.res1 := rfl
@[simp] theorem State.setReset_encActive (l : Bool) : (s.setReset l).encActive = s.encActive := rfl
@[simp] theorem State.setReset_outDone (l : Bool) : (s.setReset l).outDone = s.outDone := rfl
@[simp] theorem State.setReset_ebits (l : Bool) : (s.setReset l).ebits = s.ebits := rfl
@[simp] theorem State.setReset_outbuf (l : Bool) : (s.setReset l).outbuf = s.outbuf := rfl
@[simp] theorem State.setReset_decActive (l : Bool) : (s.setReset l).decActive = s.decActive := rfl
@[simp] theorem State.setReset_decDone (l : Bool) : (s.setReset l).decDone = s.decDone := rfl
@[simp] theorem State.setReset_dhdr (l : Bool) : (s.setReset l).dhdr = s.dhdr := rfl
@[simp] theorem State.setReset_dp (l : Bool) : (s.setReset l).dp = s.dp := rfl
@[simp] theorem State.setReset_dhold (l : Bool) : (s.setReset l).dhold = s.dhold := rfl
@[simp] theorem State.setReset_dholdv (l : Bool) : (s.setReset l).dholdv = s.dholdv := rfl
@[simp] theorem State.setReset_ddead (l : Bool) : (s.setReset l).ddead = s.ddead := rfl
@[simp] theorem State.setReset_dnode (l : Bool) : (s.setReset l).dnode = s.dnode := rfl
@[simp] theorem State.setReset_decbuf (l : Bool) : (s.setReset l).decbuf = s.decbuf := rfl
@[simp] theorem State.setReset_cfg (l : Bool) : (s.setReset l).cfg = s.cfg := rfl
@[simp] theorem State.setReset_inReset (l : Bool) : (s.setReset l).inReset = l := rfl
@[simp] theorem State.setReset_prog (l : Bool) : (s.setReset l).prog = s.prog := rfl
@[simp] theorem State.setReset_turns (l : Bool) : (s.setReset l).turns = s.turns := rfl
@[simp] theorem State.setReset_resp (l : Bool) : (s.setReset l).resp = s.resp := rfl
@[simp] theorem State.setReset_draws (l : Bool) : (s.setReset l).draws = s.draws := rfl

/-! `State.setTurns` -/
@[simp] theorem State.setTurns_arg (ts : List Turn) : (s.setTurns ts).arg = s.arg := rfl
@[simp] theorem State.setTurns_pcmd (ts : List Turn) : (s.setTurns ts).pcmd = s.pcmd := rfl
@[simp] theorem State.setTurns_parg (ts : List Turn) : (s.setTurns ts).parg = s.parg := rfl
@[simp] theorem State.setTurns_busy (ts : List Turn) : (s.setTurns ts).busy = s.busy := rfl
@[simp] theorem State.setTurns_ovr (ts : List Turn) : (s.setTurns ts).ovr = s.ovr := rfl
@[simp] theorem State.setTurns_err (ts : List Turn) : (s.setTurns ts).err = s.err := rfl
@[simp] theorem State.setTurns_phase (ts : List Turn) : (s.setTurns ts).phase = s.phase := rfl
@[simp] theorem State.setTurns_freq (ts : List Turn) : (s.setTurns ts).freq = s.freq := rfl
@[simp] theorem State.setTurns_total (ts : List Turn) : (s.setTurns ts).total = s.total := rfl
@[simp] theorem State.setTurns_node (ts : List Turn) : (s.setTurns ts).node = s.node := rfl
@[simp] theorem State.setTurns_root (ts : List Turn) : (s.setTurns ts).root = s.root := rfl
@[simp] theorem State.setTurns_code (ts : List Turn) : (s.setTurns ts).code = s.code := rfl
@[simp] theorem State.setTurns_res0 (ts : List Turn) : (s.setTurns ts).res0 = s.res0 := rfl
@[simp] theorem State.setTurns_res1 (ts : List Turn) : (s.setTurns ts).res1 = s.res1 := rfl
@[simp] theorem State.setTurns_encActive (ts : List Turn) : (s.setTurns ts).encActive = s.encActive := rfl
@[simp] theorem State.setTurns_outDone (ts : List Turn) : (s.setTurns ts).outDone = s.outDone := rfl
@[simp] theorem State.setTurns_ebits (ts : List Turn) : (s.setTurns ts).ebits = s.ebits := rfl
@[simp] theorem State.setTurns_outbuf (ts : List Turn) : (s.setTurns ts).outbuf = s.outbuf := rfl
@[simp] theorem State.setTurns_decActive (ts : List Turn) : (s.setTurns ts).decActive = s.decActive := rfl
@[simp] theorem State.setTurns_decDone (ts : List Turn) : (s.setTurns ts).decDone = s.decDone := rfl
@[simp] theorem State.setTurns_dhdr (ts : List Turn) : (s.setTurns ts).dhdr = s.dhdr := rfl
@[simp] theorem State.setTurns_dp (ts : List Turn) : (s.setTurns ts).dp = s.dp := rfl
@[simp] theorem State.setTurns_dhold (ts : List Turn) : (s.setTurns ts).dhold = s.dhold := rfl
@[simp] theorem State.setTurns_dholdv (ts : List Turn) : (s.setTurns ts).dholdv = s.dholdv := rfl
@[simp] theorem State.setTurns_ddead (ts : List Turn) : (s.setTurns ts).ddead = s.ddead := rfl
@[simp] theorem State.setTurns_dnode (ts : List Turn) : (s.setTurns ts).dnode = s.dnode := rfl
@[simp] theorem State.setTurns_decbuf (ts : List Turn) : (s.setTurns ts).decbuf = s.decbuf := rfl
@[simp] theorem State.setTurns_cfg (ts : List Turn) : (s.setTurns ts).cfg = s.cfg := rfl
@[simp] theorem State.setTurns_inReset (ts : List Turn) : (s.setTurns ts).inReset = s.inReset := rfl
@[simp] theorem State.setTurns_prog (ts : List Turn) : (s.setTurns ts).prog = s.prog := rfl
@[simp] theorem State.setTurns_turns (ts : List Turn) : (s.setTurns ts).turns = ts := rfl
@[simp] theorem State.setTurns_resp (ts : List Turn) : (s.setTurns ts).resp = s.resp := rfl
@[simp] theorem State.setTurns_draws (ts : List Turn) : (s.setTurns ts).draws = s.draws := rfl

/-! `State.resetOf` -/
@[simp] theorem State.resetOf_arg (c : Params) : (State.resetOf c).arg = 0#32 := rfl
@[simp] theorem State.resetOf_pcmd (c : Params) : (State.resetOf c).pcmd = 0#32 := rfl
@[simp] theorem State.resetOf_parg (c : Params) : (State.resetOf c).parg = 0#32 := rfl
@[simp] theorem State.resetOf_busy (c : Params) : (State.resetOf c).busy = false := rfl
@[simp] theorem State.resetOf_ovr (c : Params) : (State.resetOf c).ovr = false := rfl
@[simp] theorem State.resetOf_err (c : Params) : (State.resetOf c).err = .none := rfl
@[simp] theorem State.resetOf_phase (c : Params) : (State.resetOf c).phase = .load := rfl
@[simp] theorem State.resetOf_freq (c : Params) : (State.resetOf c).freq = [] := rfl
@[simp] theorem State.resetOf_total (c : Params) : (State.resetOf c).total = 0#32 := rfl
@[simp] theorem State.resetOf_node (c : Params) : (State.resetOf c).node = [] := rfl
@[simp] theorem State.resetOf_root (c : Params) : (State.resetOf c).root = none := rfl
@[simp] theorem State.resetOf_code (c : Params) : (State.resetOf c).code = [] := rfl
@[simp] theorem State.resetOf_res0 (c : Params) : (State.resetOf c).res0 = 0#32 := rfl
@[simp] theorem State.resetOf_res1 (c : Params) : (State.resetOf c).res1 = 0#32 := rfl
@[simp] theorem State.resetOf_encActive (c : Params) : (State.resetOf c).encActive = false := rfl
@[simp] theorem State.resetOf_outDone (c : Params) : (State.resetOf c).outDone = false := rfl
@[simp] theorem State.resetOf_ebits (c : Params) : (State.resetOf c).ebits = [] := rfl
@[simp] theorem State.resetOf_outbuf (c : Params) : (State.resetOf c).outbuf = [] := rfl
@[simp] theorem State.resetOf_decActive (c : Params) : (State.resetOf c).decActive = false := rfl
@[simp] theorem State.resetOf_decDone (c : Params) : (State.resetOf c).decDone = false := rfl
@[simp] theorem State.resetOf_dhdr (c : Params) : (State.resetOf c).dhdr = false := rfl
@[simp] theorem State.resetOf_dp (c : Params) : (State.resetOf c).dp = 0 := rfl
@[simp] theorem State.resetOf_dhold (c : Params) : (State.resetOf c).dhold = 0#8 := rfl
@[simp] theorem State.resetOf_dholdv (c : Params) : (State.resetOf c).dholdv = false := rfl
@[simp] theorem State.resetOf_ddead (c : Params) : (State.resetOf c).ddead = false := rfl
@[simp] theorem State.resetOf_dnode (c : Params) : (State.resetOf c).dnode = none := rfl
@[simp] theorem State.resetOf_decbuf (c : Params) : (State.resetOf c).decbuf = [] := rfl
@[simp] theorem State.resetOf_cfg (c : Params) : (State.resetOf c).cfg = c := rfl
@[simp] theorem State.resetOf_inReset (c : Params) : (State.resetOf c).inReset = false := rfl
@[simp] theorem State.resetOf_prog (c : Params) : (State.resetOf c).prog = [] := rfl
@[simp] theorem State.resetOf_turns (c : Params) : (State.resetOf c).turns = [] := rfl
@[simp] theorem State.resetOf_resp (c : Params) : (State.resetOf c).resp = .none := rfl
@[simp] theorem State.resetOf_draws (c : Params) : (State.resetOf c).draws = 0 := rfl

end Sys2Proof.Machine
end

