-- ==== Sys2Proof/Laws/Ops.lean ====
section
/-! SUPPORT. What each shared operation can do, said once: the gate of the error-blocked state, sub-steps of a command, the
search for a symbol, emission and the walker, the queue, packing, and the bus. -/

namespace Sys2Proof.Machine

/-! ### Errors -/

@[simp] theorem raise_eq (s : State) (e : ErrCode) : raise s e = .next (s.raise e) := rfl

/-- Raising while ERR = 0 sets ERR and nothing else (R201). -/
theorem State.raise_of_clear {s : State} (h : s.err = .none) (e : ErrCode) : s.raise e = { s with err := e } := by
  simp [State.raise, h]

/-- Raising while ERR ≠ 0 changes nothing: the first error wins (R201). -/
theorem State.raise_of_error {s : State} (h : s.err ≠ .none) (e : ErrCode) : s.raise e = s := by
  simp [State.raise, h]

theorem unlessBlocked_of_clear {s : State} (h : s.err = .none) (r : Result) : unlessBlocked s r = r := if_pos h

theorem unlessBlocked_of_error {s : State} (h : s.err ≠ .none) (r : Result) : unlessBlocked s r = .next s := if_neg h

/-- The two ways a gated command answers a next state (R202). -/
theorem unlessBlocked_next {s t : State} {r : Result} (h : unlessBlocked s r = .next t) :
    (s.err = .none ∧ r = .next t) ∨ (s.err ≠ .none ∧ t = s) := by
  unfold unlessBlocked at h
  split at h
  · exact .inl ⟨‹_›, h⟩
  · cases h
    exact .inr ⟨‹_›, rfl⟩

/-- A gated command faults only where its rule does. -/
theorem unlessBlocked_fault {s : State} {r : Result} {f : Fault} (h : unlessBlocked s r = .fault f) :
    s.err = .none ∧ r = .fault f := by
  unfold unlessBlocked at h
  split at h
  · exact ⟨‹_›, h⟩
  · cases h

/-! ### Sub-steps -/

@[simp] theorem Flow.andThen_go (s : State) (k : State → Flow) : (Flow.go s).andThen k = k s := rfl
@[simp] theorem Flow.andThen_raised (s : State) (k : State → Flow) : (Flow.raised s).andThen k = .raised s := rfl
@[simp] theorem Flow.andThen_broken (r : Fault) (k : State → Flow) : (Flow.broken r).andThen k = .broken r := rfl
@[simp] theorem Flow.result_go (s : State) : (Flow.go s).result = .next s := rfl
@[simp] theorem Flow.result_raised (s : State) : (Flow.raised s).result = .next s := rfl
@[simp] theorem Flow.result_broken (r : Fault) : (Flow.broken r).result = .fault r := rfl

theorem Flow.andThen_eq_go {f : Flow} {k : State → Flow} {t : State} (h : f.andThen k = .go t) :
    ∃ m, f = .go m ∧ k m = .go t := by
  cases f with
  | go m => exact ⟨m, rfl, h⟩
  | raised m => cases h
  | broken r => cases h

theorem Flow.andThen_eq_raised {f : Flow} {k : State → Flow} {t : State} (h : f.andThen k = .raised t) :
    f = .raised t ∨ ∃ m, f = .go m ∧ k m = .raised t := by
  cases f with
  | go m => exact .inr ⟨m, rfl, h⟩
  | raised m => exact .inl h
  | broken r => cases h

theorem Flow.andThen_eq_broken {f : Flow} {k : State → Flow} {r : Fault} (h : f.andThen k = .broken r) :
    f = .broken r ∨ ∃ m, f = .go m ∧ k m = .broken r := by
  cases f with
  | go m => exact .inr ⟨m, rfl, h⟩
  | raised m => cases h
  | broken q => exact .inl h

theorem Flow.result_eq_next {f : Flow} {t : State} (h : f.result = .next t) : f = .go t ∨ f = .raised t := by
  cases f with
  | go s => cases h; exact .inl rfl
  | raised s => cases h; exact .inr rfl
  | broken r => cases h

/-- A command that has completed has cleared BUSY (R100). -/
theorem finishCommand_next {r : Result} {t : State} (h : finishCommand r = .next t) :
    ∃ m, r = .next m ∧ t = m.finish := by
  cases r with
  | next m => cases h; exact ⟨m, rfl, rfl⟩
  | fault f => cases h
  | refused x => cases h

/-! ### The search for a symbol -/

/-- `Find(sym)` is NONE exactly when no entry holds the symbol (R144). -/
theorem find_eq_none {freq : List FreqEntry} {x : Symbol} : find freq x = none ↔ ∀ e ∈ freq, e.sym ≠ x := by
  simp [find, List.findIdx?_eq_none_iff]

/-- `Find(sym) = i` names an entry that holds the symbol, the first one (R144). -/
theorem find_eq_some {freq : List FreqEntry} {x : Symbol} {i : Nat} (h : find freq x = some i) :
    ∃ e, freq[i]? = some e ∧ e.sym = x ∧ ∀ j < i, ∀ e', freq[j]? = some e' → e'.sym ≠ x := by
  obtain ⟨hi, hx, hmin⟩ := List.findIdx?_eq_some_iff_getElem.mp h
  refine ⟨freq[i], List.getElem?_eq_getElem hi, by simpa using hx, ?_⟩
  intro j hj e' he'
  obtain ⟨hjl, rfl⟩ := List.getElem?_eq_some_iff.mp he'
  simpa using hmin j hj

/-! ### Emission and the walker: what they leave unchanged (R182 to R184) -/

/-- The state after a sub-step of the walker: only ERR, DDEAD, DNODE and DECBUF may differ. -/
def WalkFrame (s t : State) : Prop :=
  t = { s with err := t.err, ddead := t.ddead, dnode := t.dnode, decbuf := t.decbuf }

theorem WalkFrame.refl (s : State) : WalkFrame s s := rfl

theorem WalkFrame.trans {s t u : State} (h : WalkFrame s t) (k : WalkFrame t u) : WalkFrame s u := by
  unfold WalkFrame at *
  rw [k, h]

/-- What `Emit` can do (R184). -/
theorem emit_cases (x : Symbol) (s : State) :
    (s.decbuf.length = s.cfg.decSyms ∧ emit x s = .raised (s.raise .decOverflow)) ∨
      (s.decbuf.length ≠ s.cfg.decSyms ∧ emit x s = .go (s.pushSymbol x)) := by
  unfold emit
  split
  · exact .inl ⟨‹_›, rfl⟩
  · exact .inr ⟨‹_›, rfl⟩

theorem stepInner_frame {b : Bool} {s t : State} (h : stepInner b s = .go t ∨ stepInner b s = .raised t) :
    WalkFrame s t := by
  unfold stepInner at h
  split at h
  · simp at h
  · split at h
    · simp at h
    · rename_i x _ _
      rcases emit_cases x s with ⟨_, he⟩ | ⟨_, he⟩ <;> simp only [he, Flow.andThen_go, Flow.andThen_raised] at h
      · rcases h with h | h <;> cases h
        rfl
      · rcases h with h | h <;> cases h
        rfl
    · rcases h with h | h <;> cases h
      rfl

/-- A walker step changes only ERR, DDEAD, DNODE and DECBUF. -/
theorem stepBit_frame {b : Bool} {s t : State} (h : stepBit b s = .go t ∨ stepBit b s = .raised t) :
    WalkFrame s t := by
  unfold stepBit at h
  split at h
  · rcases h with h | h <;> cases h
    rfl
  · split at h
    · rcases h with h | h <;> cases h
      rfl
    · split at h
      · simp at h
      · rename_i x _ _
        split at h
        · rcases h with h | h <;> cases h
          rfl
        · rcases emit_cases x s with ⟨_, he⟩ | ⟨_, he⟩ <;> rw [he] at h <;> rcases h with h | h <;> cases h <;> rfl
      · exact stepInner_frame h

/-- A walk changes only ERR, DDEAD, DNODE and DECBUF. -/
theorem walkBits_frame {bs : Bits} {s t : State} (h : walkBits bs s = .go t ∨ walkBits bs s = .raised t) :
    WalkFrame s t := by
  induction bs generalizing s with
  | nil =>
    rcases h with h | h <;> cases h
    rfl
  | cons b bs ih =>
    rcases h with h | h
    · obtain ⟨m, hm, hk⟩ := Flow.andThen_eq_go h
      exact (stepBit_frame (.inl hm)).trans (ih (.inl hk))
    · rcases Flow.andThen_eq_raised h with hm | ⟨m, hm, hk⟩
      · exact stepBit_frame (.inr hm)
      · exact (stepBit_frame (.inl hm)).trans (ih (.inr hk))

/-- Walking one string after another. -/
theorem walkBits_append (as bs : Bits) (s : State) :
    walkBits (as ++ bs) s = (walkBits as s).andThen (walkBits bs) := by
  induction as generalizing s with
  | nil => rfl
  | cons a as ih =>
    simp only [List.cons_append, walkBits]
    cases stepBit a s with
    | go m => simp [ih]
    | raised m => rfl
    | broken r => rfl

/-! ### The queue -/

theorem foldl_first_mem (e : QEntry) (es : List QEntry) : es.foldl QEntry.first e ∈ e :: es := by
  induction es generalizing e with
  | nil => simp
  | cons a as ih =>
    have h := ih (e.first a)
    rw [List.foldl_cons]
    rcases List.mem_cons.mp h with h | h
    · rw [h]
      unfold QEntry.first
      split <;> simp
    · simp [h]

/-- `PopMin` takes one element out of the queue, and leaves the others. -/
theorem popMin_perm {q rest : List QEntry} {m : QEntry} (h : popMin q = some (m, rest)) : (m :: rest).Perm q := by
  cases q with
  | nil => cases h
  | cons e es =>
    cases h
    exact (List.perm_cons_erase (foldl_first_mem e es)).symm

theorem popMin_eq_none {q : List QEntry} : popMin q = none ↔ q = [] := by
  cases q <;> simp [popMin]

theorem popMin_length {q rest : List QEntry} {m : QEntry} (h : popMin q = some (m, rest)) :
    rest.length + 1 = q.length := by
  simpa using (popMin_perm h).length_eq

/-- What a merge loop can do in one round: stop with at most one element left, merge the two popped elements, or stop on a
sum that does not fit (R120). -/
theorem mergeLoop_succ (fuel : Nat) (nodes : List Node) (q : List QEntry) :
    (q.length ≤ 1 ∧ mergeLoop (fuel + 1) nodes q = .ok (nodes, q)) ∨
    ∃ x q1 y q2, popMin q = some (x, q1) ∧ popMin q1 = some (y, q2) ∧
      ((x.w.toNat + y.w.toNat < 2 ^ 32 ∧ mergeLoop (fuel + 1) nodes q =
          mergeLoop fuel (nodes ++ [.int (x.w + y.w) x.k y.k]) (q2 ++ [⟨x.w + y.w, nodes.length⟩])) ∨
        (2 ^ 32 ≤ x.w.toNat + y.w.toNat ∧ mergeLoop (fuel + 1) nodes q = .error .weightOverflow)) := by
  rcases hx : popMin q with _ | ⟨x, q1⟩
  · rw [popMin_eq_none.mp hx]
    exact .inl ⟨by simp, by simp [mergeLoop, popMin]⟩
  · rcases hy : popMin q1 with _ | ⟨y, q2⟩
    · have hl := popMin_length hx
      rw [popMin_eq_none.mp hy] at hl
      exact .inl ⟨by simp at hl; omega, by simp only [mergeLoop, hx, hy]⟩
    · refine .inr ⟨x, q1, y, q2, rfl, hy, ?_⟩
      by_cases hw : x.w.toNat + y.w.toNat < 2 ^ 32
      · exact .inl ⟨hw, by simp only [mergeLoop, hx, hy, if_pos hw]⟩
      · exact .inr ⟨by omega, by simp only [mergeLoop, hx, hy, if_neg hw]⟩

/-- The loop keeps the nodes it is given and adds one for each element the queue loses (R120, R124). -/
theorem mergeLoop_shape {fuel : Nat} {nodes ns : List Node} {q q' : List QEntry}
    (h : mergeLoop fuel nodes q = .ok (ns, q')) :
    ∃ added, ns = nodes ++ added ∧ added.length + q'.length = q.length ∧ (q.length ≤ fuel + 1 → q'.length ≤ 1) := by
  induction fuel generalizing nodes q with
  | zero =>
    cases h
    exact ⟨[], by simp, by simp, fun h => h⟩
  | succ fuel ih =>
    rcases mergeLoop_succ fuel nodes q with ⟨hq, he⟩ | ⟨x, q1, y, q2, hx, hy, ⟨_, he⟩ | ⟨_, he⟩⟩
    · rw [he] at h
      cases h
      exact ⟨[], by simp, by simp, fun _ => hq⟩
    · rw [he] at h
      obtain ⟨added, rfl, hlen, hone⟩ := ih h
      have h1 := popMin_length hx
      have h2 := popMin_length hy
      refine ⟨.int (x.w + y.w) x.k y.k :: added, by simp, ?_, ?_⟩
      · simp at hlen ⊢
        omega
      · intro hq
        apply hone
        simp
        omega
    · rw [he] at h
      cases h

theorem seedQueue_length (start : Nat) (freq : List FreqEntry) : (seedQueue start freq).length = freq.length := by
  induction freq generalizing start with
  | nil => rfl
  | cons e es ih => simp [seedQueue, ih]

/-- The sizes of a built tree (R35): n leaves and n − 1 internal nodes. -/
theorem buildTree_length {freq : List FreqEntry} {nodes : List Node} {root : Option Nat}
    (h : buildTree freq = .ok (nodes, root)) : nodes.length = nodeCount freq.length := by
  unfold buildTree at h
  split at h
  · cases h
  · rename_i ns q hm
    cases h
    obtain ⟨added, rfl, hlen, hone⟩ := mergeLoop_shape hm
    have hq := hone (by rw [seedQueue_length]; omega)
    rw [seedQueue_length] at hlen
    cases freq with
    | nil => simp_all [leaves, nodeCount]
    | cons e es =>
      have hne : 1 ≤ q.length := by
        rcases Nat.eq_zero_or_pos q.length with h0 | h0
        · exfalso
          exact mergeLoop_nonempty hm (by simp [seedQueue]) (List.length_eq_zero_iff.mp h0)
        · exact h0
      simp [leaves, nodeCount] at *
      omega
where
  mergeLoop_nonempty {fuel : Nat} {nodes ns : List Node} {q q' : List QEntry}
      (h : mergeLoop fuel nodes q = .ok (ns, q')) (hq : q ≠ []) : q' ≠ [] := by
    induction fuel generalizing nodes q with
    | zero => cases h; exact hq
    | succ fuel ih =>
      rcases mergeLoop_succ fuel nodes q with ⟨_, he⟩ | ⟨x, q1, y, q2, _, _, ⟨_, he⟩ | ⟨_, he⟩⟩
      · rw [he] at h
        cases h
        exact hq
      · rw [he] at h
        exact ih h (by simp)
      · rw [he] at h
        cases h

/-! ### Packing (R65, R168) -/

/-- Eight bits are one byte. -/
theorem pack_length (k : Nat) (bits : Bits) (h : bits.length = 8 * k) : (pack bits).length = k := by
  induction k generalizing bits with
  | zero =>
    rw [List.length_eq_zero_iff.mp (by omega : bits.length = 0)]
    rfl
  | succ k ih =>
    match bits, h with
    | b7 :: b6 :: b5 :: b4 :: b3 :: b2 :: b1 :: b0 :: rest, h =>
      simp only [pack, List.length_cons]
      rw [ih rest (by simp at h; omega)]

/-! ### The bus -/

/-- What an admitted read can do: answer with the register's value, or with a free value (R48). -/
theorem readReg_cases (r : Reg) (s : State) :
    (readReg r s = s.respond (.data (s.reg r))) ∨
      (s.busy = true ∧ r.unspecifiedWhileBusy = true ∧ readReg r s = s.draw.respond (.data (Config.busyRead s.draws))) := by
  unfold readReg
  split
  · rename_i h
    simp at h
    exact .inr ⟨h.1, h.2, rfl⟩
  · exact .inl rfl

/-- What an admitted write can do (R23, R24, R63). -/
theorem writeReg_cases (r : Reg) (v : Word) (s : State) :
    (r = .cmd ∧ s.busy = false ∧ writeReg r v s = (s.issue v).respond .done) ∨
    (r = .cmd ∧ s.busy = true ∧ writeReg r v s = s.overrun.respond .done) ∨
    (r = .arg ∧ writeReg r v s = (s.setArg v).respond .done) ∨
    (r ≠ .cmd ∧ r ≠ .arg ∧ writeReg r v s = s.respond .done) := by
  cases r <;> cases h : s.busy <;> simp [writeReg, h]

/-- What a host access can do when it completes: miss the window, be answered by a bus error, read a register or write one. -/
theorem busAccess_cases {op : BusOp} {s t : State} (h : busAccess op s = .next t) :
    t = s.respond .unselected ∨ t = s.respond .busError ∨ (∃ r, t = readReg r s) ∨ ∃ r v, t = writeReg r v s := by
  cases op with
  | read addr size =>
    simp only [busAccess] at h
    split at h
    · cases h; exact .inl rfl
    · split at h
      · cases h
      · cases h
        unfold windowRead
        split
        · exact .inr (.inr (.inl ⟨_, rfl⟩))
        · exact .inr (.inl rfl)
  | write addr size v =>
    simp only [busAccess] at h
    split at h
    · cases h; exact .inl rfl
    · split at h
      · cases h
      · cases h
        unfold windowWrite
        split
        · exact .inr (.inr (.inr ⟨_, _, rfl⟩))
        · exact .inr (.inl rfl)

theorem afterAccess_next {r : Result} {k : State → State} {t : State} (h : afterAccess r k = .next t) :
    ∃ m, r = .next m ∧ t = k m := by
  cases r with
  | next m => cases h; exact ⟨m, rfl, rfl⟩
  | fault f => cases h
  | refused x => cases h

end Sys2Proof.Machine
end

