-- ==== Sys2Proof/Laws/Memory.lean ====
section
/-! SUPPORT. Every write to a memory keeps its canonical form: a list of exactly its length within its capacity
(10_state.md R31, R34, R39, R41, R46, R49). -/

namespace Sys2Proof.Machine

/-- Reset memories are empty (R230). -/
theorem memory_wf_resetOf (c : Params) : Memory.wf (State.resetOf c) := by
  simp [Memory.wf]

/-- FREQ grows by one entry below its capacity (R110). -/
theorem memory_wf_appendFreq {s : State} (h : Memory.wf s) (hl : s.freq.length ≠ s.cfg.maxLeaves) (x : Symbol) (c : Word) :
    Memory.wf (s.appendFreq x c) := by
  simp only [Memory.wf, State.appendFreq_freq, State.appendFreq_node, State.appendFreq_ebits, State.appendFreq_outbuf,
    State.appendFreq_decbuf, State.appendFreq_cfg, List.length_append, List.length_singleton] at *
  omega

/-- NODE takes the tree of FREQ (R120, R124). -/
theorem memory_wf_setTree {s : State} (h : Memory.wf s) {ns : List Node} {r : Option Nat}
    (hb : buildTree s.freq = .ok (ns, r)) : Memory.wf (s.setTree ns r) := by
  have hl := buildTree_length hb
  unfold nodeCount at hl
  simp only [Memory.wf, State.setTree_freq, State.setTree_node, State.setTree_ebits, State.setTree_outbuf,
    State.setTree_decbuf, State.setTree_cfg, Params.maxNodes] at *
  split at hl <;> omega

/-- EBITS grows only as far as the payload fits (R163). -/
theorem memory_wf_appendBits {s : State} (h : Memory.wf s) {c : Bits}
    (hc : ¬ payloadBytes (s.ebits.length + c.length) > s.cfg.outBytes) : Memory.wf (s.appendBits c) := by
  simp only [Memory.wf, State.appendBits_freq, State.appendBits_node, State.appendBits_ebits, State.appendBits_outbuf,
    State.appendBits_decbuf, State.appendBits_cfg, List.length_append, payloadBytes] at *
  omega

/-- The payload has (b div 8) + 2 bytes for b ≥ 1 code bits, none for b = 0 (R168). -/
theorem payload_length (bits : Bits) :
    (payload bits).length = if bits.length = 0 then 0 else bits.length / 8 + 2 := by
  unfold payload
  split
  · rfl
  · rw [List.length_cons, pack_length (bits.length / 8 + 1)]
    simp only [List.length_append, List.length_replicate, padding]
    omega

/-- OUTBUF takes a payload that fits (R163, R166). -/
theorem memory_wf_closeEnc {s : State} (h : Memory.wf s) (hc : 2 ≤ s.cfg.outBytes) :
    Memory.wf (s.closeEnc (payload s.ebits)) := by
  have hl := payload_length s.ebits
  simp only [Memory.wf, State.closeEnc_freq, State.closeEnc_node, State.closeEnc_ebits, State.closeEnc_outbuf,
    State.closeEnc_decbuf, State.closeEnc_cfg] at *
  split at hl <;> omega

/-- DECBUF grows by one symbol below its capacity (R184). -/
theorem memory_wf_pushSymbol {s : State} (h : Memory.wf s) (hl : s.decbuf.length ≠ s.cfg.decSyms) (x : Symbol) :
    Memory.wf (s.pushSymbol x) := by
  simp only [Memory.wf, State.pushSymbol_freq, State.pushSymbol_node, State.pushSymbol_ebits, State.pushSymbol_outbuf,
    State.pushSymbol_decbuf, State.pushSymbol_cfg, List.length_append, List.length_singleton] at *
  omega

end Sys2Proof.Machine
end

