-- ==== Sys2Proof/Laws/PerInstr.lean ====
section
/-! SUPPORT. A statement about every command as syntax, one lemma per constructor. The family TableRow: the word of a command
matches its own row of spec/opcode_table.json (30_encoding.md R87, R88), whatever its operand. -/

namespace Sys2Proof.Laws.TableRow

/-- The row of spec/opcode_table.json a command belongs to. -/
def rowOf : Instr → OpcodeRow
  | .nop => ⟨0x00000000#32, 0xFFFFFFFF#32⟩
  | .clear => ⟨0x01000000#32, 0xFFFFFFFF#32⟩
  | .errClear => ⟨0x02000000#32, 0xFFFFFFFF#32⟩
  | .freqLoad _ => ⟨0x10000000#32, 0xFFE00000#32⟩
  | .freqRead _ => ⟨0x11000000#32, 0xFFFF8000#32⟩
  | .build => ⟨0x20000000#32, 0xFFFFFFFF#32⟩
  | .nodeRead _ => ⟨0x21000000#32, 0xFFFF8000#32⟩
  | .gen => ⟨0x30000000#32, 0xFFFFFFFF#32⟩
  | .codeFind _ => ⟨0x31000000#32, 0xFFE00000#32⟩
  | .codeRead _ => ⟨0x32000000#32, 0xFFFF8000#32⟩
  | .encStart => ⟨0x40000000#32, 0xFFFFFFFF#32⟩
  | .encSym _ => ⟨0x41000000#32, 0xFFE00000#32⟩
  | .encFinish => ⟨0x42000000#32, 0xFFFFFFFF#32⟩
  | .outRead _ => ⟨0x43000000#32, 0xFF000000#32⟩
  | .decStart => ⟨0x50000000#32, 0xFFFFFFFF#32⟩
  | .decByte _ => ⟨0x51000000#32, 0xFFFFFF00#32⟩
  | .decFinish => ⟨0x52000000#32, 0xFFFFFFFF#32⟩
  | .decRead _ => ⟨0x53000000#32, 0xFF000000#32⟩

/-- The command's row is in the table, and its word matches the row. -/
def Statement (i : Instr) : Prop := rowOf i ∈ opcodeRows ∧ (rowOf i).matches (encode i) = true

/-- The mask of format S keeps the opcode and the reserved bits of a format S word, and nothing of its symbol (R82). -/
theorem wordS_masked (op : BitVec 8) (x : Symbol) : wordS op x &&& 0xFFE00000#32 = place op 24 := by
  unfold wordS place
  ext i hi
  interval_cases i <;> simp

/-- The same for format X (R83). -/
theorem wordX_masked (op : BitVec 8) (x : Nat) : wordX op x &&& 0xFFFF8000#32 = place op 24 := by
  unfold wordX place
  ext i hi
  interval_cases i <;> simp

/-- The same for format L (R84). -/
theorem wordL_masked (op : BitVec 8) (x : Nat) : wordL op x &&& 0xFF000000#32 = place op 24 := by
  unfold wordL place
  ext i hi
  interval_cases i <;> simp

/-- The same for format B (R85). -/
theorem wordB_masked (op : BitVec 8) (x : Byte) : wordB op x &&& 0xFFFFFF00#32 = place op 24 := by
  unfold wordB place
  ext i hi
  interval_cases i <;> simp

theorem nop : Statement .nop := ⟨by decide, by decide⟩
theorem clear : Statement .clear := ⟨by decide, by decide⟩
theorem errClear : Statement .errClear := ⟨by decide, by decide⟩
theorem build : Statement .build := ⟨by decide, by decide⟩
theorem gen : Statement .gen := ⟨by decide, by decide⟩
theorem encStart : Statement .encStart := ⟨by decide, by decide⟩
theorem encFinish : Statement .encFinish := ⟨by decide, by decide⟩
theorem decStart : Statement .decStart := ⟨by decide, by decide⟩
theorem decFinish : Statement .decFinish := ⟨by decide, by decide⟩

theorem freqLoad (sym : Symbol) : Statement (.freqLoad sym) :=
  ⟨by simp [rowOf, opcodeRows], by simp only [OpcodeRow.matches, encode, rowOf, wordS_masked]; decide⟩

theorem codeFind (sym : Symbol) : Statement (.codeFind sym) :=
  ⟨by simp [rowOf, opcodeRows], by simp only [OpcodeRow.matches, encode, rowOf, wordS_masked]; decide⟩

theorem encSym (sym : Symbol) : Statement (.encSym sym) :=
  ⟨by simp [rowOf, opcodeRows], by simp only [OpcodeRow.matches, encode, rowOf, wordS_masked]; decide⟩

theorem freqRead (idx : Nat) : Statement (.freqRead idx) :=
  ⟨by simp [rowOf, opcodeRows], by simp only [OpcodeRow.matches, encode, rowOf, wordX_masked]; decide⟩

theorem nodeRead (idx : Nat) : Statement (.nodeRead idx) :=
  ⟨by simp [rowOf, opcodeRows], by simp only [OpcodeRow.matches, encode, rowOf, wordX_masked]; decide⟩

theorem codeRead (idx : Nat) : Statement (.codeRead idx) :=
  ⟨by simp [rowOf, opcodeRows], by simp only [OpcodeRow.matches, encode, rowOf, wordX_masked]; decide⟩

theorem outRead (idx : Nat) : Statement (.outRead idx) :=
  ⟨by simp [rowOf, opcodeRows], by simp only [OpcodeRow.matches, encode, rowOf, wordL_masked]; decide⟩

theorem decRead (idx : Nat) : Statement (.decRead idx) :=
  ⟨by simp [rowOf, opcodeRows], by simp only [OpcodeRow.matches, encode, rowOf, wordL_masked]; decide⟩

theorem decByte (byte : Byte) : Statement (.decByte byte) :=
  ⟨by simp [rowOf, opcodeRows], by simp only [OpcodeRow.matches, encode, rowOf, wordB_masked]; decide⟩

end Sys2Proof.Laws.TableRow
end

