-- ==== Sys2Proof/Laws/Step.lean ====
section
/-! SUPPORT. What a step can do, said once, and the packaged proof that every step keeps a property. -/

namespace Sys2Proof.Machine

/-- What the Core can do in its turn (40_control.md R100, 70_reset_and_hazards.md R230). -/
theorem coreTurn_cases {s t : State} (h : coreTurn s = .next t) :
    ((s.busy = false ∨ s.inReset = true) ∧ t = s) ∨
    (s.busy = true ∧ s.inReset = false ∧ ∃ i m, decode s.pcmd = .ok i ∧ exec i s = .next m ∧ t = m.finish) ∨
    (s.busy = true ∧ s.inReset = false ∧ ∃ e, decode s.pcmd = .error e ∧ t = (s.raise .illegalCmd).finish) := by
  unfold coreTurn at h
  split at h
  · rename_i hb
    simp at hb
    obtain ⟨m, hm, rfl⟩ := finishCommand_next h
    unfold execute at hm
    split at hm
    · exact .inr (.inl ⟨hb.1, hb.2, _, m, ‹_›, hm, rfl⟩)
    · cases hm
      exact .inr (.inr ⟨hb.1, hb.2, _, ‹_›, rfl⟩)
  · rename_i hb
    cases h
    refine .inl ⟨?_, rfl⟩
    cases hs : s.busy <;> simp_all

/-- What the host can do in its turn: nothing, or one bus access after which its program changes (30_encoding.md R91, R92). -/
theorem hostTurn_cases {s t : State} (h : hostTurn s = .next t) :
    t = s ∨ ∃ op m, busAccess op s = .next m ∧ (t = m ∨ ∃ p, t = m.setProg p) := by
  unfold hostTurn at h
  split at h
  · cases h; exact .inl rfl
  · obtain ⟨m, hm, rfl⟩ := afterAccess_next h
    exact .inr ⟨_, m, hm, .inr ⟨_, rfl⟩⟩
  · obtain ⟨m, hm, rfl⟩ := afterAccess_next h
    refine .inr ⟨_, m, hm, ?_⟩
    unfold afterWait
    split
    · split
      · exact .inl rfl
      · exact .inr ⟨_, rfl⟩
    · exact .inl rfl
  · obtain ⟨m, hm, rfl⟩ := afterAccess_next h
    refine .inr ⟨_, m, hm, ?_⟩
    unfold afterCheck
    split
    · split
      · exact .inr ⟨_, rfl⟩
      · exact .inr ⟨_, rfl⟩
    · exact .inl rfl

/-- What the reset input can do (70_reset_and_hazards.md R230). -/
theorem resetTurn_cases (level : Bool) (s : State) :
    (level = true ∧ resetTurn level s = s.setReset true) ∨
    (level = false ∧ s.inReset = true ∧ resetTurn level s = s.resetBlock.setReset false) ∨
    (level = false ∧ s.inReset = false ∧ resetTurn level s = s) := by
  cases level <;> cases h : s.inReset <;> simp [resetTurn, h]

/-- What a step can do: one move of the Core, the host or the reset input, after the turn is taken off the list, or nothing. -/
theorem step_cases {s t : State} (h : step s = .next t) :
    ∃ u, u = s.setTurns s.turns.tail ∧
      (t = u ∨ coreTurn u = .next t ∨ hostTurn u = .next t ∨ ∃ level, t = resetTurn level u) := by
  refine ⟨_, rfl, ?_⟩
  unfold step takeTurn at h
  split at h
  · rename_i hs
    have hu : s.setTurns s.turns.tail = s := by
      rw [hs]
      unfold State.setTurns
      rw [List.tail_nil, ← hs]
    rw [hu]
    unfold defaultMove at h
    split at h
    · cases h; exact .inl rfl
    · split at h
      · exact .inr (.inl h)
      · exact .inr (.inr (.inl h))
  · rename_i x ts hs
    rw [hs, List.tail_cons]
    cases x with
    | core => exact .inr (.inl h)
    | host => exact .inr (.inr (.inl h))
    | resetInput level => cases h; exact .inr (.inr (.inr ⟨level, rfl⟩))

/-- The updates a step makes around a command. A property of the block's own state is kept by each of them. -/
structure KeptAround (P : State → Prop) : Prop where
  illegal : ∀ s, P s → P (s.raise .illegalCmd)
  finish : ∀ s, P s → P s.finish
  issue : ∀ s w, P s → P (s.issue w)
  overrun : ∀ s, P s → P s.overrun
  setArg : ∀ s v, P s → P (s.setArg v)
  respond : ∀ s r, P s → P (s.respond r)
  draw : ∀ s, P s → P s.draw
  setProg : ∀ s p, P s → P (s.setProg p)
  setTurns : ∀ s ts, P s → P (s.setTurns ts)
  setReset : ∀ s l, P s → P (s.setReset l)
  resetBlock : ∀ s, P s → P s.resetBlock

theorem KeptAround.busAccess {P : State → Prop} (k : KeptAround P) {op : BusOp} {s t : State} (hs : P s)
    (h : busAccess op s = .next t) : P t := by
  rcases busAccess_cases h with rfl | rfl | ⟨r, rfl⟩ | ⟨r, v, rfl⟩
  · exact k.respond _ _ hs
  · exact k.respond _ _ hs
  · rcases readReg_cases r s with h | ⟨_, _, h⟩ <;> rw [h]
    · exact k.respond _ _ hs
    · exact k.respond _ _ (k.draw _ hs)
  · rcases writeReg_cases r v s with ⟨_, _, h⟩ | ⟨_, _, h⟩ | ⟨_, h⟩ | ⟨_, _, h⟩ <;> rw [h]
    · exact k.respond _ _ (k.issue _ _ hs)
    · exact k.respond _ _ (k.overrun _ hs)
    · exact k.respond _ _ (k.setArg _ _ hs)
    · exact k.respond _ _ hs

/-- A property kept by every command and by the updates around it is kept by every step. -/
theorem step_keeps {P : State → Prop} (k : KeptAround P) (cmd : ∀ i s t, P s → exec i s = .next t → P t) {s t : State}
    (hs : P s) (h : step s = .next t) : P t := by
  obtain ⟨u, rfl, h⟩ := step_cases h
  have hu := k.setTurns s s.turns.tail hs
  rcases h with rfl | h | h | ⟨level, rfl⟩
  · exact hu
  · rcases coreTurn_cases h with ⟨_, rfl⟩ | ⟨_, _, i, m, _, hm, rfl⟩ | ⟨_, _, e, _, rfl⟩
    · exact hu
    · exact k.finish _ (cmd _ _ _ hu hm)
    · exact k.finish _ (k.illegal _ hu)
  · rcases hostTurn_cases h with rfl | ⟨op, m, hm, rfl | ⟨p, rfl⟩⟩
    · exact hu
    · exact k.busAccess hu hm
    · exact k.setProg _ _ (k.busAccess hu hm)
  · rcases resetTurn_cases level (s.setTurns s.turns.tail) with ⟨_, h⟩ | ⟨_, _, h⟩ | ⟨_, _, h⟩ <;> rw [h]
    · exact k.setReset _ _ hu
    · exact k.setReset _ _ (k.resetBlock _ hu)
    · exact hu

/-- The word placed by `withFetchWord` is what the very next step executes: on the state with its own turns back. -/
theorem step_withFetchWord (s : State) (nbits w : Nat) :
    step (s.withFetchWord nbits w) =
      coreStep { s with pcmd := tableWord nbits w, busy := true, inReset := false } := rfl

end Sys2Proof.Machine
end

