-- ==== Sys2Proof/Tests/Slice0.lean ====
section
/-! SUPPORT. Small tests: what WellFormed refuses, the word of every command, one step of every command with the values of
95_test_vectors.md, and for every statement with hypotheses a state and operands that meet them. -/

namespace Sys2Proof.Tests

open Sys2Proof.Machine

/-! ### WellFormed (30_encoding.md R83, R84) -/

theorem test_ill_formed_freqRead : ¬ WellFormed (.freqRead 32768) := by decide
theorem test_ill_formed_nodeRead : ¬ WellFormed (.nodeRead 32768) := by decide
theorem test_ill_formed_codeRead : ¬ WellFormed (.codeRead 32768) := by decide
theorem test_ill_formed_outRead : ¬ WellFormed (.outRead 16777216) := by decide
theorem test_ill_formed_decRead : ¬ WellFormed (.decRead 16777216) := by decide
theorem test_well_formed_bounds :
    WellFormed (.freqRead 32767) ∧ WellFormed (.nodeRead 32767) ∧ WellFormed (.codeRead 32767) ∧
      WellFormed (.outRead 16777215) ∧ WellFormed (.decRead 16777215) := by decide

/-! ### Decoding: a word written out from the formats of R81 to R85 for every command (95_test_vectors.md section 2) -/

theorem test_decode_control :
    decode 0b00000000_000000000000000000000000#32 = .ok .nop ∧
    decode 0b00000001_000000000000000000000000#32 = .ok .clear ∧
    decode 0b00000010_000000000000000000000000#32 = .ok .errClear := ⟨rfl, rfl, rfl⟩
theorem test_decode_freqLoad : decode 0b00010000_000_000000000000001100001#32 = .ok (.freqLoad 0x61#21) := rfl
theorem test_decode_freqLoad_top : decode 0x101FFFFF#32 = .ok (.freqLoad 0x1FFFFF#21) := rfl
theorem test_decode_freqRead : decode 0b00010001_000000000_000000000000011#32 = .ok (.freqRead 3) := rfl
theorem test_decode_build : decode 0b00100000_000000000000000000000000#32 = .ok .build := rfl
theorem test_decode_nodeRead : decode 0b00100001_000000000_000000000001000#32 = .ok (.nodeRead 8) := rfl
theorem test_decode_gen : decode 0b00110000_000000000000000000000000#32 = .ok .gen := rfl
theorem test_decode_codeFind : decode 0b00110001_000_000000000000001110010#32 = .ok (.codeFind 0x72#21) := rfl
theorem test_decode_codeRead : decode 0b00110010_000000000_000000000000100#32 = .ok (.codeRead 4) := rfl
theorem test_decode_encStart : decode 0b01000000_000000000000000000000000#32 = .ok .encStart := rfl
theorem test_decode_encSym : decode 0b01000001_000_000000000000001110010#32 = .ok (.encSym 0x72#21) := rfl
theorem test_decode_encFinish : decode 0b01000010_000000000000000000000000#32 = .ok .encFinish := rfl
theorem test_decode_outRead : decode 0b01000011_000000000000000000000010#32 = .ok (.outRead 2) := rfl
theorem test_decode_outRead_top : decode 0x43FFFFFF#32 = .ok (.outRead 16777215) := rfl
theorem test_decode_decStart : decode 0b01010000_000000000000000000000000#32 = .ok .decStart := rfl
theorem test_decode_decByte : decode 0b01010001_0000000000000000_01101110#32 = .ok (.decByte 0x6E#8) := rfl
theorem test_decode_decFinish : decode 0b01010010_000000000000000000000000#32 = .ok .decFinish := rfl
theorem test_decode_decRead : decode 0b01010011_000000000000000000001010#32 = .ok (.decRead 10) := rfl
theorem test_decode_illegal :
    decode 0x00000001#32 = .error .reservedBits ∧ decode 0x10200000#32 = .error .reservedBits ∧
    decode 0x11008000#32 = .error .reservedBits ∧ decode 0x51000100#32 = .error .reservedBits ∧
    decode 0x03000000#32 = .error .unassignedOpcode ∧ decode 0xFFFFFFFF#32 = .error .unassignedOpcode :=
  ⟨rfl, rfl, rfl, rfl, rfl, rfl⟩
theorem test_table_word : decodeTableWord 32 0x51000008 = some (.decByte 8#8) := rfl

/-! ### States -/

/-- The table of "abracadabra" in load order (T-B1). -/
def abraFreq : List FreqEntry :=
  [⟨0x61#21, 5#32⟩, ⟨0x62#21, 2#32⟩, ⟨0x72#21, 2#32⟩, ⟨0x63#21, 1#32⟩, ⟨0x64#21, 1#32⟩]

/-- The tree of "abracadabra" (T-B1). -/
def abraNode : List Node :=
  [.leaf 0x61#21 5#32, .leaf 0x62#21 2#32, .leaf 0x72#21 2#32, .leaf 0x63#21 1#32, .leaf 0x64#21 1#32,
   .int 2#32 3 4, .int 4#32 1 2, .int 6#32 5 6, .int 11#32 0 7]

/-- The codes of "abracadabra" (T-G1): 0, 110, 111, 100, 101. -/
def abraCode : List Bits :=
  [[false], [true, true, false], [true, true, true], [true, false, false], [true, false, true]]

/-- "abracadabra" loaded. -/
def abraLoaded : State := { State.reset with freq := abraFreq, total := 11#32 }
/-- "abracadabra" in phase TREE. -/
def abraTree : State := { abraLoaded with node := abraNode, root := some 8, phase := .tree }
/-- "abracadabra" in phase CODES. -/
def abraCodes : State := { abraTree with code := abraCode, phase := .codes }
/-- "aab" loaded, in phase TREE, in phase CODES (T-B6, T-G6). -/
def aabLoaded : State := { State.reset with freq := [⟨0x61#21, 2#32⟩, ⟨0x62#21, 1#32⟩], total := 3#32 }
def aabTree : State :=
  { aabLoaded with node := [.leaf 0x61#21 2#32, .leaf 0x62#21 1#32, .int 3#32 1 0], root := some 2, phase := .tree }
def aabCodes : State := { aabTree with code := [[true], [false]], phase := .codes }
/-- A decode session of "abracadabra" that has taken the header 1 and holds the byte 0x6E (T-D1). -/
def abraHeld : State :=
  { abraCodes with decActive := true, dhdr := true, dp := 1, dhold := 0x6E#8, dholdv := true, dnode := some 8 }
/-- "abracadabra" encoded (T-E1). -/
def abraDone : State := { abraCodes with outDone := true, outbuf := [0x01#8, 0x6E#8, 0x8A#8, 0xDC#8] }
/-- A single leaf, in phase CODES (T-G2). -/
def aCodes : State :=
  { State.reset with freq := [⟨0x61#21, 4#32⟩], total := 4#32, node := [.leaf 0x61#21 4#32], root := some 0,
                     code := [[false]], phase := .codes }

/-! ### One step of every command (95_test_vectors.md) -/

-- T-C1, T-C4
theorem test_nop : exec .nop State.reset = .next State.reset := rfl
theorem test_nop_in_error : exec .nop { State.reset with err := .badSequence } = .next { State.reset with err := .badSequence } :=
  rfl
-- T-C9, T-C10
theorem test_clear :
    (next? (exec .clear { abraDone with arg := 0x1234#32 })).map (fun s => (s.arg, s.status, s.reg .root, s.outbuf)) =
      some (0x1234#32, 0#32, 0xFFFFFFFF#32, []) := by decide
-- T-C11
theorem test_errClear :
    (next? (exec .errClear { abraCodes with err := .unknownSymbol, encActive := true, ebits := [false] })).map
      (fun s => (s.status, s.ebits, s.code)) = some (0x08#32, [], abraCode) := by decide
-- T-F1, T-F4
theorem test_freqLoad :
    (next? (exec (.freqLoad 0x61#21) { State.reset with parg := 5#32 })).map (fun s => (s.freq, s.total, s.status)) =
      some ([⟨0x61#21, 5#32⟩], 5#32, 0#32) := by decide
theorem test_freqLoad_overflow :
    (next? (exec (.freqLoad 0x63#21)
      { State.reset with freq := [⟨0x61#21, 5#32⟩, ⟨0x62#21, 0xFFFFFFFA#32⟩], total := 0xFFFFFFFF#32, parg := 1#32 })).map
      (fun s => (s.status, s.total)) = some (0x700#32, 0xFFFFFFFF#32) := by decide
-- T-F5, T-F6
theorem test_freqRead :
    (next? (exec (.freqRead 1) abraLoaded)).map (fun s => (s.res0, s.res1)) = some (0x62#32, 2#32) := by decide
theorem test_freqRead_range : (next? (exec (.freqRead 5) abraLoaded)).map State.status = some 0x300#32 := by decide
-- T-B1, T-B6
theorem test_build : (next? (exec .build abraLoaded)).map (fun s => (s.node, s.root)) = some (abraNode, some 8) := by decide
theorem test_build_tie :
    (next? (exec .build { State.reset with freq := [⟨0x61#21, 1#32⟩, ⟨0x62#21, 1#32⟩, ⟨0x63#21, 1#32⟩] })).map
      (fun s => s.node.drop 3) = some [.int 2#32 0 1, .int 3#32 2 3] := by decide
-- R125's example
theorem test_nodeRead_int :
    (next? (exec (.nodeRead 8) abraTree)).map (fun s => (s.res0, s.res1)) = some (0x00000007#32, 0x0000000B#32) := by decide
theorem test_nodeRead_leaf :
    (next? (exec (.nodeRead 3) abraTree)).map (fun s => (s.res0, s.res1)) = some (0x80000063#32, 1#32) := by decide
-- T-G1, T-C2
theorem test_gen : (next? (exec .gen abraTree)).map (fun s => (s.code, s.status)) = some (abraCode, 0x08#32) := by decide
theorem test_gen_bad_sequence : (next? (exec .gen State.reset)).map State.status = some 0x200#32 := by decide
-- section 6
theorem test_codeFind :
    (next? (exec (.codeFind 0x72#21) abraCodes)).map (fun s => (s.res0, s.res1)) = some (2#32, 3#32) := by decide
theorem test_codeFind_absent :
    (next? (exec (.codeFind 0x7A#21) abraCodes)).map (fun s => (s.res0, s.res1)) = some (0xFFFFFFFF#32, 0#32) := by decide
theorem test_codeRead :
    (next? (exec (.codeRead 4) abraCodes)).map (fun s => (s.res0, s.res1)) = some (0xA0000000#32, 3#32) := by decide
theorem test_codeRead_word_range :
    (next? (exec (.codeRead 1) { abraCodes with parg := 1#32 })).map State.status = some 0x308#32 := by decide
-- T-E2a, T-E2j
theorem test_encStart : (next? (exec .encStart abraDone)).map (fun s => (s.status, s.outbuf)) = some (0x18#32, []) := by decide
-- T-E2b, T-E2m
theorem test_encSym :
    (next? (exec (.encSym 0x62#21) { abraCodes with encActive := true })).map State.ebits =
      some [true, true, false] := by decide
theorem test_encSym_overflow :
    (next? (exec (.encSym 0x63#21) { abraCodes with
      cfg := { Params.vectors with outBytes := 2 }, encActive := true, ebits := List.replicate 7 true })).map
      (fun s => (s.status, s.ebits.length)) = some (0x918#32, 7) := by decide
-- T-E1: "aab" and b = 8
theorem test_encFinish :
    (next? (exec .encFinish { aabCodes with encActive := true, ebits := [true, true, false] })).map
      (fun s => (s.outbuf, s.status)) = some ([0x05#8, 0xC0#8], 0x28#32) := by decide
theorem test_encFinish_full_byte :
    (next? (exec .encFinish { aCodes with encActive := true, ebits := List.replicate 8 false })).map State.outbuf =
      some [0x08#8, 0x00#8, 0x00#8] := by decide
-- T-E2k
theorem test_outRead :
    (next? (exec (.outRead 3) abraDone)).map (fun s => (s.res0, s.res1)) = some (0xDC#32, 0#32) := by decide
theorem test_outRead_range : (next? (exec (.outRead 4) abraDone)).map State.err = some .indexRange := by decide
-- T-D1 and T-D2 row 3
theorem test_decStart : (next? (exec .decStart abraCodes)).map (fun s => (s.status, s.dnode)) = some (0x48#32, some 8) := by decide
theorem test_decByte :
    (next? (exec (.decByte 0x8A#8) abraHeld)).map (fun s => (s.decbuf, s.dnode, s.dhold)) =
      some ([0x61#21, 0x62#21, 0x72#21, 0x61#21], some 8, 0x8A#8) ∧
    (next? (exec (.decByte 9#8) { abraCodes with decActive := true, dnode := some 8 })).map State.status =
      some 0xA48#32 := by decide
-- T-D3a: DEC_OVERFLOW while releasing 0x6E with room for three symbols
theorem test_decByte_overflow :
    (next? (exec (.decByte 0x8A#8) { abraHeld with cfg := { Params.vectors with decSyms := 3 } })).map
      (fun s => (s.status, s.decbuf, s.dnode)) = some (0xB48#32, [0x61#21, 0x62#21, 0x72#21], some 8) := by decide
-- T-D2 row 15: [0x02, 0x6E] is corrupt with DEC_LEN = 2 and DNODE = 6
theorem test_decFinish_corrupt :
    (next? (exec .decFinish { abraHeld with dp := 2 })).map (fun s => (s.status, s.decbuf, s.dnode)) =
      some (0xA48#32, [0x61#21, 0x62#21], some 6) := by decide
-- T-D2 row 8: [0x04, 0x0F] is "aaaa"
theorem test_decFinish :
    (next? (exec .decFinish { abraHeld with dp := 4, dhold := 0x0F#8 })).map (fun s => (s.status, s.decbuf)) =
      some (0x88#32, [0x61#21, 0x61#21, 0x61#21, 0x61#21]) := by decide
-- T-D1's end
theorem test_decRead :
    (next? (exec (.decRead 1) { abraCodes with decDone := true, decbuf := [0x61#21, 0x62#21] })).map
      (fun s => (s.res0, s.res1)) = some (0x62#32, 0#32) := by decide
theorem test_decRead_bad_sequence : (next? (exec (.decRead 0) abraCodes)).map State.err = some .badSequence := by decide

/-! ### One step of the host, the Core and the reset input -/

-- T-C12
theorem test_overrun :
    (next? (step { State.reset with busy := true, turns := [.host], prog := [asmCommand Params.vectors .gen] })).map
      (fun s => (s.ovr, s.pcmd, s.busy)) = some (true, 0#32, true) := by decide
-- T-C15
theorem test_bus_error :
    (next? (busAccess (.read 0x0C 2) State.reset)).map State.resp = some .busError ∧
    (next? (busAccess (.read 0x0E 4) State.reset)).map State.resp = some .busError := by decide
-- T-C18, T-I1
theorem test_id : (next? (busAccess (.read 0 4) State.reset)).map State.resp = some (.data 0x48554631#32) := by decide
-- T-I2
theorem test_reset_during_command :
    (next? (step { abraCodes with inReset := true, busy := true, turns := [.resetInput false] })).map
      (fun s => (s.busy, s.status, s.freq)) = some (false, 0#32, []) := by decide
-- T-C7
theorem test_illegal_word : (next? (step (State.reset.withFetchWord 32 0x20000001))).map State.status = some 0x100#32 := by decide
theorem test_fetch_word :
    (next? (step (State.reset.withFetchWord 32 0x20000000))).map (fun s => (s.phase, s.busy)) = some (.tree, false) := by decide

/-! ### Witnesses: for each statement with hypotheses, a state and operands that meet them -/

/-- A state whose tree is broken, which only a state no run reaches is (log 7). -/
def broken : State := { State.reset with freq := [⟨0x61#21, 1#32⟩, ⟨0x62#21, 1#32⟩], phase := .tree }
/-- A busy Core with the word of a command latched, to move next. -/
def pending (w : Word) (s : State) : State := { s with pcmd := w, busy := true, turns := [.core] }
/-- A host with one statement, to move next. -/
def hosting (h : HostStmt) (s : State) : State := { s with prog := [h], turns := [.host] }
/-- A decode session of the single symbol "a" whose buffer is full. -/
def aFull : State :=
  { aCodes with cfg := { Params.vectors with decSyms := 1 }, decActive := true, dnode := some 0, decbuf := [0x61#21] }

/-- The text "aa". -/
def aText : List Symbol := [0x61#21, 0x61#21]

theorem test_witness_DecodeOfEncode : WellFormed (.outRead 16777215) ∧ WellFormed (.codeRead 32767) := by decide
theorem test_witness_EncodeOfDecode : decode 0x53FFFFFF#32 = .ok (.decRead 16777215) := rfl
theorem test_witness_LegalWords :
    legal 0x51000008#32 = true ∧
      (∃ r ∈ opcodeRows, r.matches 0x51000008#32 = true) ∧ legal 0x51000100#32 = false := by decide
theorem test_witness_StepRunsCommand_next :
    (pending 0x20000000#32 abraLoaded).busy = true ∧ (pending 0x20000000#32 abraLoaded).inReset = false ∧
      decode (pending 0x20000000#32 abraLoaded).pcmd = .ok .build ∧
      (pending 0x20000000#32 abraLoaded).turns = .core :: [] ∧
      (next? (exec .build { pending 0x20000000#32 abraLoaded with turns := [] })).isSome = true :=
  ⟨rfl, rfl, rfl, rfl, by decide⟩
theorem test_witness_StepRunsCommand_fault :
    decode (pending 0x30000000#32 broken).pcmd = .ok .gen ∧
      exec .gen { pending 0x30000000#32 broken with turns := [] } = .fault .malformedTree := ⟨rfl, rfl⟩
theorem test_witness_StepRunsCommand_default :
    { State.reset with busy := true }.turns = [] ∧ decode { State.reset with busy := true }.pcmd = .ok .nop ∧
      exec .nop { State.reset with busy := true } = .next { State.reset with busy := true } := ⟨rfl, rfl, rfl⟩
theorem test_witness_IllegalWordRaises :
    ((pending 0x20000001#32 State.reset).busy = true ∧ (pending 0x20000001#32 State.reset).inReset = false ∧
      legal (pending 0x20000001#32 State.reset).pcmd = false ∧ (pending 0x20000001#32 State.reset).turns = .core :: []) ∧
    ({ State.reset with busy := true, pcmd := 0x60000000#32 }.turns = [] ∧
      legal { State.reset with busy := true, pcmd := 0x60000000#32 }.pcmd = false) := by decide
theorem test_witness_HostStatements_default :
    { State.reset with prog := [.wait] }.turns = [] ∧ { State.reset with prog := [.wait] }.busy = false ∧
      { State.reset with prog := [.wait] }.inReset = false ∧ { State.reset with prog := [.wait] }.prog = .wait :: [] := by decide
theorem test_witness_HostStatements_access :
    (hosting (.access (.read 0 4)) State.reset).turns = .host :: [] ∧
      (hosting (.access (.read 0 4)) State.reset).prog = .access (.read 0 4) :: [] ∧
      (next? (busAccess (.read 0 4) { hosting (.access (.read 0 4)) State.reset with turns := [] })).isSome = true ∧
      busAccess (.read 0 4) { hosting (.access (.read 0 4)) { State.reset with inReset := true } with turns := [] } =
        .refused .accessDuringReset := ⟨rfl, rfl, by decide, rfl⟩
theorem test_witness_HostStatements_loops :
    ((hosting .wait { State.reset with busy := true }).prog = .wait :: [] ∧
      (hosting .wait { State.reset with busy := true }).turns = .host :: [] ∧
      (hosting .wait { State.reset with busy := true }).cfg.hufBase % 256 = 0 ∧
      (hosting .wait { State.reset with busy := true }).inReset = false) ∧
    ((hosting .check { State.reset with err := .badSequence }).prog = .check :: [] ∧
      (hosting .check { State.reset with err := .badSequence }).turns = .host :: [] ∧
      (hosting .check { State.reset with err := .badSequence }).inReset = false) := by decide
theorem test_witness_ResetHoldsTheBlock :
    { State.reset with turns := [.resetInput true] }.turns = .resetInput true :: [] ∧
    (pending 0#32 { State.reset with inReset := true }).inReset = true ∧
    { State.reset with turns := [.core] }.busy = false ∧
    { State.reset with inReset := true }.cfg.hufBase % 256 = 0 ∧ 0 < 256 ∧ 255 < 256 := by decide
theorem test_witness_ResetReleases :
    { abraCodes with inReset := true, busy := true, turns := [.resetInput false] }.inReset = true ∧
      { abraCodes with inReset := true, busy := true, turns := [.resetInput false] }.turns = .resetInput false :: [] := by
  decide
theorem test_witness_CommandWriteIssuesOrOverruns :
    State.reset.cfg.hufBase % 256 = 0 ∧ State.reset.inReset = false ∧ State.reset.busy = false ∧
      { State.reset with busy := true }.busy = true := by decide
theorem test_witness_ArgumentRegister : exec .clear { State.reset with arg := 1#32 } = .next { State.reset with arg := 1#32 } :=
  rfl
theorem test_witness_CommandsUseCapturedArgument :
    exec .encStart aabCodes = .next { aabCodes with encActive := true } ∧
      (∀ x, Instr.encStart ≠ .freqLoad x) ∧ ∀ k, Instr.encStart ≠ .codeRead k :=
  ⟨rfl, fun _ => nofun, fun _ => nofun⟩
theorem test_witness_BusErrorChangesNothing :
    (State.reset.cfg.hufBase % 256 = 0 ∧ State.reset.inReset = false) ∧ (0x0C < 256 ∧ (2 ≠ 4 ∨ 0x0C % 4 ≠ 0)) ∧
      (255 < 256 ∧ (4 ≠ 4 ∨ 255 % 4 ≠ 0)) ∧ (0xFC < 256 ∧ 4 = 4 ∧ 0xFC % 4 = 0) := by decide
theorem test_witness_IgnoredWrites :
    (0x00 < 256 ∧ 0x00 % 4 = 0 ∧ 0x00 ≠ 0x04 ∧ 0x00 ≠ 0x08) ∧ (0xFC < 256 ∧ 0xFC % 4 = 0 ∧ 0xFC ≠ 0x04 ∧ 0xFC ≠ 0x08) := by
  decide
theorem test_witness_RegisterReads :
    State.reset.cfg.hufBase % 256 = 0 ∧ State.reset.inReset = false ∧
      (0x34 ≤ 0x34 ∧ 0x34 < 256 ∧ 0x34 % 4 = 0) ∧ (0x34 ≤ 0xFC ∧ 0xFC < 256 ∧ 0xFC % 4 = 0) := by decide
theorem test_witness_BusSideEffects :
    (next? (busAccess (.read 0x10 4) { State.reset with busy := true })).map State.draws = some 1 ∧
      (next? (busAccess (.write 0x08 4 7#32) State.reset)).map State.arg = some 7#32 := by decide
theorem test_witness_BlockedCommandsIgnored :
    { State.reset with err := .badSequence }.err ≠ .none ∧ Instr.build ≠ .nop ∧ Instr.build ≠ .clear ∧
      Instr.build ≠ .errClear := by decide
theorem test_witness_AdmissionTable : ¬ Admits .gen State.reset ∧ Admits .gen aabTree :=
  ⟨fun h => absurd (show Phase.load = Phase.tree from h) (by decide), rfl⟩
theorem test_witness_FirstErrorSticks :
    (next? (step (pending 0x20000000#32 { State.reset with err := .badSequence }))).map State.err = some .badSequence ∧
      (next? (step (pending 0x02000000#32 { State.reset with err := .badSequence }))).map State.err = some .none := by decide
/-- "aab" loaded, a count captured (R110). -/
def counted (c : Word) : State := { aabLoaded with parg := c }
/-- The same in a block of two leaves. -/
def counted2 (c : Word) : State := { counted c with cfg := { Params.vectors with maxLeaves := 2 } }
theorem test_witness_FreqLoadResult_checks :
    ((counted 0#32).err = .none ∧ (counted 0#32).phase = .load ∧ (counted 0#32).parg = 0#32) ∧
    ((counted 1#32).parg ≠ 0#32 ∧ ∃ e ∈ (counted 1#32).freq, e.sym = 0x61#21) ∧
    ((counted2 1#32).err = .none ∧ (counted2 1#32).phase = .load ∧ (counted2 1#32).parg ≠ 0#32 ∧
      (∀ e ∈ (counted2 1#32).freq, e.sym ≠ 0x63#21) ∧ (counted2 1#32).freq.length = (counted2 1#32).cfg.maxLeaves) := by
  decide
theorem test_witness_FreqLoadResult_sum :
    ((counted 0xFFFFFFFD#32).parg ≠ 0#32 ∧ (∀ e ∈ (counted 0xFFFFFFFD#32).freq, e.sym ≠ 0x63#21) ∧
      (counted 0xFFFFFFFD#32).freq.length ≠ (counted 0xFFFFFFFD#32).cfg.maxLeaves ∧
      2 ^ 32 - 1 < (counted 0xFFFFFFFD#32).total.toNat + (counted 0xFFFFFFFD#32).parg.toNat) ∧
    ((counted 0xFFFFFFFC#32).parg ≠ 0#32 ∧ (∀ e ∈ (counted 0xFFFFFFFC#32).freq, e.sym ≠ 0x63#21) ∧
      (counted 0xFFFFFFFC#32).freq.length ≠ (counted 0xFFFFFFFC#32).cfg.maxLeaves ∧
      (counted 0xFFFFFFFC#32).total.toNat + (counted 0xFFFFFFFC#32).parg.toNat ≤ 2 ^ 32 - 1) := by decide
theorem test_witness_FreqReadResult : aabLoaded.freq[1]? = some ⟨0x62#21, 1#32⟩ ∧ aabLoaded.freq.length ≤ 2 := by decide
theorem test_witness_PopMinIsLeast : popMin [⟨2#32, 0⟩, ⟨1#32, 1⟩, ⟨1#32, 2⟩] = some (⟨1#32, 1⟩, [⟨2#32, 0⟩, ⟨1#32, 2⟩]) := by
  decide
theorem test_witness_BuildMakesTree : abraLoaded.err = .none ∧ abraLoaded.phase = .load ∧ FreqInv abraLoaded := by decide
theorem test_witness_BuildMergesTwoLeast :
    (next? (exec .build aabLoaded)).map (fun t => t.node[2]?) = some (some (.int 3#32 1 0)) := by decide
theorem test_witness_BuildIsFunctionOfFreq :
    (next? (exec .build aabLoaded)).isSome = true ∧ (next? (exec .build { aabLoaded with arg := 1#32 })).isSome = true := by decide
theorem test_witness_BuildEdgeCases :
    State.reset.freq = [] ∧ { State.reset with freq := [⟨0x61#21, 4#32⟩] }.freq = [⟨0x61#21, 4#32⟩] := by decide
theorem test_witness_NodeReadResult :
    aabTree.phase ≠ .load ∧ aabTree.node[1]? = some (.leaf 0x62#21 1#32) ∧ aabTree.node[2]? = some (.int 3#32 1 0) ∧
      aabTree.node.length ≤ 3 := by decide
theorem test_witness_GenMakesCodes : abraTree.phase = .tree ∧ TreeOf abraTree.freq abraTree.node abraTree.root := by decide
theorem test_witness_GenEdgeCases :
    { State.reset with phase := .tree }.freq = [] ∧
      { aCodes with phase := .tree, code := [] }.freq = [⟨0x61#21, 4#32⟩] := by decide
theorem test_inv_abraCodes : SpecInv abraCodes :=
  ⟨by decide, by decide, by decide, by decide, by decide, by decide, by decide⟩
theorem test_inv_aCodes : SpecInv aCodes :=
  ⟨by decide, by decide, by decide, by decide, by decide, by decide, by decide⟩
theorem test_inv_abraHeld : SpecInv abraHeld :=
  ⟨by decide, by decide, by decide, by decide, by decide, by decide, by decide⟩
theorem test_witness_CodesPrefixFree :
    SpecInv abraCodes ∧ abraCodes.phase = .codes ∧ (1 : Nat) ≠ 4 ∧ abraCodes.code[1]? = some [true, true, false] ∧
      abraCodes.code[4]? = some [true, false, true] := ⟨test_inv_abraCodes, rfl, by decide, rfl, rfl⟩
theorem test_witness_CodeTableBijection :
    SpecInv abraCodes ∧ abraCodes.code[4]? = some [true, false, true] ∧ ⟨0x64#21, 1#32⟩ ∈ abraCodes.freq :=
  ⟨test_inv_abraCodes, rfl, by decide⟩
theorem test_witness_KraftEquality :
    (SpecInv aCodes ∧ aCodes.freq.length = 1) ∧ SpecInv abraCodes ∧ abraCodes.phase = .codes ∧ 2 ≤ abraCodes.freq.length :=
  ⟨⟨test_inv_aCodes, rfl⟩, test_inv_abraCodes, rfl, by decide⟩
theorem test_witness_CodeFindResult :
    (∀ e ∈ abraCodes.freq, e.sym ≠ 0x7A#21) ∧ (abraCodes.freq.map FreqEntry.sym).Nodup ∧
      abraCodes.freq[4]? = some ⟨0x64#21, 1#32⟩ ∧ abraCodes.code[4]? = some [true, false, true] := by decide
theorem test_witness_CodeReadResult :
    (abraCodes.err = .none ∧ abraCodes.phase = .codes ∧ abraCodes.code.length ≤ 5) ∧
    ({ abraCodes with parg := 1#32 }.code[1]? = some [true, true, false] ∧
      [true, true, false].length ≤ 32 * { abraCodes with parg := 1#32 }.parg.toNat) ∧
    (abraCodes.code[1]? = some [true, true, false] ∧ 32 * abraCodes.parg.toNat < [true, true, false].length) := by decide
theorem test_witness_SessionStartResult : abraCodes.err = .none ∧ abraCodes.phase = .codes := by decide
/-- An open encode session of "abracadabra" with n bits sent, in a block of two payload bytes (T-E2l). -/
def sent (n : Nat) : State :=
  { abraCodes with cfg := { Params.vectors with outBytes := 2 }, encActive := true, ebits := List.replicate n true }
theorem test_witness_EncSymResult :
    ((sent 5).err = .none ∧ (sent 5).encActive = true ∧ ∀ e ∈ (sent 5).freq, e.sym ≠ 0x7A#21) ∧
    (((sent 5).freq.map FreqEntry.sym).Nodup ∧ (sent 5).freq[3]? = some ⟨0x63#21, 1#32⟩ ∧
      (sent 5).code[3]? = some [true, false, false] ∧
      (sent 5).cfg.outBytes < ((sent 5).ebits.length + [true, false, false].length) / 8 + 2) ∧
    (((sent 4).freq.map FreqEntry.sym).Nodup ∧ (sent 4).encActive = true ∧
      ((sent 4).ebits.length + [true, false, false].length) / 8 + 2 ≤ (sent 4).cfg.outBytes) := by decide
theorem test_witness_EncFinishResult :
    { aCodes with encActive := true }.ebits = [] ∧ { aCodes with encActive := true, ebits := [false] }.ebits ≠ [] := by decide
theorem test_witness_OutReadResult :
    abraDone.outDone = true ∧ abraDone.outbuf[3]? = some 0xDC#8 ∧ abraDone.outbuf.length ≤ 4 := by decide
theorem test_witness_EncodedBits :
    (next? (runAll [.encStart, .encSym 0x61#21, .encSym 0x62#21] aabCodes)).map (fun t => (t.err, t.ebits)) =
      some (.none, [true, false]) := by decide
theorem test_witness_DecByteResult_header :
    ({ abraCodes with decActive := true }.err = .none ∧ { abraCodes with decActive := true }.dhdr = false ∧ 8 < (9#8).toNat ∧
      (8#8).toNat = (8 : Fin 9).val) ∧
    ({ abraHeld with dholdv := false }.decActive = true ∧ { abraHeld with dholdv := false }.dhdr = true) := by decide
/-- A decode session of "a" whose buffer is full and which holds the byte 0. -/
def aFullHeld : State := { aFull with dhdr := true, dp := 7, dholdv := true }
theorem test_witness_DecByteResult_release :
    (abraHeld.dhdr = true ∧ abraHeld.dholdv = true ∧ walkBits (unpackByte abraHeld.dhold) abraHeld =
      .go { abraHeld with decbuf := [0x61#21, 0x62#21, 0x72#21, 0x61#21] }) ∧
    (aFullHeld.dhdr = true ∧ aFullHeld.dholdv = true ∧
      walkBits (unpackByte aFullHeld.dhold) aFullHeld = .raised { aFullHeld with err := .decOverflow }) :=
  ⟨⟨rfl, rfl, rfl⟩, ⟨rfl, rfl, rfl⟩⟩
/-- A decode session of "a" that has taken a header and no data byte. -/
def aHeader (p : Fin 9) (dead : Bool) : State :=
  { aCodes with decActive := true, dhdr := true, dp := p, dnode := some 0, ddead := dead }
theorem test_witness_DecFinishResult_short :
    ({ aCodes with decActive := true }.decActive = true ∧ { aCodes with decActive := true }.dhdr = false) ∧
    ((aHeader 3 false).dhdr = true ∧ (aHeader 3 false).dholdv = false ∧ 0 < (aHeader 3 false).dp.val) ∧
    ((aHeader 0 true).dholdv = false ∧ (aHeader 0 true).dp = 0 ∧ (aHeader 0 true).ddead = true) ∧
    ((aHeader 0 false).dp = 0 ∧ (aHeader 0 false).ddead = false ∧ (aHeader 0 false).dnode = (aHeader 0 false).root) := by
  decide
/-- A decode session of "a" that holds a byte of one code bit. -/
def aOneBit (b : Byte) : State := { aHeader 7 false with dhold := b, dholdv := true }
theorem test_witness_DecFinishResult_release :
    (walkBits ((unpackByte aFullHeld.dhold).take (8 - aFullHeld.dp.val)) aFullHeld =
      .raised { aFullHeld with err := .decOverflow }) ∧
    (walkBits ((unpackByte (aOneBit 0x40#8).dhold).take (8 - (aOneBit 0x40#8).dp.val)) (aOneBit 0x40#8) =
      .go { aOneBit 0x40#8 with decbuf := [0x61#21] } ∧ (aOneBit 0x40#8).dnode = (aOneBit 0x40#8).root) ∧
    (walkBits ((unpackByte (aOneBit 0x80#8).dhold).take (8 - (aOneBit 0x80#8).dp.val)) (aOneBit 0x80#8) =
      .go { aOneBit 0x80#8 with ddead := true }) := ⟨rfl, ⟨rfl, rfl⟩, rfl⟩
theorem test_witness_DecReadResult :
    { aFull with decDone := true }.decbuf[0]? = some 0x61#21 ∧ { aFull with decDone := true }.decbuf.length ≤ 1 := by decide
theorem test_witness_WalkStopsAtOverflow_leaf :
    Completes false aFull 0x61#21 ∧ aFull.decbuf.length = aFull.cfg.decSyms ∧
      Completes false { aFull with decbuf := [] } 0x61#21 ∧ ({ aFull with decbuf := [] }.decbuf.length ≠ aFull.cfg.decSyms) :=
  ⟨⟨rfl, 0, rfl, .inl ⟨rfl, 4#32, rfl⟩⟩, rfl, ⟨rfl, 0, rfl, .inl ⟨rfl, 4#32, rfl⟩⟩, by decide⟩
theorem test_witness_WalkStopsAtOverflow_tree :
    Completes true { abraHeld with dnode := some 6 } 0x72#21 :=
  ⟨rfl, 8, rfl, .inr ⟨⟨11#32, 0, 7, rfl⟩, 2, 2#32, rfl, rfl⟩⟩
theorem test_witness_WalkStopsAtOverflow_raised :
    walkBits [false] aFull = .raised { aFull with err := .decOverflow } := rfl
/-- A decode session of "abracadabra" in a block of three symbols (T-D3a). -/
def abraShort : State := { abraHeld with cfg := { Params.vectors with decSyms := 3 } }
theorem test_inv_abraShort : SpecInv abraShort :=
  ⟨by decide, by decide, by decide, by decide, by decide, by decide, by decide⟩
theorem test_witness_WalkStopsAtOverflow_scan :
    SpecInv abraShort ∧ abraShort.phase = .codes ∧ abraShort.dnode = abraShort.root ∧ abraShort.ddead = false ∧
      abraShort.cfg.decSyms <
        abraShort.decbuf.length + (scan abraShort.freq abraShort.code [] (unpackByte abraShort.dhold)).1.length :=
  ⟨test_inv_abraShort, rfl, rfl, rfl, by decide⟩
theorem test_inv_walk : SpecInv { abraCodes with dnode := some 8 } :=
  ⟨by decide, by decide, by decide, by decide, by decide, by decide, by decide⟩
theorem test_witness_WalkEqualsScan :
    SpecInv { abraCodes with dnode := some 8 } ∧
      (scan abraFreq abraCode [] [false, true, true, false]).1.length ≤ abraCodes.cfg.decSyms :=
  ⟨test_inv_walk, by decide⟩
theorem test_witness_SessionDecodesPayload :
    SpecInv abraCodes ∧ decodePayload abraFreq abraCode [0x04#8, 0x0F#8] = ([0x61#21, 0x61#21, 0x61#21, 0x61#21], true) ∧
      decodePayload abraFreq abraCode [0x07#8, 0x80#8] = ([], false) ∧ 4 ≤ abraCodes.cfg.decSyms :=
  ⟨test_inv_abraCodes, by decide, by decide, by decide⟩
theorem test_witness_RoundTrip :
    SpecInv aCodes ∧ (∀ x ∈ aText, ∃ e ∈ aCodes.freq, e.sym = x) ∧
      (aText.flatMap (codeOfSymbol aCodes.freq aCodes.code)).length / 8 + 2 ≤ aCodes.cfg.outBytes ∧
      aText.length ≤ aCodes.cfg.decSyms := by
  refine ⟨test_inv_aCodes, ?_, ?_, ?_⟩
  · simp [aText, aCodes]
  · simp [aText, codeOfSymbol, aCodes, State.reset, State.resetOf, Params.vectors, List.findIdx?_cons]
  · simp [aText, aCodes, State.reset, State.resetOf, Params.vectors]
theorem test_witness_CommandFrame : (next? (exec (.codeFind 0x61#21) aabCodes)).isSome = true := by decide
theorem test_witness_SessionsIndependent :
    (next? (exec .encStart aabCodes)).isSome = true ∧ (next? (exec (.decByte 1#8) abraHeld)).isSome = true := by decide
theorem test_witness_ResultsOnlyByQueries :
    (next? (exec .clear { aabCodes with res1 := 1#32 })).isSome = true ∧
      (next? (exec (.freqRead 0) aabCodes)).map (fun t => (t.res0, decide (t.res0 ≠ aabCodes.res0))) =
        some (0x61#32, true) := by decide
theorem test_witness_PhaseOrder : (next? (step (pending 0x20000000#32 aabLoaded))).map State.phase = some .tree := by decide
theorem test_witness_TablesPersist :
    (next? (step (pending 0x40000000#32 aabCodes))).isSome = true ∧ (pending 0x40000000#32 aabCodes).phase = .codes := by decide
theorem test_witness_InvariantsAtReset :
    Params.Wf ⟨1, 2, 1, 0⟩ ∧ Params.Wf ⟨16384, 2 ^ 24, 2 ^ 24, 256⟩ := by decide
theorem test_witness_FreqInvariantKept :
    FreqInv (pending 0x20000000#32 aabLoaded) ∧ (next? (step (pending 0x20000000#32 aabLoaded))).isSome = true := by decide
theorem test_witness_SessionInvariantKept :
    SessionInv (pending 0x20000000#32 aabLoaded) ∧ (next? (step (pending 0x20000000#32 aabLoaded))).isSome = true := by decide
theorem test_witness_MemoryCapacityKept :
    (pending 0x20000000#32 aabLoaded).cfg.Wf ∧ Memory.wf (pending 0x20000000#32 aabLoaded) ∧
      (next? (step (pending 0x20000000#32 aabLoaded))).isSome = true := by decide
theorem test_witness_EveryCommandCompletes : SpecInv abraHeld := test_inv_abraHeld
theorem test_inv_pending : SpecInv (pending 0x52000000#32 abraHeld) :=
  ⟨by decide, by decide, by decide, by decide, by decide, by decide, by decide⟩
/-- An encode session of "aab" that has sent "ab", about to be finished. -/
def aabSent : State := pending 0x42000000#32 { aabCodes with encActive := true, ebits := [true, false] }
theorem test_inv_aabSent : SpecInv aabSent :=
  ⟨by decide, by decide, by decide, by decide, by decide, by decide, by decide⟩
theorem test_payload_aabSent : PayloadInv aabSent := ⟨⟨[[true], [false]], by decide, rfl⟩, nofun, nofun⟩
theorem test_payload_aabDone : PayloadInv { aabCodes with outDone := true, ebits := [true, false], outbuf := [0x06#8, 0x80#8] } :=
  ⟨⟨[[true], [false]], by decide, rfl⟩, nofun, fun _ => rfl⟩
theorem test_root_aabSent : RootInv aabSent := by
  intro _ r hr
  cases hr
  rfl
theorem test_witness_InvariantsKept :
    SpecInv aabSent ∧ PayloadInv aabSent ∧ RootInv aabSent ∧ (next? (step aabSent)).isSome = true :=
  ⟨test_inv_aabSent, test_payload_aabSent, test_root_aabSent, by decide⟩
theorem test_inv_refused : SpecInv (hosting (.access (.read 0 4)) { aCodes with inReset := true }) :=
  ⟨by decide, by decide, by decide, by decide, by decide, by decide, by decide⟩
theorem test_witness_StepsNeverFault :
    SpecInv (pending 0x52000000#32 abraHeld) ∧ (pending 0x52000000#32 abraHeld).turns = .core :: [] ∧
      SpecInv (hosting (.access (.read 0 4)) { aCodes with inReset := true }) ∧
      step (hosting (.access (.read 0 4)) { aCodes with inReset := true }) = .refused .accessDuringReset :=
  ⟨test_inv_pending, rfl, test_inv_refused, rfl⟩
theorem test_witness_StepsNeverFault_default :
    SpecInv { aCodes with busy := true } ∧ { aCodes with busy := true }.turns = [] ∧
      { aCodes with busy := true }.inReset = false :=
  ⟨⟨by decide, by decide, by decide, by decide, by decide, by decide, by decide⟩, rfl, rfl⟩

end Sys2Proof.Tests
end

section
/-! SUPPORT. What a command and a step can do to the state, said once as relations with one constructor per rule, and the
proof that a property of the tables and sessions kept by the rules that write them is kept by every step. -/

namespace Sys2Proof.Machine

/-! ### The walk over code bits (45_decoder.md R182 to R184) -/

/-- The index names an internal node. -/
def InnerAt (nodes : List Node) (k : Option Nat) : Prop := ∃ j w l r, k = some j ∧ nodes[j]? = some (.int w l r)

/-- What one bit of a walk can do to the state (R183, R184). -/
inductive BitEffect (s : State) : State → Prop where
  /-- with fewer than two leaves, the candidate can match nothing any more -/
  | dead : ¬ InnerAt s.node s.root → BitEffect s s.markDead
  /-- DECBUF is full -/
  | overflow : BitEffect s (s.raise .decOverflow)
  /-- the only leaf is emitted -/
  | emitOnly (x) : s.decbuf.length ≠ s.cfg.decSyms → BitEffect s (s.pushSymbol x)
  /-- a leaf is emitted, and the walker goes back to the root -/
  | emitLeaf (x) : InnerAt s.node s.root → s.decbuf.length ≠ s.cfg.decSyms →
      BitEffect s ((s.pushSymbol x).walkTo s.root)
  /-- the walker moves to an internal node -/
  | move (k) : InnerAt s.node s.root → InnerAt s.node k → BitEffect s (s.walkTo k)

/-- The state after some bits of a walk. -/
abbrev Walked : State → State → Prop := Relation.ReflTransGen BitEffect

theorem stepInner_walked {b : Bool} {s t : State} (hr : InnerAt s.node s.root)
    (h : stepInner b s = .go t ∨ stepInner b s = .raised t) : Walked s t := by
  unfold stepInner at h
  split at h
  · simp at h
  · rename_i nxt _
    split at h
    · simp at h
    · rename_i x _ _
      rcases emit_cases x s with ⟨_, he⟩ | ⟨hl, he⟩ <;> rw [he] at h <;> rcases h with h | h <;> cases h
      · exact .single .overflow
      · exact .single (.emitLeaf x hr hl)
    · rename_i hn
      rcases h with h | h <;> cases h
      exact .single (.move (some nxt) hr ⟨nxt, _, _, _, rfl, hn⟩)

theorem stepBit_walked {b : Bool} {s t : State} (h : stepBit b s = .go t ∨ stepBit b s = .raised t) : Walked s t := by
  unfold stepBit at h
  split at h
  · rcases h with h | h <;> cases h
    exact .refl
  · split at h
    · rename_i hr
      rcases h with h | h <;> cases h
      exact .single (.dead fun ⟨j, w, l, r, hj, _⟩ => by simp [hr] at hj)
    · rename_i r hr
      split at h
      · simp at h
      · rename_i x _ hn
        split at h
        · rcases h with h | h <;> cases h
          exact .single (.dead fun ⟨j, w, l, r, hj, hi⟩ => by simp_all)
        · rcases emit_cases x s with ⟨_, he⟩ | ⟨hl, he⟩ <;> rw [he] at h <;> rcases h with h | h <;> cases h
          · exact .single .overflow
          · exact .single (.emitOnly x hl)
      · rename_i hn
        exact stepInner_walked ⟨r, _, _, _, hr, hn⟩ h

theorem walkBits_walked {bs : Bits} {s t : State} (h : walkBits bs s = .go t ∨ walkBits bs s = .raised t) :
    Walked s t := by
  induction bs generalizing s with
  | nil =>
    rcases h with h | h <;> cases h
    exact .refl
  | cons b bs ih =>
    rcases h with h | h
    · obtain ⟨m, hm, hk⟩ := Flow.andThen_eq_go h
      exact (stepBit_walked (.inl hm)).trans (ih (.inl hk))
    · rcases Flow.andThen_eq_raised h with hm | ⟨m, hm, hk⟩
      · exact stepBit_walked (.inr hm)
      · exact (stepBit_walked (.inl hm)).trans (ih (.inr hk))

theorem releaseHeld_walked {s t : State} (h : releaseHeld s = .go t ∨ releaseHeld s = .raised t) : Walked s t := by
  unfold releaseHeld at h
  split at h
  · exact walkBits_walked h
  · rcases h with h | h <;> cases h
    exact .refl

/-- A walk changes only ERR, DDEAD, DNODE and DECBUF. -/
theorem Walked.frame {s t : State} (h : Walked s t) : WalkFrame s t := by
  induction h with
  | refl => exact .refl s
  | tail _ h ih => exact ih.trans (by cases h <;> rfl)

/-! ### Commands -/

/-- The commands that write the tables, with what they write (41_frequency_table.md R110, 42_tree_builder.md R120,
43_code_table.md R140). -/
inductive TableWrite (s : State) : Instr → State → Prop where
  | freqLoad (x) : s.phase = .load → s.count ≠ 0 → find s.freq x = none → s.freq.length ≠ s.cfg.maxLeaves →
      s.total.toNat + s.count ≤ 2 ^ 32 - 1 → TableWrite s (.freqLoad x) (s.appendFreq x s.parg)
  | build (ns r) : s.phase = .load → buildTree s.freq = .ok (ns, r) → TableWrite s .build (s.setTree ns r)
  | gen (cs) : s.phase = .tree → genCodes s.node s.root s.freq.length = some cs → TableWrite s .gen (s.setCodes cs)

/-- The commands that write the sessions, with what they write (40_control.md R103, 44_encoder.md R160 to R166,
45_decoder.md R180 to R186). -/
inductive SessionWrite (s : State) : Instr → State → Prop where
  | errClear : SessionWrite s .errClear s.abortSessions
  | encStart : s.phase = .codes → SessionWrite s .encStart s.openEnc
  | encSym (x c) : s.encActive = true → c ∈ s.code → ¬ payloadBytes (s.ebits.length + c.length) > s.cfg.outBytes →
      SessionWrite s (.encSym x) (s.appendBits c)
  | encFinish : s.encActive = true → SessionWrite s .encFinish (s.closeEnc (payload s.ebits))
  | decStart : s.phase = .codes → SessionWrite s .decStart s.openDec
  /-- the first byte -/
  | header (b p) : s.decActive = true → SessionWrite s (.decByte b) (s.takeHeader p)
  /-- a later byte, held after a walk over the byte held before it -/
  | hold (b m) : s.dhdr = true → Walked s m → SessionWrite s (.decByte b) (m.holdByte b)
  /-- the walk over the byte held before raised -/
  | byteStopped (b m) : Walked s m → SessionWrite s (.decByte b) m
  /-- no byte was held -/
  | finish : s.decActive = true → SessionWrite s .decFinish s.closeDec
  /-- the held byte was walked -/
  | finishHeld (m) : s.decActive = true → Walked s m → SessionWrite s .decFinish m.dropHold.closeDec
  /-- the walk over the held byte raised -/
  | finishStopped (m) : Walked s m → SessionWrite s .decFinish m
  /-- the walk over the held byte left a candidate -/
  | trailing (m) : Walked s m → SessionWrite s .decFinish (m.dropHold.raise .corruptPayload)

/-- The six commands that answer in RES0 and RES1 (10_state.md R38). -/
def IsQuery (i : Instr) : Prop :=
  (∃ k, i = .freqRead k) ∨ (∃ k, i = .nodeRead k) ∨ (∃ x, i = .codeFind x) ∨ (∃ k, i = .codeRead k) ∨
    (∃ k, i = .outRead k) ∨ ∃ k, i = .decRead k

/-- What a command can do to the state. -/
inductive Effect (s : State) : Instr → State → Prop where
  /-- NOP, and every command but CLEAR and ERR_CLEAR while ERR ≠ 0 (60_exceptions.md R202) -/
  | ignored (i) : Effect s i s
  | raised (i e) : s.err = .none → Effect s i (s.raise e)
  | cleared : Effect s .clear s.clearAll
  | answered (i r0 r1) : s.err = .none → IsQuery i → Effect s i (s.setResults r0 r1)
  | tables (i t) : s.err = .none → TableWrite s i t → Effect s i t
  | sessions (i t) : s.err = .none ∨ i = .errClear → SessionWrite s i t → Effect s i t

/-- A gated command is ignored while ERR ≠ 0; else its rule decides (R202). -/
theorem Effect.of_gate {i : Instr} {s t : State} {r : Result} (h : unlessBlocked s r = .next t)
    (k : s.err = .none → r = .next t → Effect s i t) : Effect s i t := by
  obtain ⟨he, h⟩ | ⟨_, rfl⟩ := unlessBlocked_next h
  · exact k he h
  · exact .ignored i

/-- A failed check raises; else the rest of the rule decides. -/
theorem Effect.of_check {i : Instr} {s t : State} {r : Result} {e : ErrCode} {c : Prop} [Decidable c]
    (he : s.err = .none) (h : (if c then raise s e else r) = .next t) (k : ¬ c → r = .next t → Effect s i t) :
    Effect s i t := by
  split at h
  · cases h
    exact .raised i e he
  · exact k ‹_› h

theorem execFreqLoad_effect {x : Symbol} {s t : State} (h : execFreqLoad x s = .next t) : Effect s (.freqLoad x) t :=
  .of_gate h fun he h => .of_check he h fun hp h => .of_check he h fun hc h => .of_check he h fun hx h =>
    .of_check he h fun hl h => .of_check he h fun ht h => by
      cases h
      exact .tables _ _ he (.freqLoad x (by simpa using hp) hc (by simpa using hx) hl (by omega))

theorem execFreqRead_effect {k : Nat} {s t : State} (h : execFreqRead k s = .next t) : Effect s (.freqRead k) t :=
  .of_gate h fun he h => by
    split at h <;> cases h
    · exact .raised _ _ he
    · exact .answered _ _ _ he (.inl ⟨k, rfl⟩)

theorem execBuild_effect {s t : State} (h : execBuild s = .next t) : Effect s .build t :=
  .of_gate h fun he h => .of_check he h fun hp h => by
    split at h <;> cases h
    exact .tables _ _ he (.build _ _ (by simpa using hp) ‹_›)

theorem execNodeRead_effect {k : Nat} {s t : State} (h : execNodeRead k s = .next t) : Effect s (.nodeRead k) t :=
  .of_gate h fun he h => .of_check he h fun _ h => by
    split at h <;> cases h
    · exact .raised _ _ he
    · exact .answered _ _ _ he (.inr (.inl ⟨k, rfl⟩))

theorem execGen_effect {s t : State} (h : execGen s = .next t) : Effect s .gen t :=
  .of_gate h fun he h => .of_check he h fun hp h => by
    split at h <;> cases h
    exact .tables _ _ he (.gen _ (by simpa using hp) ‹_›)

theorem execCodeFind_effect {x : Symbol} {s t : State} (h : execCodeFind x s = .next t) : Effect s (.codeFind x) t :=
  .of_gate h fun he h => .of_check he h fun _ h => by
    have hq : IsQuery (.codeFind x) := .inr (.inr (.inl ⟨x, rfl⟩))
    split at h
    · cases h
      exact .answered _ _ _ he hq
    · split at h <;> cases h
      exact .answered _ _ _ he hq

theorem execCodeRead_effect {k : Nat} {s t : State} (h : execCodeRead k s = .next t) : Effect s (.codeRead k) t :=
  .of_gate h fun he h => .of_check he h fun _ h => by
    split at h
    · cases h
      exact .raised _ _ he
    · exact .of_check he h fun _ h => by
        cases h
        exact .answered _ _ _ he (.inr (.inr (.inr (.inl ⟨k, rfl⟩))))

theorem execEncStart_effect {s t : State} (h : execEncStart s = .next t) : Effect s .encStart t :=
  .of_gate h fun he h => .of_check he h fun hp h => by
    cases h
    exact .sessions _ _ (.inl he) (.encStart (by simpa using hp))

theorem execEncSym_effect {x : Symbol} {s t : State} (h : execEncSym x s = .next t) : Effect s (.encSym x) t :=
  .of_gate h fun he h => .of_check he h fun ha h => by
    split at h
    · cases h
      exact .raised _ _ he
    · split at h
      · cases h
      · rename_i hc
        exact .of_check he h fun hl h => by
          cases h
          exact .sessions _ _ (.inl he) (.encSym x _ (by simpa using ha) (List.mem_of_getElem? hc) hl)

theorem execEncFinish_effect {s t : State} (h : execEncFinish s = .next t) : Effect s .encFinish t :=
  .of_gate h fun he h => .of_check he h fun ha h => by
    cases h
    exact .sessions _ _ (.inl he) (.encFinish (by simpa using ha))

theorem execOutRead_effect {k : Nat} {s t : State} (h : execOutRead k s = .next t) : Effect s (.outRead k) t :=
  .of_gate h fun he h => .of_check he h fun _ h => by
    split at h <;> cases h
    · exact .raised _ _ he
    · exact .answered _ _ _ he (.inr (.inr (.inr (.inr (.inl ⟨k, rfl⟩)))))

theorem execDecStart_effect {s t : State} (h : execDecStart s = .next t) : Effect s .decStart t :=
  .of_gate h fun he h => .of_check he h fun hp h => by
    cases h
    exact .sessions _ _ (.inl he) (.decStart (by simpa using hp))

theorem execDecByte_effect {b : Byte} {s t : State} (h : execDecByte b s = .next t) : Effect s (.decByte b) t :=
  .of_gate h fun he h => .of_check he h fun ha h => by
    split at h
    · split at h <;> cases h
      · exact .sessions _ _ (.inl he) (.header b _ (by simpa using ha))
      · exact .raised _ _ he
    · rename_i hd
      refine .sessions _ _ (.inl he) ?_
      rcases Flow.result_eq_next h with h | h
      · obtain ⟨m, hm, hk⟩ := Flow.andThen_eq_go h
        cases hk
        exact .hold b m (by simpa using hd) (releaseHeld_walked (.inl hm))
      · rcases Flow.andThen_eq_raised h with hm | ⟨m, _, hk⟩
        · exact .byteStopped b t (releaseHeld_walked (.inr hm))
        · cases hk

theorem checkTrailing_cases (s : State) :
    checkTrailing s = .raised (s.raise .corruptPayload) ∨ checkTrailing s = .go s := by
  unfold checkTrailing
  split
  · exact .inl rfl
  · exact .inr rfl

/-- What DEC_FINISH does with a payload that is not empty: it raises or goes on without a walk, it meets no tree, or it walks
the held byte, in which it raises, raises after it for a candidate left over, or goes on (R186). -/
theorem finishPayload_cases (s : State) :
    finishPayload s = .raised (s.raise .corruptPayload) ∨ finishPayload s = .go s ∨ (∃ r, finishPayload s = .broken r) ∨
      ∃ m, Walked s m ∧ (finishPayload s = .raised m ∨
        finishPayload s = .raised (m.dropHold.raise .corruptPayload) ∨ finishPayload s = .go m.dropHold) := by
  generalize hf : finishPayload s = f
  unfold finishPayload at hf
  split at hf
  · split at hf
    · exact .inl hf.symm
    · exact (checkTrailing_cases s).imp (hf ▸ ·) (.inl <| hf ▸ ·)
  · cases hw : release s.dhold (8 - s.dp.val) s with
    | go m =>
      rw [hw] at hf
      exact .inr (.inr (.inr ⟨m, walkBits_walked (.inl hw), .inr (hf ▸ checkTrailing_cases m.dropHold)⟩))
    | raised m =>
      rw [hw] at hf
      exact .inr (.inr (.inr ⟨m, walkBits_walked (.inr hw), .inl hf.symm⟩))
    | broken r =>
      rw [hw] at hf
      exact .inr (.inr (.inl ⟨r, hf.symm⟩))

theorem execDecFinish_effect {s t : State} (h : execDecFinish s = .next t) : Effect s .decFinish t :=
  .of_gate h fun he h => .of_check he h fun ha h => by
    have ha : s.decActive = true := by simpa using ha
    split at h
    · rcases finishPayload_cases s with hf | hf | ⟨r, hf⟩ | ⟨m, hw, hf | hf | hf⟩ <;> rw [hf] at h <;> cases h
      · exact .raised _ _ he
      · exact .sessions _ _ (.inl he) (.finish ha)
      · exact .sessions _ _ (.inl he) (.finishStopped _ hw)
      · exact .sessions _ _ (.inl he) (.trailing m hw)
      · exact .sessions _ _ (.inl he) (.finishHeld m ha hw)
    · cases h
      exact .sessions _ _ (.inl he) (.finish ha)

theorem execDecRead_effect {k : Nat} {s t : State} (h : execDecRead k s = .next t) : Effect s (.decRead k) t :=
  .of_gate h fun he h => .of_check he h fun _ h => by
    split at h <;> cases h
    · exact .raised _ _ he
    · exact .answered _ _ _ he (.inr (.inr (.inr (.inr (.inr ⟨k, rfl⟩)))))

/-- Every next state of a command is one of its effects. -/
theorem exec_effect {i : Instr} {s t : State} (h : exec i s = .next t) : Effect s i t := by
  cases i with
  | nop => cases h; exact .ignored _
  | clear => cases h; exact .cleared
  | errClear => cases h; exact .sessions _ _ (.inr rfl) .errClear
  | freqLoad x => exact execFreqLoad_effect h
  | freqRead k => exact execFreqRead_effect h
  | build => exact execBuild_effect h
  | nodeRead k => exact execNodeRead_effect h
  | gen => exact execGen_effect h
  | codeFind x => exact execCodeFind_effect h
  | codeRead k => exact execCodeRead_effect h
  | encStart => exact execEncStart_effect h
  | encSym x => exact execEncSym_effect h
  | encFinish => exact execEncFinish_effect h
  | outRead k => exact execOutRead_effect h
  | decStart => exact execDecStart_effect h
  | decByte b => exact execDecByte_effect h
  | decFinish => exact execDecFinish_effect h
  | decRead k => exact execDecRead_effect h

/-! ### Steps -/

/-- The tables and the sessions of `s`, and everything else of `o`: ARG, the latch, BUSY, OVR, ERR, the results, and what stands
outside the block. -/
def State.withControl (s o : State) : State :=
  { s with
    arg := o.arg, pcmd := o.pcmd, parg := o.parg, busy := o.busy, ovr := o.ovr, err := o.err, res0 := o.res0, res1 := o.res1
    inReset := o.inReset, prog := o.prog, turns := o.turns, resp := o.resp, draws := o.draws }

/-- A host access leaves the tables, the sessions and ERR (20_memory.md R63). -/
theorem busAccess_control {op : BusOp} {s t : State} (h : busAccess op s = .next t) :
    t = s.withControl t ∧ t.err = s.err := by
  rcases busAccess_cases h with rfl | rfl | ⟨r, rfl⟩ | ⟨r, v, rfl⟩
  · exact ⟨rfl, rfl⟩
  · exact ⟨rfl, rfl⟩
  · rcases readReg_cases r s with h | ⟨_, _, h⟩ <;> rw [h] <;> exact ⟨rfl, rfl⟩
  · rcases writeReg_cases r v s with ⟨_, _, h⟩ | ⟨_, _, h⟩ | ⟨_, h⟩ | ⟨_, _, h⟩ <;> rw [h] <;> exact ⟨rfl, rfl⟩

theorem hostTurn_control {s t : State} (h : hostTurn s = .next t) : t = s.withControl t ∧ t.err = s.err := by
  rcases hostTurn_cases h with rfl | ⟨op, m, hm, rfl | ⟨p, rfl⟩⟩
  · exact ⟨rfl, rfl⟩
  · exact busAccess_control hm
  · obtain ⟨hd, he⟩ := busAccess_control hm
    exact ⟨congrArg (State.setProg · p) hd, he⟩

/-- What a step can do: leave the tables and sessions, and ERR if it is set; complete the latched command; or end a reset. -/
theorem step_effect {s t : State} (h : step s = .next t) :
    (t = s.withControl t ∧ (s.err ≠ .none → t.err = s.err)) ∨
    (s.busy = true ∧ ∃ i m, decode s.pcmd = .ok i ∧ Effect (s.setTurns s.turns.tail) i m ∧ t = m.finish) ∨
    (s.inReset = true ∧ t = (State.resetOf s.cfg).withControl t ∧ t.err = .none) := by
  obtain ⟨u, hu, h⟩ := step_cases h
  subst hu
  rcases h with rfl | h | h | ⟨level, rfl⟩
  · exact .inl ⟨rfl, fun _ => rfl⟩
  · rcases coreTurn_cases h with ⟨_, rfl⟩ | ⟨hb, _, i, m, hd, hm, rfl⟩ | ⟨_, _, e, _, rfl⟩
    · exact .inl ⟨rfl, fun _ => rfl⟩
    · exact .inr (.inl ⟨hb, i, m, hd, exec_effect hm, rfl⟩)
    · exact .inl ⟨rfl, fun he => if_neg he⟩
  · obtain ⟨hd, he⟩ := hostTurn_control h
    exact .inl ⟨hd, fun _ => he⟩
  · rcases resetTurn_cases level (s.setTurns s.turns.tail) with ⟨_, h⟩ | ⟨_, hr, h⟩ | ⟨_, _, h⟩ <;> rw [h]
    · exact .inl ⟨rfl, fun _ => rfl⟩
    · exact .inr (.inr ⟨hr, rfl, rfl⟩)
    · exact .inl ⟨rfl, fun _ => rfl⟩

/-- A property of the tables and sessions that holds at reset is kept by the updates a step makes around a command. -/
theorem KeptAround.of_control {P : State → Prop} (control : ∀ s o, P s → P (s.withControl o))
    (reset : ∀ s, P s → P (State.resetOf s.cfg)) : KeptAround P where
  illegal s := control s (s.raise .illegalCmd)
  finish s := control s s.finish
  issue s w := control s (s.issue w)
  overrun s := control s s.overrun
  setArg s v := control s (s.setArg v)
  respond s r := control s (s.respond r)
  draw s := control s s.draw
  setProg s p := control s (s.setProg p)
  setTurns s ts := control s (s.setTurns ts)
  setReset s l := control s (s.setReset l)
  resetBlock s h := control (State.resetOf s.cfg) s.resetBlock (reset s h)

/-- A property of the tables and sessions that holds at reset and is kept by the commands that write them is kept by every
step. -/
theorem step_keeps_data {P : State → Prop} (control : ∀ s o, P s → P (s.withControl o))
    (reset : ∀ s, P s → P (State.resetOf s.cfg)) (tables : ∀ s i t, TableWrite s i t → P s → P t)
    (sessions : ∀ s i t, SessionWrite s i t → P s → P t) {s t : State} (hs : P s) (h : step s = .next t) : P t := by
  refine step_keeps (.of_control control reset) (fun i u m hu he => ?_) hs h
  cases exec_effect he with
  | ignored => exact hu
  | raised _ e => exact control u (u.raise e) hu
  | cleared => exact control (State.resetOf u.cfg) u.clearAll (reset u hu)
  | answered _ r0 r1 => exact control u (u.setResults r0 r1) hu
  | tables _ _ _ w => exact tables u i m w hu
  | sessions _ _ _ w => exact sessions u i m w hu

end Sys2Proof.Machine
end

section
/-! ### O55, O56, O57: the invariants that every step keeps by themselves -/

namespace Sys2Proof.Machine

/-- The state after a walk, written out. -/
theorem Walked.exists_eq {s t : State} (h : Walked s t) :
    ∃ e d k b, t = { s with err := e, ddead := d, dnode := k, decbuf := b } := ⟨_, _, _, _, h.frame⟩

/-- The second state holds the tables, the phase and the parameters of the first. -/
def SameTables (s t : State) : Prop :=
  t = { t with
    freq := s.freq, total := s.total, node := s.node, root := s.root, code := s.code, phase := s.phase, cfg := s.cfg }

theorem SessionWrite.sameTables {i : Instr} {s t : State} (w : SessionWrite s i t) : SameTables s t := by
  cases w with
  | errClear | encStart | encSym | encFinish | decStart | header | finish => rfl
  | hold _ _ _ hw | byteStopped _ _ hw | finishHeld _ _ hw | finishStopped _ hw | trailing _ hw =>
    obtain ⟨e, d, k, b, rfl⟩ := hw.exists_eq
    rfl

theorem SessionWrite.cfg {i : Instr} {s t : State} (w : SessionWrite s i t) : t.cfg = s.cfg := by
  rw [w.sameTables]

theorem TableWrite.cfg {i : Instr} {s t : State} (w : TableWrite s i t) : t.cfg = s.cfg := by
  cases w <;> rfl

/-- FREQ_LOAD's checks keep the counts positive, the symbols distinct and TOTAL their sum (R33, R110). -/
theorem freqInv_appendFreq {s : State} (h : FreqInv s) {x : Symbol} (hc : s.count ≠ 0) (hx : find s.freq x = none)
    (ht : s.total.toNat + s.count ≤ 2 ^ 32 - 1) : FreqInv (s.appendFreq x s.parg) := by
  obtain ⟨hpos, hnd, hsum⟩ := h
  unfold State.count at hc ht
  refine ⟨?_, ?_, ?_⟩
  · intro e he
    rcases List.mem_append.mp he with he | he
    · exact hpos e he
    · rw [List.mem_singleton.mp he]
      exact fun h0 => hc (congrArg BitVec.toNat h0)
  · have hnew : ∀ e ∈ s.freq, e.sym ≠ x := find_eq_none.mp hx
    simpa [List.nodup_append, hnd] using hnew
  · simp only [State.appendFreq_total, State.appendFreq_freq, countSum, List.map_append, List.sum_append, BitVec.toNat_add] at *
    simp
    omega

theorem TableWrite.freqInv {i : Instr} {s t : State} (w : TableWrite s i t) (h : FreqInv s) : FreqInv t := by
  cases w with
  | freqLoad x _ hc hx _ ht => exact freqInv_appendFreq h hc hx ht
  | build | gen => exact h

theorem SessionWrite.freqInv {i : Instr} {s t : State} (w : SessionWrite s i t) (h : FreqInv s) : FreqInv t := by
  rw [w.sameTables]
  exact h

theorem freqInv_resetOf (c : Params) : FreqInv (State.resetOf c) := by
  simp [FreqInv, countSum]

/-- Outside phase CODES every session flag is 0. -/
theorem SessionInv.flags_of_phase {s : State} (h : SessionInv s) (hp : s.phase ≠ .codes) :
    s.encActive = false ∧ s.outDone = false ∧ s.decActive = false ∧ s.decDone = false := by
  obtain ⟨_, _, hc, _⟩ := h
  simpa [not_or] using mt hc hp

theorem SessionInv.codes_of_decActive {s : State} (h : SessionInv s) (ha : s.decActive = true) : s.phase = .codes := by
  obtain ⟨_, _, hc, _⟩ := h
  exact hc (.inr (.inr (.inl ha)))

/-- The tables are written only before phase CODES. -/
theorem TableWrite.phase_ne_codes {i : Instr} {s t : State} (w : TableWrite s i t) : s.phase ≠ .codes := by
  cases w <;> simp [*]

theorem TableWrite.sessionInv {i : Instr} {s t : State} (w : TableWrite s i t) (h : SessionInv s) : SessionInv t := by
  obtain ⟨he, ho, hd, hdd⟩ := h.flags_of_phase w.phase_ne_codes
  cases w with
  | freqLoad => exact h
  | build | gen => simp [SessionInv, *]

theorem SessionWrite.sessionInv {i : Instr} {s t : State} (w : SessionWrite s i t) (h : SessionInv s) : SessionInv t := by
  have ⟨henc, hdec, hphase, hout⟩ := h
  cases w with
  | errClear => simp [SessionInv]
  | encStart hp => exact ⟨by simp, hdec, fun _ => hp, fun _ => rfl⟩
  | encSym | header => exact h
  | encFinish ha => exact ⟨by simp, hdec, fun _ => hphase (.inl ha), nofun⟩
  | decStart hp => exact ⟨henc, by simp, fun _ => hp, hout⟩
  | finish ha => exact ⟨henc, by simp, fun _ => h.codes_of_decActive ha, hout⟩
  | finishHeld m ha hw =>
    obtain ⟨e, d, k, b, rfl⟩ := hw.exists_eq
    exact ⟨henc, by simp, fun _ => h.codes_of_decActive ha, hout⟩
  | hold _ _ _ hw | byteStopped _ _ hw | finishStopped _ hw | trailing _ hw =>
    obtain ⟨e, d, k, b, rfl⟩ := hw.exists_eq
    exact h

theorem sessionInv_resetOf (c : Params) : SessionInv (State.resetOf c) := by
  simp [SessionInv]

theorem Walked.memory_wf {s t : State} (hw : Walked s t) (h : Memory.wf s) : Memory.wf t := by
  induction hw with
  | refl => exact h
  | tail _ hb ih =>
    cases hb with
    | dead | overflow | move => exact ih
    | emitOnly x hl => exact memory_wf_pushSymbol ih hl x
    | emitLeaf x _ hl => exact memory_wf_pushSymbol ih hl x

theorem TableWrite.memory_wf {i : Instr} {s t : State} (w : TableWrite s i t) (h : Memory.wf s) : Memory.wf t := by
  cases w with
  | freqLoad x _ _ _ hl => exact memory_wf_appendFreq h hl x s.parg
  | build ns r _ hb => exact memory_wf_setTree h hb
  | gen => exact h

theorem SessionWrite.memory_wf {i : Instr} {s t : State} (w : SessionWrite s i t) (hc : s.cfg.Wf) (h : Memory.wf s) :
    Memory.wf t := by
  obtain ⟨_, ⟨hout, _⟩, _⟩ := hc
  cases w with
  | errClear =>
    obtain ⟨hf, hn, _⟩ := h
    exact ⟨hf, hn, by simp⟩
  | encStart =>
    obtain ⟨hf, hn, _, _, hd⟩ := h
    exact ⟨hf, hn, by simp, by simp, hd⟩
  | encSym x c _ _ hl => exact memory_wf_appendBits h hl
  | encFinish => exact memory_wf_closeEnc h hout
  | decStart =>
    obtain ⟨hf, hn, he, ho, _⟩ := h
    exact ⟨hf, hn, he, ho, by simp⟩
  | header | finish => exact h
  | hold _ _ _ hw | byteStopped _ _ hw | finishHeld _ _ hw | finishStopped _ hw | trailing _ hw => exact hw.memory_wf h

/-- Settles O55: only FREQ_LOAD writes FREQ and TOTAL, and its checks keep the invariant. -/
theorem freqInvariantKept : Obligations.FreqInvariantKept := fun _ _ hs h =>
  step_keeps_data (fun _ _ h => h) (fun s _ => freqInv_resetOf s.cfg) (fun _ _ _ => TableWrite.freqInv)
    (fun _ _ _ => SessionWrite.freqInv) hs h

/-- Settles O56: the flags are set in phase CODES only, and PHASE moves forward only while they are all 0. -/
theorem sessionInvariantKept : Obligations.SessionInvariantKept := fun _ _ hs h =>
  step_keeps_data (fun _ _ h => h) (fun s _ => sessionInv_resetOf s.cfg) (fun _ _ _ => TableWrite.sessionInv)
    (fun _ _ _ => SessionWrite.sessionInv) hs h

/-- Settles O57: each write to a memory checks its capacity, and no step writes the parameters. -/
theorem memoryCapacityKept : Obligations.MemoryCapacityKept := by
  intro s t hc hm h
  refine step_keeps_data (P := fun u => Memory.wf u ∧ u.cfg = s.cfg) (fun _ _ h => h) ?_ ?_ ?_ ⟨hm, rfl⟩ h
  · exact fun u ⟨_, hu⟩ => ⟨memory_wf_resetOf u.cfg, hu⟩
  · exact fun u i v w ⟨hm, hu⟩ => ⟨w.memory_wf hm, w.cfg.trans hu⟩
  · exact fun u i v w ⟨hm, hu⟩ => ⟨w.memory_wf (hu ▸ hc) hm, w.cfg.trans hu⟩

end Sys2Proof.Machine
end

section
/-! ### The tree BUILD makes (10_state.md R34 to R36, 42_tree_builder.md R120 to R124) -/

namespace Sys2Proof.Machine

theorem innerOk_iff {nodes : List Node} {k : Nat} : innerOk nodes k = true ↔
    ∃ w l r, nodes[k]? = some (.int w l r) ∧ l < k ∧ r < k ∧ l ≠ r ∧ w.toNat = weightAt nodes l + weightAt nodes r := by
  unfold innerOk
  split
  · rename_i w l r h
    simp [h, and_assoc]
  · rename_i h
    exact ⟨nofun, fun ⟨w, l, r, hk, _⟩ => (h w l r hk).elim⟩

/-- The leaves stand at the front, and every later node is an internal node over earlier ones (R34, R36). -/
structure Layered (freq : List FreqEntry) (nodes : List Node) : Prop where
  front : nodes.take freq.length = leaves freq
  inner : ∀ k < nodes.length, freq.length ≤ k → innerOk nodes k = true

theorem Layered.length_le {freq : List FreqEntry} {nodes : List Node} (h : Layered freq nodes) :
    freq.length ≤ nodes.length := by
  simpa [leaves] using congrArg List.length h.front

/-- Node k of the front is leaf k. -/
theorem Layered.leaf {freq : List FreqEntry} {nodes : List Node} (h : Layered freq nodes) {k : Nat}
    (hk : k < freq.length) : nodes[k]? = some (.leaf freq[k].sym freq[k].cnt) := by
  have := congrArg (·[k]?) h.front
  simpa [leaves, List.getElem?_take, hk] using this

/-- An internal node stands behind the front, and its children before it. -/
theorem Layered.children_lt {freq : List FreqEntry} {nodes : List Node} (h : Layered freq nodes) {k l r : Nat} {w : Word}
    (hk : nodes[k]? = some (.int w l r)) : freq.length ≤ k ∧ l < k ∧ r < k := by
  have hn : freq.length ≤ k := by
    by_contra hlt
    rw [h.leaf (by omega)] at hk
    cases hk
  obtain ⟨w', l', r', hk', hl, hr, _⟩ := innerOk_iff.mp (h.inner k (List.getElem?_eq_some_iff.mp hk).1 hn)
  rw [hk] at hk'
  cases hk'
  exact ⟨hn, hl, hr⟩

theorem mem_childIndices {nodes : List Node} {j : Nat} (h : j ∈ childIndices nodes) :
    ∃ (k : Nat) (w : Word) (l r : Nat), nodes[k]? = some (.int w l r) ∧ (j = l ∨ j = r) := by
  obtain ⟨nd, hmem, hj⟩ := List.mem_flatMap.mp h
  obtain ⟨k, hk⟩ := List.mem_iff_getElem?.mp hmem
  cases nd with
  | leaf => simp at hj
  | int w l r => exact ⟨k, w, l, r, hk, by simpa using hj⟩

/-- The last node, and whatever would follow it, is no child. -/
theorem Layered.count_childIndices_eq_zero {freq : List FreqEntry} {nodes : List Node} (h : Layered freq nodes) {k : Nat}
    (hk : nodes.length ≤ k + 1) : (childIndices nodes).count k = 0 := by
  rw [List.count_eq_zero]
  intro hmem
  obtain ⟨j, w, l, r, hj, hkj⟩ := mem_childIndices hmem
  have := (List.getElem?_eq_some_iff.mp hj).1
  obtain ⟨_, hl, hr⟩ := h.children_lt hj
  omega

theorem weightAt_append {nodes : List Node} {k : Nat} (hk : k < nodes.length) (n : Node) :
    weightAt (nodes ++ [n]) k = weightAt nodes k := by
  simp [weightAt, List.getElem?_append_left hk]

/-- Adding an internal node over two different nodes whose weights it adds up keeps the layering. -/
theorem Layered.append {freq : List FreqEntry} {nodes : List Node} (h : Layered freq nodes) {w : Word} {l r : Nat}
    (hl : l < nodes.length) (hr : r < nodes.length) (hne : l ≠ r)
    (hw : w.toNat = weightAt nodes l + weightAt nodes r) : Layered freq (nodes ++ [.int w l r]) where
  front := by rw [List.take_append_of_le_length h.length_le, h.front]
  inner := by
    intro k hk hn
    rw [innerOk_iff]
    rcases Nat.lt_or_ge k nodes.length with hlt | hge
    · obtain ⟨w', l', r', hk', hl', hr', hne', hw'⟩ := innerOk_iff.mp (h.inner k hlt hn)
      refine ⟨w', l', r', by rw [List.getElem?_append_left hlt, hk'], hl', hr', hne', ?_⟩
      rw [weightAt_append (by omega), weightAt_append (by omega), hw']
    · obtain rfl : k = nodes.length := by simp at hk; omega
      refine ⟨w, l, r, by simp, hl, hr, hne, ?_⟩
      rw [weightAt_append hl, weightAt_append hr, hw]

/-- What the merge loop keeps: the nodes are layered, each is a child once or waits in the queue once, a queue element knows
its node's weight, and the weights in the queue add up to the sum of the counts. -/
structure MergeInv (freq : List FreqEntry) (nodes : List Node) (q : List QEntry) : Prop where
  layered : Layered freq nodes
  once : ∀ k < nodes.length, (childIndices nodes).count k + (q.map QEntry.k).count k = 1
  weights : ∀ e ∈ q, e.k < nodes.length ∧ weightAt nodes e.k = e.w.toNat
  sum : (q.map fun e => e.w.toNat).sum = countSum freq

theorem MergeInv.merge {freq : List FreqEntry} {nodes : List Node} {q q1 q2 : List QEntry} {x y : QEntry}
    (h : MergeInv freq nodes q) (hx : popMin q = some (x, q1)) (hy : popMin q1 = some (y, q2))
    (hw : x.w.toNat + y.w.toNat < 2 ^ 32) :
    MergeInv freq (nodes ++ [.int (x.w + y.w) x.k y.k]) (q2 ++ [⟨x.w + y.w, nodes.length⟩]) := by
  have hperm : (x :: y :: q2).Perm q := ((popMin_perm hy).cons x).trans (popMin_perm hx)
  have hsum : (x.w + y.w).toNat = x.w.toNat + y.w.toNat := by
    rw [BitVec.toNat_add]
    omega
  obtain ⟨hxk, hxw⟩ := h.weights x (hperm.subset (by simp))
  obtain ⟨hyk, hyw⟩ := h.weights y (hperm.subset (by simp))
  have hcount (k : Nat) : (q.map QEntry.k).count k = ((x :: y :: q2).map QEntry.k).count k :=
    ((hperm.map QEntry.k).count_eq k).symm
  have hne : x.k ≠ y.k := by
    intro he
    have := h.once x.k hxk
    rw [hcount] at this
    simp [he] at this
    omega
  constructor
  · exact h.layered.append hxk hyk hne (by omega)
  · intro k hk
    have hchild : (childIndices (nodes ++ [.int (x.w + y.w) x.k y.k])).count k =
        (childIndices nodes).count k + [x.k, y.k].count k := by
      simp [childIndices]
    rw [hchild]
    rcases Nat.lt_or_ge k nodes.length with hlt | hge
    · have := h.once k hlt
      rw [hcount] at this
      simp [List.count_cons, hlt.ne'] at this ⊢
      omega
    · obtain rfl : k = nodes.length := by simp at hk; omega
      have hq : (q2.map QEntry.k).count nodes.length = 0 := by
        rw [List.count_eq_zero]
        intro hmem
        obtain ⟨e, he, hek⟩ := List.mem_map.mp hmem
        have := (h.weights e (hperm.subset (by simp [he]))).1
        omega
      rw [h.layered.count_childIndices_eq_zero (by omega)]
      simp [hq, hxk.ne, hyk.ne]
  · intro e he
    rcases List.mem_append.mp he with he | he
    · obtain ⟨hk, hwe⟩ := h.weights e (hperm.subset (by simp [he]))
      exact ⟨by simp; omega, by rw [weightAt_append hk, hwe]⟩
    · rw [List.mem_singleton.mp he]
      simp [weightAt, Node.weight]
  · have hs := (hperm.map fun e : QEntry => e.w.toNat).sum_eq
    rw [h.sum] at hs
    simp [hsum] at hs ⊢
    omega

theorem seedQueue_eq (start : Nat) (freq : List FreqEntry) :
    seedQueue start freq = (freq.zipIdx start).map fun p => ⟨p.1.cnt, p.2⟩ := by
  induction freq generalizing start with
  | nil => rfl
  | cons e es ih => simp [seedQueue, ih]

theorem mergeInv_start (freq : List FreqEntry) : MergeInv freq (leaves freq) (seedQueue 0 freq) where
  layered := ⟨by simp [leaves], fun k hk hn => by simp [leaves] at hk; omega⟩
  once := by
    intro k hk
    have hchild : childIndices (leaves freq) = [] := by simp [childIndices, leaves]
    have hkeys : (seedQueue 0 freq).map QEntry.k = List.range' 0 freq.length := by
      rw [seedQueue_eq, List.map_map]
      exact List.zipIdx_map_snd 0 freq
    rw [hchild, hkeys, List.count_nil, Nat.zero_add]
    exact List.count_eq_one_of_mem List.nodup_range' (by simpa [leaves] using hk)
  weights := by
    intro e he
    rw [seedQueue_eq] at he
    obtain ⟨⟨f, k⟩, hmem, rfl⟩ := List.mem_map.mp he
    have hk : freq[k]? = some f := List.mk_mem_zipIdx_iff_getElem?.mp hmem
    exact ⟨by simpa [leaves] using (List.getElem?_eq_some_iff.mp hk).1, by simp [weightAt, leaves, hk, Node.weight]⟩
  sum := by
    rw [seedQueue_eq, List.map_map, countSum, ← List.zipIdx_map_fst 0 freq, List.map_map]
    simp [Function.comp_def]

theorem mergeLoop_inv {freq : List FreqEntry} {fuel : Nat} {nodes ns : List Node} {q q' : List QEntry}
    (h : MergeInv freq nodes q) (hm : mergeLoop fuel nodes q = .ok (ns, q')) : MergeInv freq ns q' := by
  induction fuel generalizing nodes q with
  | zero => cases hm; exact h
  | succ fuel ih =>
    rcases mergeLoop_succ fuel nodes q with ⟨_, he⟩ | ⟨x, q1, y, q2, hx, hy, ⟨hw, he⟩ | ⟨_, he⟩⟩ <;> rw [he] at hm
    · cases hm
      exact h
    · exact ih (h.merge hx hy hw) hm
    · cases hm

/-- With one element left in the queue, it is the root, the last node. -/
theorem MergeInv.root {freq : List FreqEntry} {nodes : List Node} {q : List QEntry} (h : MergeInv freq nodes q)
    (hq : q.length ≤ 1) (hn : nodes ≠ []) : ∃ e, q = [e] ∧ e.k + 1 = nodes.length := by
  have hpos := List.length_pos_iff.mpr hn
  have hlast := h.once (nodes.length - 1) (by omega)
  rw [h.layered.count_childIndices_eq_zero (by omega)] at hlast
  match q, hq with
  | [], _ => simp at hlast
  | [e], _ =>
    refine ⟨e, rfl, ?_⟩
    by_contra hne
    simp [List.count_cons] at hlast
    omega

/-- BUILD makes the tree of the FrequencyTable (R34 to R36). -/
theorem buildTree_treeOf {freq : List FreqEntry} {nodes : List Node} {root : Option Nat}
    (h : buildTree freq = .ok (nodes, root)) :
    TreeOf freq nodes root ∧ ∀ r, root = some r → weightAt nodes r = countSum freq := by
  rcases Nat.eq_zero_or_pos freq.length with h0 | hpos
  · rw [List.length_eq_zero_iff.mp h0] at h ⊢
    cases h
    exact ⟨by decide, nofun⟩
  · have hlen := buildTree_length h
    unfold buildTree at h
    split at h
    · cases h
    · rename_i ns q hm
      cases h
      have inv := mergeLoop_inv (mergeInv_start freq) hm
      obtain ⟨_, _, _, hq⟩ := mergeLoop_shape hm
      have hne : nodes ≠ [] := List.ne_nil_of_length_pos (hpos.trans_le inv.layered.length_le)
      obtain ⟨e, rfl, he⟩ := inv.root (hq (by rw [seedQueue_length]; omega)) hne
      refine ⟨⟨hlen, ?_, inv.layered.front, inv.layered.inner, ?_⟩, ?_⟩
      · have hn : nodeCount freq.length = 2 * freq.length - 1 := if_neg hpos.ne'
        rw [rootIndex, if_neg hpos.ne']
        exact congrArg some (by omega)
      · intro k hk
        have := inv.once k hk
        simp only [List.map_singleton, List.count_singleton, List.head?_cons, Option.map_some, Option.some.injEq] at this ⊢
        split <;> simp_all
      · intro r hr
        cases hr
        simpa [(inv.weights e (by simp)).2] using inv.sum

/-! ### The codes GEN makes (10_state.md R37, 43_code_table.md R140 to R143) -/

theorem descend_int {nodes : List Node} {k l r : Nat} {w : Word} (h : nodes[k]? = some (.int w l r)) (b : Bool) (bs : Bits) :
    descend nodes k (b :: bs) = descend nodes (if b then r else l) bs := by
  simp [descend, h]

/-- The walk's codes are the paths to their leaves (R141). -/
theorem walkCodes_descend {fuel : Nat} {nodes : List Node} {k : Nat} {s : Bits} {found : List (Nat × Bits)}
    (h : walkCodes fuel nodes k s = some found) {i : Nat} {c : Bits} (hm : (i, c) ∈ found) :
    ∃ p, c = s ++ p ∧ descend nodes k p = some i := by
  induction fuel generalizing k s found with
  | zero => cases h
  | succ fuel ih =>
    unfold walkCodes at h
    split at h
    · cases h
    · cases h
      cases List.mem_singleton.mp hm
      exact ⟨[], by simp, rfl⟩
    · rename_i w l r hk
      split at h
      · cases h
      · rename_i ls hl
        split at h
        · cases h
        · rename_i rs hr
          cases h
          rcases List.mem_append.mp hm with hm | hm
          · obtain ⟨p, rfl, hp⟩ := ih hl hm
            exact ⟨false :: p, by simp, by simpa [descend_int hk] using hp⟩
          · obtain ⟨p, rfl, hp⟩ := ih hr hm
            exact ⟨true :: p, by simp, by simpa [descend_int hk] using hp⟩

theorem codeOf_mem {found : List (Nat × Bits)} {i : Nat} {c : Bits} (h : codeOf found i = some c) : (i, c) ∈ found := by
  unfold codeOf at h
  split at h
  · cases h
  · rename_i p hp
    cases h
    have hi : p.1 = i := by simpa using List.find?_some hp
    exact hi ▸ List.mem_of_find?_eq_some hp

theorem allSome_eq_some {os : List (Option Bits)} {cs : List Bits} (h : allSome os = some cs) : os = cs.map some := by
  induction os generalizing cs with
  | nil => cases h; rfl
  | cons o os ih =>
    cases o with
    | none => cases h
    | some c =>
      unfold allSome at h
      split at h
      · cases h
      · rename_i rest hr
        cases h
        rw [ih hr, List.map_cons]

/-- A path goes down through internal nodes only, each before its parent, so it is no longer than there are internal nodes up
to its start (R143). -/
theorem Layered.length_path_le {freq : List FreqEntry} {nodes : List Node} (h : Layered freq nodes) {p : Bits} {k i : Nat}
    (hp : descend nodes k p = some i) : p.length ≤ k + 1 - freq.length := by
  induction p generalizing k with
  | nil => simp
  | cons b bs ih =>
    unfold descend at hp
    split at hp
    · rename_i w l r hk
      obtain ⟨hn, hl, hr⟩ := h.children_lt hk
      have := ih hp
      rw [List.length_cons]
      split at this <;> omega
    · cases hp

theorem TreeOf.layered {freq : List FreqEntry} {nodes : List Node} {root : Option Nat} (h : TreeOf freq nodes root) :
    Layered freq nodes := by
  obtain ⟨_, _, hfront, hinner, _⟩ := h
  exact ⟨hfront, hinner⟩

/-- The codes of the walk are one path from the root for each leaf (R141). -/
theorem treeCodes_descend {nodes : List Node} {root : Option Nat} {n : Nat} {cs : List Bits}
    (h : treeCodes nodes root n = some cs) : ∃ r, root = some r ∧ cs.length = n ∧
      ∀ (i : Nat) (c : Bits), cs[i]? = some c → descend nodes r c = some i := by
  unfold treeCodes at h
  split at h
  · cases h
  · rename_i r
    split at h
    · cases h
    · rename_i found hf
      have hcs := allSome_eq_some h
      refine ⟨r, rfl, by simpa using (congrArg List.length hcs).symm, ?_⟩
      intro i c hc
      have hi : i < n := by
        have := (List.getElem?_eq_some_iff.mp hc).1
        have := congrArg List.length hcs
        simp at this
        omega
      have hfound : codeOf found i = some c := by
        have := congrArg (·[i]?) hcs
        simpa [hi, hc] using this
      obtain ⟨p, rfl, hp⟩ := walkCodes_descend hf (codeOf_mem hfound)
      exact hp

/-- With two leaves or more, CODE is the code table of the tree when entry i is a path from the root to leaf i, with the
lengths of R143. -/
theorem codesOk_iff {n : Nat} {nodes : List Node} {root : Option Nat} {code : List Bits} (hn : 2 ≤ n) :
    codesOk n nodes root code = true ↔ ∃ r, root = some r ∧ code.length = n ∧
      ∀ (i : Nat) (c : Bits), code[i]? = some c → 1 ≤ c.length ∧ c.length ≤ n - 1 ∧ descend nodes r c = some i := by
  unfold codesOk
  rw [if_neg (by omega)]
  cases root with
  | none => simp
  | some r =>
    rw [Bool.and_eq_true, beq_iff_eq, List.all_eq_true]
    constructor
    · rintro ⟨hlen, hall⟩
      refine ⟨r, rfl, hlen, fun i c hc => ?_⟩
      have hi := hall i (by simpa [hlen] using (List.getElem?_eq_some_iff.mp hc).1)
      simpa [hc, and_assoc] using hi
    · rintro ⟨_, hr, hlen, hpath⟩
      cases hr
      refine ⟨hlen, fun i hi => ?_⟩
      obtain ⟨c, hc⟩ : ∃ c, code[i]? = some c := ⟨_, List.getElem?_eq_getElem (by simpa [hlen] using hi)⟩
      simpa [hc, and_assoc] using hpath i c hc

/-- GEN makes the code table of a tree (R140 to R143). -/
theorem genCodes_codesOk {freq : List FreqEntry} {nodes : List Node} {root : Option Nat} {cs : List Bits}
    (ht : TreeOf freq nodes root) (h : genCodes nodes root freq.length = some cs) :
    codesOk freq.length nodes root cs = true := by
  unfold genCodes at h
  split at h
  · cases h
    simp_all [codesOk]
  · split at h
    · cases h
      simp_all [codesOk]
    · obtain ⟨r, rfl, hlen, hpath⟩ := treeCodes_descend h
      have hr : r = 2 * freq.length - 2 := by
        obtain ⟨_, hr, _⟩ := ht
        rw [rootIndex, if_neg ‹_›] at hr
        exact Option.some.inj hr
      refine (codesOk_iff (by omega)).mpr ⟨r, rfl, hlen, fun i c hc => ?_⟩
      have hp := hpath i c hc
      have hi := (List.getElem?_eq_some_iff.mp hc).1
      have hle := ht.layered.length_path_le hp
      refine ⟨?_, by omega, hp⟩
      by_contra h0
      obtain rfl : c = [] := List.length_eq_zero_iff.mp (by omega)
      cases hp
      omega

end Sys2Proof.Machine
end

section
/-! ### The tree, the codes, the walker and the payload under the commands that write (O58) -/

namespace Sys2Proof.Machine

theorem TableWrite.treeInv {i : Instr} {s t : State} (w : TableWrite s i t) (h : TreeInv s) : TreeInv t := by
  obtain ⟨hload, htree⟩ := h
  cases w with
  | freqLoad x hp => exact ⟨fun _ => hload hp, fun hne => absurd hp hne⟩
  | build ns r _ hb => exact ⟨nofun, fun _ => (buildTree_treeOf hb).1⟩
  | gen cs hp => exact ⟨nofun, fun _ => htree (by simp [hp])⟩

theorem SessionWrite.treeInv {i : Instr} {s t : State} (w : SessionWrite s i t) (h : TreeInv s) : TreeInv t := by
  rw [w.sameTables]
  exact h

theorem TableWrite.codeInv {i : Instr} {s t : State} (w : TableWrite s i t) (ht : TreeInv s) (h : CodeInv s) :
    CodeInv t := by
  obtain ⟨hempty, hcodes⟩ := h
  cases w with
  | freqLoad x hp => exact ⟨hempty, fun hc => by simp [hp] at hc⟩
  | build ns r hp => exact ⟨fun _ => hempty (by simp [hp]), nofun⟩
  | gen cs hp hg => exact ⟨fun hne => absurd rfl hne, fun _ => genCodes_codesOk (ht.2 (by simp [hp])) hg⟩

theorem SessionWrite.codeInv {i : Instr} {s t : State} (w : SessionWrite s i t) (h : CodeInv s) : CodeInv t := by
  rw [w.sameTables]
  exact h

/-- The root weighs TOTAL: BUILD makes it so, and FREQ does not change after it (R36). -/
theorem TableWrite.rootInv {i : Instr} {s t : State} (w : TableWrite s i t) (hf : FreqInv s) (h : RootInv s) :
    RootInv t := by
  obtain ⟨_, _, htotal⟩ := hf
  cases w with
  | freqLoad x hp => exact fun hne => absurd hp hne
  | build ns r _ hb => exact fun _ k hk => ((buildTree_treeOf hb).2 k hk).trans htotal.symm
  | gen cs hp => exact fun _ => h (by simp [hp])

theorem SessionWrite.rootInv {i : Instr} {s t : State} (w : SessionWrite s i t) (h : RootInv s) : RootInv t := by
  rw [w.sameTables]
  exact h

/-- A tree has an internal node at its root exactly when it has at least two leaves. -/
theorem TreeOf.innerAt_root {freq : List FreqEntry} {nodes : List Node} {root : Option Nat} (h : TreeOf freq nodes root) :
    InnerAt nodes root ↔ 2 ≤ freq.length := by
  have hlay := h.layered
  obtain ⟨hlen, hroot, _⟩ := h
  constructor
  · rintro ⟨j, w, l, r, hj, hi⟩
    obtain ⟨hn, hl, hr⟩ := hlay.children_lt hi
    rw [hroot, rootIndex] at hj
    split at hj
    · cases hj
    · cases hj
      omega
  · intro hn
    rw [rootIndex, if_neg (by omega)] at hroot
    rw [nodeCount, if_neg (by omega)] at hlen
    obtain ⟨w, l, r, hi, _⟩ := innerOk_iff.mp (hlay.inner (2 * freq.length - 2) (by omega) (by omega))
    exact ⟨_, w, l, r, hroot, hi⟩

theorem walkerOk_of_lt_two {n : Nat} {nodes : List Node} {root dnode : Option Nat} (hn : n < 2) :
    walkerOk n nodes root dnode = true ↔ dnode = root := by
  simp [walkerOk, show n ≤ 1 by omega]

theorem walkerOk_of_two_le {n : Nat} {nodes : List Node} {root dnode : Option Nat} (hn : 2 ≤ n) :
    walkerOk n nodes root dnode = true ↔ InnerAt nodes dnode := by
  unfold walkerOk
  rw [if_neg (by omega)]
  cases dnode with
  | none => simp [InnerAt]
  | some k =>
    cases h : nodes[k]? with
    | none => simp [InnerAt, h]
    | some nd => cases nd <;> simp [InnerAt, h]

/-- At the root the walker is in place (R45). -/
theorem TreeOf.walkerOk_root {freq : List FreqEntry} {nodes : List Node} {root : Option Nat} (h : TreeOf freq nodes root) :
    walkerOk freq.length nodes root root = true := by
  rcases Nat.lt_or_ge freq.length 2 with hn | hn
  · exact (walkerOk_of_lt_two hn).mpr rfl
  · exact (walkerOk_of_two_le hn).mpr (h.innerAt_root.mpr hn)

theorem BitEffect.decoderInv {s t : State} (hb : BitEffect s t)
    (ht : s.decActive = true → TreeOf s.freq s.node s.root) (h : DecoderInv s) : DecoderInv t := by
  intro ha
  have ha' : s.decActive = true := by cases hb <;> exact ha
  obtain ⟨hwalk, hheld, hdead⟩ := h ha'
  have hroot := (ht ha').innerAt_root
  cases hb with
  | dead hin => exact ⟨hwalk, hheld, fun _ => by have := mt hroot.mpr hin; simp; omega⟩
  | overflow => exact ⟨hwalk, hheld, hdead⟩
  | emitOnly => exact ⟨hwalk, hheld, hdead⟩
  | emitLeaf => exact ⟨(ht ha').walkerOk_root, hheld, hdead⟩
  | move k hin hk => exact ⟨(walkerOk_of_two_le (hroot.mp hin)).mpr hk, hheld, hdead⟩

theorem Walked.decoderInv {s t : State} (hw : Walked s t) (ht : s.decActive = true → TreeOf s.freq s.node s.root)
    (h : DecoderInv s) : DecoderInv t := by
  induction hw with
  | refl => exact h
  | tail hm hb ih =>
    obtain ⟨e, d, k, b, rfl⟩ := Walked.exists_eq hm
    exact hb.decoderInv ht ih

theorem TableWrite.decoderInv {i : Instr} {s t : State} (w : TableWrite s i t) (hs : SessionInv s) : DecoderInv t := by
  obtain ⟨_, _, hd, _⟩ := hs.flags_of_phase w.phase_ne_codes
  have ht : t.decActive = s.decActive := by cases w <;> rfl
  exact fun ha => by simp [ht, hd] at ha

theorem SessionWrite.decoderInv {i : Instr} {s t : State} (w : SessionWrite s i t) (hs : SessionInv s) (ht : TreeInv s)
    (h : DecoderInv s) : DecoderInv t := by
  have htree : s.decActive = true → TreeOf s.freq s.node s.root := fun ha =>
    ht.2 (by simp [hs.codes_of_decActive ha])
  cases w with
  | errClear | finish | finishHeld => exact nofun
  | encStart | encSym | encFinish => exact h
  | decStart hp => exact fun _ => ⟨(ht.2 (by simp [hp])).walkerOk_root, nofun, nofun⟩
  | header b p ha =>
    obtain ⟨hwalk, _, hdead⟩ := h ha
    exact fun _ => ⟨hwalk, fun _ => rfl, hdead⟩
  | hold b m hd hw =>
    intro ha
    obtain ⟨hwalk, _, hdead⟩ := hw.decoderInv htree h ha
    obtain ⟨e, d, k, b, rfl⟩ := hw.exists_eq
    exact ⟨hwalk, fun _ => hd, hdead⟩
  | byteStopped b m hw => exact hw.decoderInv htree h
  | finishStopped m hw => exact hw.decoderInv htree h
  | trailing m hw =>
    intro ha
    obtain ⟨hwalk, _, hdead⟩ := hw.decoderInv htree h ha
    exact ⟨hwalk, nofun, hdead⟩

theorem TableWrite.payloadInv {i : Instr} {s t : State} (w : TableWrite s i t) (hs : SessionInv s) (h : PayloadInv s) :
    PayloadInv t := by
  have hp := w.phase_ne_codes
  cases w with
  | freqLoad | build => exact h
  | gen =>
    obtain ⟨_, hnone, hdone⟩ := h
    obtain ⟨he, ho, _⟩ := hs.flags_of_phase hp
    exact ⟨⟨[], nofun, hnone he ho⟩, hnone, hdone⟩

theorem SessionWrite.payloadInv {i : Instr} {s t : State} (w : SessionWrite s i t) (hs : SessionInv s) (h : PayloadInv s) :
    PayloadInv t := by
  have ⟨⟨cs, hcs, hbits⟩, _, _⟩ := h
  obtain ⟨henc, _⟩ := hs
  cases w with
  | errClear | encStart => exact ⟨⟨[], nofun, rfl⟩, fun _ _ => rfl, nofun⟩
  | encSym x c ha hc =>
    refine ⟨⟨cs ++ [c], ?_, by simp [hbits]⟩, fun h0 => ?_, fun ho => absurd ⟨ha, ho⟩ henc⟩
    · simpa [or_imp, forall_and, hc] using hcs
    · cases ha.symm.trans h0
  | encFinish => exact ⟨⟨cs, hcs, hbits⟩, nofun, fun _ => rfl⟩
  | decStart | header | finish => exact h
  | hold _ _ _ hw | byteStopped _ _ hw | finishHeld _ _ hw | finishStopped _ hw | trailing _ hw =>
    obtain ⟨e, d, k, b, rfl⟩ := hw.exists_eq
    exact h

/-! ### The invariants together -/

theorem SpecInv.withControl {s : State} (h : SpecInv s) (o : State) : SpecInv (s.withControl o) :=
  ⟨h.params, h.memory, h.freq, h.session, h.tree, h.code, h.decoder⟩

theorem specInv_resetOf {c : Params} (h : c.Wf) : SpecInv (State.resetOf c) where
  params := h
  memory := memory_wf_resetOf c
  freq := freqInv_resetOf c
  session := sessionInv_resetOf c
  tree := ⟨fun _ => ⟨rfl, rfl⟩, fun hp => absurd rfl hp⟩
  code := ⟨fun _ => rfl, nofun⟩
  decoder := nofun

theorem payloadInv_resetOf (c : Params) : PayloadInv (State.resetOf c) :=
  ⟨⟨[], nofun, rfl⟩, fun _ _ => rfl, nofun⟩

theorem rootInv_resetOf (c : Params) : RootInv (State.resetOf c) := fun hp => absurd rfl hp

theorem TableWrite.specInv {i : Instr} {s t : State} (w : TableWrite s i t) (h : SpecInv s) : SpecInv t where
  params := w.cfg ▸ h.params
  memory := w.memory_wf h.memory
  freq := w.freqInv h.freq
  session := w.sessionInv h.session
  tree := w.treeInv h.tree
  code := w.codeInv h.tree h.code
  decoder := w.decoderInv h.session

theorem SessionWrite.specInv {i : Instr} {s t : State} (w : SessionWrite s i t) (h : SpecInv s) : SpecInv t where
  params := w.cfg ▸ h.params
  memory := w.memory_wf h.params h.memory
  freq := w.freqInv h.freq
  session := w.sessionInv h.session
  tree := w.treeInv h.tree
  code := w.codeInv h.code
  decoder := w.decoderInv h.session h.tree h.decoder

/-- Every step keeps `SpecInv`, and beside it any property of the tables and sessions that the writing commands keep under
it. -/
theorem step_keeps_with_specInv {P : State → Prop} (control : ∀ s o, P s → P (s.withControl o))
    (reset : ∀ c, P (State.resetOf c)) (tables : ∀ s i t, TableWrite s i t → SpecInv s → P s → P t)
    (sessions : ∀ s i t, SessionWrite s i t → SpecInv s → P s → P t) {s t : State} (hi : SpecInv s) (hs : P s)
    (h : step s = .next t) : SpecInv t ∧ P t :=
  step_keeps_data (P := fun u => SpecInv u ∧ P u) (fun u o ⟨hi, hu⟩ => ⟨hi.withControl o, control u o hu⟩)
    (fun u ⟨hi, _⟩ => ⟨specInv_resetOf hi.params, reset u.cfg⟩)
    (fun u i v w ⟨hi, hu⟩ => ⟨w.specInv hi, tables u i v w hi hu⟩)
    (fun u i v w ⟨hi, hu⟩ => ⟨w.specInv hi, sessions u i v w hi hu⟩) ⟨hi, hs⟩ h

theorem step_keeps_payloadInv {s t : State} (hi : SpecInv s) (hs : PayloadInv s) (h : step s = .next t) : PayloadInv t :=
  (step_keeps_with_specInv (fun _ _ h => h) payloadInv_resetOf (fun _ _ _ w hi => w.payloadInv hi.session)
    (fun _ _ _ w hi => w.payloadInv hi.session) hi hs h).2

theorem step_keeps_rootInv {s t : State} (hi : SpecInv s) (hs : RootInv s) (h : step s = .next t) : RootInv t :=
  (step_keeps_with_specInv (fun _ _ h => h) rootInv_resetOf (fun _ _ _ w hi => w.rootInv hi.freq)
    (fun _ _ _ w _ => w.rootInv) hi hs h).2

theorem step_keeps_specInv {s t : State} (hi : SpecInv s) (h : step s = .next t) : SpecInv t :=
  step_keeps_data (fun _ o hi => hi.withControl o) (fun _ hi => specInv_resetOf hi.params)
    (fun _ _ _ w => w.specInv) (fun _ _ _ w => w.specInv) hi h

/-- Settles O54: after reset the memories are empty, PHASE is LOAD and no session is open. -/
theorem invariantsAtReset : Obligations.InvariantsAtReset := fun c h =>
  ⟨specInv_resetOf h, payloadInv_resetOf c, rootInv_resetOf c⟩

/-- Settles O58: BUILD makes a tree whose root weighs TOTAL, GEN makes its codes, and the sessions keep the rest. -/
theorem invariantsKept : Obligations.InvariantsKept := fun _ _ hi h =>
  ⟨step_keeps_specInv hi h, fun hp => step_keeps_payloadInv hi hp h, fun hr => step_keeps_rootInv hi hr h⟩

end Sys2Proof.Machine
end

section
/-! ### What commands and steps do to ERR, PHASE and the results (O20, O51, O52) -/

namespace Sys2Proof.Machine

theorem TableWrite.phase {i : Instr} {s t : State} (w : TableWrite s i t) :
    t.phase = s.phase ∨ (s.phase = .load ∧ t.phase = .tree) ∨ (s.phase = .tree ∧ t.phase = .codes) := by
  cases w with
  | freqLoad => exact .inl rfl
  | build ns r hp => exact .inr (.inl ⟨hp, rfl⟩)
  | gen cs hp => exact .inr (.inr ⟨hp, rfl⟩)

theorem TableWrite.results {i : Instr} {s t : State} (w : TableWrite s i t) : t.res0 = s.res0 ∧ t.res1 = s.res1 := by
  cases w <;> exact ⟨rfl, rfl⟩

theorem SessionWrite.results {i : Instr} {s t : State} (w : SessionWrite s i t) : t.res0 = s.res0 ∧ t.res1 = s.res1 := by
  cases w with
  | errClear | encStart | encSym | encFinish | decStart | header | finish => exact ⟨rfl, rfl⟩
  | hold _ _ _ hw | byteStopped _ _ hw | finishHeld _ _ hw | finishStopped _ hw | trailing _ hw =>
    obtain ⟨e, d, k, b, rfl⟩ := hw.exists_eq
    exact ⟨rfl, rfl⟩

/-- With ERR set, a command is ignored, or it is CLEAR or ERR_CLEAR, which clear ERR (R202, R206). -/
theorem Effect.of_error {i : Instr} {s t : State} (h : Effect s i t) (he : s.err ≠ .none) :
    t = s ∨ (t.err = .none ∧ (i = .clear ∨ i = .errClear)) := by
  cases h with
  | ignored => exact .inl rfl
  | cleared => exact .inr ⟨rfl, .inl rfl⟩
  | raised _ _ h0 | answered _ _ _ h0 | tables _ _ h0 => exact absurd h0 he
  | sessions _ _ h0 w =>
    obtain rfl := h0.resolve_left he
    cases w
    exact .inr ⟨rfl, .inr rfl⟩

theorem Effect.phase {i : Instr} {s t : State} (h : Effect s i t) :
    t.phase = s.phase ∨ (s.phase = .load ∧ t.phase = .tree) ∨ (s.phase = .tree ∧ t.phase = .codes) ∨
      (t.phase = .load ∧ i = .clear) := by
  cases h with
  | ignored | raised | answered => exact .inl rfl
  | cleared => exact .inr (.inr (.inr ⟨rfl, rfl⟩))
  | tables _ _ _ w => exact w.phase.imp_right (.imp_right .inl)
  | sessions _ _ _ w => exact .inl (by rw [w.sameTables])

/-- Settles O20: with ERR set the Core ignores every command that does not clear it. -/
theorem firstErrorSticks : Obligations.FirstErrorSticks := by
  intro s t h he
  rcases step_effect h with ⟨_, hsame⟩ | ⟨hb, i, m, hd, heff, rfl⟩ | ⟨hr, _, ht⟩
  · exact .inl (hsame he)
  · rcases heff.of_error he with rfl | ⟨hm, hi⟩
    · exact .inl rfl
    · exact .inr ⟨hm, .inl ⟨hb, hi.imp (by rintro rfl; exact hd) (by rintro rfl; exact hd)⟩⟩
  · exact .inr ⟨ht, .inr hr⟩

/-- Settles O51: of a command's effects only CLEAR and a query's answer write the results. -/
theorem resultsOnlyByQueries : Obligations.ResultsOnlyByQueries := by
  intro i s t h
  refine ⟨?_, fun hi hchanged => ?_⟩
  · rintro rfl
    cases h
    exact ⟨rfl, rfl⟩
  · have unchanged (hsame : t.res0 = s.res0 ∧ t.res1 = s.res1) : False :=
      hchanged.elim (· hsame.1) (· hsame.2)
    cases exec_effect h with
    | ignored | raised => exact (unchanged ⟨rfl, rfl⟩).elim
    | cleared => exact absurd rfl hi
    | answered _ _ _ _ hq => exact ⟨rfl, hq⟩
    | tables _ _ _ w => exact (unchanged w.results).elim
    | sessions _ _ _ w => exact (unchanged w.results).elim

/-- Settles O52: of the commands only BUILD, GEN and CLEAR write PHASE. -/
theorem phaseOrder : Obligations.PhaseOrder := by
  intro s t h
  rcases step_effect h with ⟨ht, _⟩ | ⟨hb, i, m, hd, heff, rfl⟩ | ⟨hr, ht, _⟩
  · exact .inl (by rw [ht]; rfl)
  · rcases heff.phase with h | h | h | ⟨h, rfl⟩
    · exact .inl h
    · exact .inr (.inl h)
    · exact .inr (.inr (.inl h))
    · exact .inr (.inr (.inr ⟨h, .inl ⟨hb, hd⟩⟩))
  · exact .inr (.inr (.inr ⟨by rw [ht]; rfl, .inr hr⟩))

/-! ### The register window (10_state.md R20 to R48; O10, O11, O14, O15) -/

/-- Offset `off` of an aligned window is at HUF_BASE + off (20_memory.md R62). -/
theorem windowOffset_base {c : Params} {off : Nat} (hb : c.hufBase % 256 = 0) (ho : off < 256) :
    windowOffset c (c.hufBase + off) = some off := by
  unfold windowOffset
  rw [if_pos (by omega)]
  exact congrArg some (by omega)

theorem busAccess_read_reg {s : State} {off : Nat} (hb : s.cfg.hufBase % 256 = 0) (hr : s.inReset = false)
    (ho : off < 256) (ha : off % 4 = 0) :
    busAccess (.read (s.cfg.hufBase + off) 4) s = .next (readReg (regAt off) s) := by
  simp [busAccess, windowOffset_base hb ho, hr, windowRead, admitted, ha]

theorem busAccess_write_reg {s : State} {off : Nat} (hb : s.cfg.hufBase % 256 = 0) (hr : s.inReset = false)
    (ho : off < 256) (ha : off % 4 = 0) (v : Word) :
    busAccess (.write (s.cfg.hufBase + off) 4 v) s = .next (writeReg (regAt off) v s) := by
  simp [busAccess, windowOffset_base hb ho, hr, windowWrite, admitted, ha]

theorem readReg_of_specified {r : Reg} {s : State} (h : s.busy = false ∨ r.unspecifiedWhileBusy = false) :
    readReg r s = s.respond (.data (s.reg r)) := by
  unfold readReg
  rw [if_neg]
  rcases h with h | h <;> simp [h]

theorem readReg_of_unspecified {r : Reg} {s : State} (hb : s.busy = true) (h : r.unspecifiedWhileBusy = true) :
    readReg r s = s.draw.respond (.data (Config.busyRead s.draws)) := by
  unfold readReg
  rw [if_pos (by simp [hb, h])]

theorem writeReg_cmd_of_idle {s : State} (h : s.busy = false) (v : Word) :
    writeReg .cmd v s = (s.issue v).respond .done := by
  simp [writeReg, h]

theorem writeReg_cmd_of_busy {s : State} (h : s.busy = true) (v : Word) :
    writeReg .cmd v s = s.overrun.respond .done := by
  simp [writeReg, h]

theorem writeReg_of_readOnly {r : Reg} (hc : r ≠ .cmd) (ha : r ≠ .arg) (v : Word) (s : State) :
    writeReg r v s = s.respond .done := by
  rcases writeReg_cases r v s with ⟨h, _⟩ | ⟨h, _⟩ | ⟨h, _⟩ | ⟨_, _, h⟩
  · exact absurd h hc
  · exact absurd h hc
  · exact absurd h ha
  · exact h

theorem regAt_eq_cmd {off : Nat} (h : regAt off = .cmd) : off = 0x04 := by
  unfold regAt at h
  split at h <;> cases h
  rfl

theorem regAt_eq_arg {off : Nat} (h : regAt off = .arg) : off = 0x08 := by
  unfold regAt at h
  split at h <;> cases h
  rfl

theorem regAt_of_ge {off : Nat} (h : 0x34 ≤ off) : regAt off = .reserved := by
  unfold regAt
  split
  case h_14 => rfl
  all_goals omega

/-- Settles O10: CMD is at offset 0x04, and its read is never one that R48 leaves open. -/
theorem commandWriteIssuesOrOverruns : Obligations.CommandWriteIssuesOrOverruns := by
  intro s w hb hr
  rw [busAccess_write_reg hb hr (by omega) rfl, busAccess_read_reg hb hr (by omega) rfl,
    readReg_of_specified (.inr rfl)]
  exact ⟨fun h => congrArg Host.Outcome.next (writeReg_cmd_of_idle h w),
    fun h => congrArg Host.Outcome.next (writeReg_cmd_of_busy h w), rfl⟩

/-- Settles O11: ARG is at offset 0x08, and its read is never one that R48 leaves open. -/
theorem argumentRegister : Obligations.ArgumentRegister := by
  intro s v hb hr
  rw [busAccess_write_reg hb hr (by omega) rfl, busAccess_read_reg hb hr (by omega) rfl,
    readReg_of_specified (.inr rfl)]
  refine ⟨rfl, rfl, rfl, fun t h => ?_⟩
  cases h
  rfl

/-- Settles O14: every register but CMD and ARG is read-only. -/
theorem ignoredWrites : Obligations.IgnoredWrites := by
  intro s off v hb hr ho ha hcmd harg
  rw [busAccess_write_reg hb hr ho ha, writeReg_of_readOnly (mt regAt_eq_cmd hcmd) (mt regAt_eq_arg harg)]
  rfl

/-- Settles O15: each offset names its register, which R48 either leaves open while BUSY = 1 or does not. -/
theorem registerReads : Obligations.RegisterReads := by
  intro s hb hr
  refine ⟨?_, ?_, ?_⟩
  · intro p hp
    obtain ⟨ho, ha, hreg, hval⟩ : p.1 < 256 ∧ p.1 % 4 = 0 ∧ (regAt p.1).unspecifiedWhileBusy = false ∧
        s.reg (regAt p.1) = p.2 := by
      simp only [List.mem_cons, List.not_mem_nil, or_false] at hp
      rcases hp with rfl | rfl | rfl <;> simp [regAt, Reg.unspecifiedWhileBusy, State.reg, hufId]
    rw [busAccess_read_reg hb hr ho ha, readReg_of_specified (.inr hreg), hval]
    rfl
  · intro off hlow ho ha
    rw [busAccess_read_reg hb hr ho ha, regAt_of_ge hlow, readReg_of_specified (.inr rfl)]
    rfl
  · intro p hp
    have hroot : indexWord s.root = s.root.elim 0xFFFFFFFF#32 (BitVec.ofNat 32) := by cases s.root <;> rfl
    obtain ⟨ho, ha, hreg, hval⟩ : p.1 < 256 ∧ p.1 % 4 = 0 ∧ (regAt p.1).unspecifiedWhileBusy = true ∧
        s.reg (regAt p.1) = p.2 := by
      simp only [List.mem_cons, List.not_mem_nil, or_false] at hp
      rcases hp with rfl | rfl | rfl | rfl | rfl | rfl | rfl | rfl | rfl <;>
        simp [regAt, Reg.unspecifiedWhileBusy, State.reg, lengthWord, hroot]
    rw [busAccess_read_reg hb hr ho ha]
    refine ⟨fun h => ?_, fun h => ⟨Config.busyRead s.draws, ?_⟩⟩
    · rw [readReg_of_specified (.inl h), hval]
      rfl
    · rw [readReg_of_unspecified h hreg]
      rfl

/-! ### STATUS (10_state.md R25; O16) -/

theorem status_phase (s : State) : s.status.extractLsb' 2 2 = s.phase.bits := by
  ext i hi
  interval_cases i <;> simp [State.status, place]

theorem status_err (s : State) : s.status.extractLsb' 8 8 = s.err.bits := by
  ext i hi
  interval_cases i <;> simp [State.status, place]

theorem status_reserved (s : State) : s.status.extractLsb' 16 16 = 0#16 := by
  ext i hi
  interval_cases i <;> simp [State.status, place]

/-- Settles O16: each field stands at its own place, so no other field shows there. -/
theorem statusLayout : Obligations.StatusLayout := by
  intro s
  refine ⟨?_, ?_, status_phase s, ?_, ?_, ?_, ?_, status_err s, status_reserved s⟩ <;> simp [State.status, place]

end Sys2Proof.Machine
end

section
/-! ### Which commands read ARG and PARG (30_encoding.md R86, 70_reset_and_hazards.md R243; O12) -/

namespace Sys2Proof.Machine

/-- The state with other values in ARG and PARG. -/
def State.withArgs (s : State) (a p : Word) : State := { s with arg := a, parg := p }

@[simp] theorem State.withArgs_freq (s : State) (a p : Word) : (s.withArgs a p).freq = s.freq := rfl
@[simp] theorem State.withArgs_node (s : State) (a p : Word) : (s.withArgs a p).node = s.node := rfl
@[simp] theorem State.withArgs_root (s : State) (a p : Word) : (s.withArgs a p).root = s.root := rfl
@[simp] theorem State.withArgs_code (s : State) (a p : Word) : (s.withArgs a p).code = s.code := rfl
@[simp] theorem State.withArgs_outbuf (s : State) (a p : Word) : (s.withArgs a p).outbuf = s.outbuf := rfl
@[simp] theorem State.withArgs_dnode (s : State) (a p : Word) : (s.withArgs a p).dnode = s.dnode := rfl
@[simp] theorem State.withArgs_decbuf (s : State) (a p : Word) : (s.withArgs a p).decbuf = s.decbuf := rfl

/-- The same answer with other values in ARG and PARG. -/
def withArgs (a p : Word) : Result → Result
  | .next s => .next (s.withArgs a p)
  | .fault f => .fault f
  | .refused r => .refused r

/-- The same end of a sub-step with other values in ARG and PARG. -/
def Flow.withArgs (a p : Word) : Flow → Flow
  | .go s => .go (s.withArgs a p)
  | .raised s => .raised (s.withArgs a p)
  | .broken r => .broken r

/-- Two conditionals on one condition correspond when their branches do. -/
theorem ite_map {α β : Type} (f : α → β) {c : Prop} [Decidable c] {x y : α} {x' y' : β} (hx : x' = f x) (hy : y' = f y) :
    (if c then x' else y') = f (if c then x else y) := by
  rw [hx, hy, apply_ite f]

section
variable {a p : Word} {s : State}

theorem unlessBlocked_withArgs {r r' : Result} (h : r' = withArgs a p r) :
    unlessBlocked (s.withArgs a p) r' = withArgs a p (unlessBlocked s r) :=
  ite_map (withArgs a p) h rfl

theorem check_withArgs {c : Prop} [Decidable c] {e : ErrCode} {r r' : Result} (h : r' = withArgs a p r) :
    (if c then raise (s.withArgs a p) e else r') = withArgs a p (if c then raise s e else r) :=
  ite_map (withArgs a p) rfl h

theorem Flow.andThen_withArgs {f f' : Flow} {k : State → Flow} (hf : f' = f.withArgs a p)
    (hk : ∀ t : State, k (t.withArgs a p) = (k t).withArgs a p) : f'.andThen k = (f.andThen k).withArgs a p := by
  subst hf
  cases f with
  | go t => exact hk t
  | raised t => rfl
  | broken r => rfl

theorem Flow.result_withArgs {f f' : Flow} (h : f' = f.withArgs a p) : f'.result = Machine.withArgs a p f.result := by
  subst h
  cases f <;> rfl

theorem emit_withArgs (x : Symbol) : emit x (s.withArgs a p) = (emit x s).withArgs a p :=
  ite_map (Flow.withArgs a p) rfl rfl

theorem stepInner_withArgs (b : Bool) : stepInner b (s.withArgs a p) = (stepInner b s).withArgs a p := by
  unfold stepInner
  simp only [State.withArgs_node, State.withArgs_dnode]
  rcases child s.node s.dnode b with _ | k
  · rfl
  · dsimp only
    rcases s.node[k]? with _ | ⟨x, w⟩ | ⟨w, l, r⟩
    · rfl
    · exact Flow.andThen_withArgs (emit_withArgs x) fun _ => rfl
    · rfl

theorem stepBit_withArgs (b : Bool) : stepBit b (s.withArgs a p) = (stepBit b s).withArgs a p := by
  refine ite_map (Flow.withArgs a p) rfl ?_
  simp only [State.withArgs_node, State.withArgs_root]
  rcases s.root with _ | r
  · rfl
  · dsimp only
    rcases s.node[r]? with _ | ⟨x, w⟩ | ⟨w, i, j⟩
    · rfl
    · exact ite_map (Flow.withArgs a p) rfl (emit_withArgs x)
    · exact stepInner_withArgs b

theorem walkBits_withArgs (bs : Bits) : walkBits bs (s.withArgs a p) = (walkBits bs s).withArgs a p := by
  induction bs generalizing s with
  | nil => rfl
  | cons b bs ih => exact Flow.andThen_withArgs (stepBit_withArgs b) fun _ => ih

theorem releaseHeld_withArgs : releaseHeld (s.withArgs a p) = (releaseHeld s).withArgs a p :=
  ite_map (Flow.withArgs a p) (walkBits_withArgs _) rfl

theorem checkTrailing_withArgs : checkTrailing (s.withArgs a p) = (checkTrailing s).withArgs a p :=
  ite_map (Flow.withArgs a p) rfl rfl

theorem finishPayload_withArgs : finishPayload (s.withArgs a p) = (finishPayload s).withArgs a p :=
  ite_map (Flow.withArgs a p) (ite_map (Flow.withArgs a p) rfl checkTrailing_withArgs)
    (Flow.andThen_withArgs (Flow.andThen_withArgs (walkBits_withArgs _) fun _ => rfl) fun _ => checkTrailing_withArgs)

theorem execFreqLoad_withArgs (x : Symbol) :
    execFreqLoad x (s.withArgs a s.parg) = withArgs a s.parg (execFreqLoad x s) :=
  unlessBlocked_withArgs <| check_withArgs <| check_withArgs <| check_withArgs <| check_withArgs <| check_withArgs rfl

theorem execFreqRead_withArgs (k : Nat) : execFreqRead k (s.withArgs a p) = withArgs a p (execFreqRead k s) :=
  unlessBlocked_withArgs (by rw [State.withArgs_freq]; cases s.freq[k]? <;> rfl)

theorem execBuild_withArgs : execBuild (s.withArgs a p) = withArgs a p (execBuild s) :=
  unlessBlocked_withArgs <| check_withArgs (by
    rw [State.withArgs_freq]
    rcases buildTree s.freq with _ | ⟨_, _⟩ <;> rfl)

theorem execNodeRead_withArgs (k : Nat) : execNodeRead k (s.withArgs a p) = withArgs a p (execNodeRead k s) :=
  unlessBlocked_withArgs <| check_withArgs (by rw [State.withArgs_node]; cases s.node[k]? <;> rfl)

theorem execGen_withArgs : execGen (s.withArgs a p) = withArgs a p (execGen s) :=
  unlessBlocked_withArgs <| check_withArgs (by
    simp only [State.withArgs_node, State.withArgs_root, State.withArgs_freq]
    cases genCodes s.node s.root s.freq.length <;> rfl)

theorem execCodeFind_withArgs (x : Symbol) : execCodeFind x (s.withArgs a p) = withArgs a p (execCodeFind x s) :=
  unlessBlocked_withArgs <| check_withArgs (by
    simp only [State.withArgs_freq, State.withArgs_code]
    rcases find s.freq x with _ | i
    · rfl
    · dsimp only
      cases s.code[i]? <;> rfl)

theorem execCodeRead_withArgs (k : Nat) :
    execCodeRead k (s.withArgs a s.parg) = withArgs a s.parg (execCodeRead k s) :=
  unlessBlocked_withArgs <| check_withArgs (by
    rw [State.withArgs_code]
    rcases s.code[k]? with _ | c
    · rfl
    · exact check_withArgs rfl)

theorem execEncSym_withArgs (x : Symbol) : execEncSym x (s.withArgs a p) = withArgs a p (execEncSym x s) :=
  unlessBlocked_withArgs <| check_withArgs (by
    simp only [State.withArgs_freq, State.withArgs_code]
    rcases find s.freq x with _ | i
    · rfl
    · dsimp only
      rcases s.code[i]? with _ | c
      · rfl
      · exact check_withArgs rfl)

theorem execOutRead_withArgs (k : Nat) : execOutRead k (s.withArgs a p) = withArgs a p (execOutRead k s) :=
  unlessBlocked_withArgs <| check_withArgs (by rw [State.withArgs_outbuf]; cases s.outbuf[k]? <;> rfl)

theorem execDecByte_withArgs (b : Byte) : execDecByte b (s.withArgs a p) = withArgs a p (execDecByte b s) :=
  unlessBlocked_withArgs <| check_withArgs <| ite_map (withArgs a p) (by split <;> rfl) <|
    Flow.result_withArgs (Flow.andThen_withArgs releaseHeld_withArgs fun _ => rfl)

theorem execDecFinish_withArgs : execDecFinish (s.withArgs a p) = withArgs a p (execDecFinish s) :=
  unlessBlocked_withArgs <| check_withArgs <| Flow.result_withArgs <|
    Flow.andThen_withArgs (ite_map (Flow.withArgs a p) finishPayload_withArgs rfl) fun _ => rfl

theorem execDecRead_withArgs (k : Nat) : execDecRead k (s.withArgs a p) = withArgs a p (execDecRead k s) :=
  unlessBlocked_withArgs <| check_withArgs (by rw [State.withArgs_decbuf]; cases s.decbuf[k]? <;> rfl)

/-- A command does the same whatever ARG holds, and whatever PARG holds if it is neither FREQ_LOAD nor CODE_READ (R86). -/
theorem exec_withArgs {i : Instr} (h : ((∀ x, i ≠ .freqLoad x) ∧ ∀ k, i ≠ .codeRead k) ∨ p = s.parg) :
    exec i (s.withArgs a p) = withArgs a p (exec i s) := by
  cases i with
  | nop | clear | errClear => rfl
  | freqLoad x =>
    obtain rfl : p = s.parg := h.resolve_left fun h => h.1 x rfl
    exact execFreqLoad_withArgs x
  | freqRead k => exact execFreqRead_withArgs k
  | build => exact execBuild_withArgs
  | nodeRead k => exact execNodeRead_withArgs k
  | gen => exact execGen_withArgs
  | codeFind x => exact execCodeFind_withArgs x
  | codeRead k =>
    obtain rfl : p = s.parg := h.resolve_left fun h => h.2 k rfl
    exact execCodeRead_withArgs k
  | encStart | encFinish | decStart => exact unlessBlocked_withArgs <| check_withArgs rfl
  | encSym x => exact execEncSym_withArgs x
  | outRead k => exact execOutRead_withArgs k
  | decByte b => exact execDecByte_withArgs b
  | decFinish => exact execDecFinish_withArgs
  | decRead k => exact execDecRead_withArgs k

end

/-- No command changes ARG or PARG. -/
theorem exec_args {i : Instr} {s t : State} (h : exec i s = .next t) : t.arg = s.arg ∧ t.parg = s.parg := by
  have hs : exec i s = withArgs s.arg s.parg (exec i s) := exec_withArgs (.inr rfl)
  rw [h] at hs
  rw [Host.Outcome.next.inj hs]
  exact ⟨rfl, rfl⟩

/-- Settles O12: a command's answer carries other values of ARG and PARG through, and it changes neither. -/
theorem commandsUseCapturedArgument : Obligations.CommandsUseCapturedArgument := by
  intro i s t v h
  obtain ⟨harg, hparg⟩ := exec_args h
  refine ⟨?_, fun hf hc => ?_⟩
  · have hv : exec i (s.withArgs v s.parg) = withArgs v s.parg (exec i s) := exec_withArgs (.inr rfl)
    exact hv.trans (by rw [h, ← hparg]; rfl)
  · have hv : exec i (s.withArgs s.arg v) = withArgs s.arg v (exec i s) := exec_withArgs (.inl ⟨hf, hc⟩)
    exact hv.trans (by rw [h, ← harg]; rfl)

end Sys2Proof.Machine
end

section
/-! ### Bus errors and the side effects of an access (20_memory.md R61, R63; O13, O17) -/

namespace Sys2Proof.Machine

theorem admitted_eq_false {off size : Nat} (h : size ≠ 4 ∨ off % 4 ≠ 0) : admitted off size = false := by
  unfold admitted
  rcases h with h | h <;> simp [h]

/-- A read of the window is answered by a bus error or reads a register (R61). -/
theorem windowRead_cases (off size : Nat) (s : State) :
    windowRead off size s = s.respond .busError ∨ windowRead off size s = readReg (regAt off) s :=
  (ite_eq_or_eq _ _ _).symm

/-- A write to the window is answered by a bus error or writes a register (R61). -/
theorem windowWrite_cases (off size : Nat) (v : Word) (s : State) :
    windowWrite off size v s = s.respond .busError ∨ windowWrite off size v s = writeReg (regAt off) v s :=
  (ite_eq_or_eq _ _ _).symm

/-! What an access that completes has done: it missed the window, or it reached an offset of it (R62, R230). -/

theorem busAccess_read_cases {addr size : Nat} {s t : State} (h : busAccess (.read addr size) s = .next t) :
    t = s.respond .unselected ∨ ∃ off, t = windowRead off size s := by
  simp only [busAccess] at h
  split at h
  · cases h
    exact .inl rfl
  · split at h <;> cases h
    exact .inr ⟨_, rfl⟩

theorem busAccess_write_cases {addr size : Nat} {v : Word} {s t : State}
    (h : busAccess (.write addr size v) s = .next t) :
    t = s.respond .unselected ∨ ∃ off, t = windowWrite off size v s := by
  simp only [busAccess] at h
  split at h
  · cases h
    exact .inl rfl
  · split at h <;> cases h
    exact .inr ⟨_, rfl⟩

/-! The answers of an access to an aligned window (R60, R61). -/

theorem busAccess_read_busError {s : State} {off size : Nat} (hb : s.cfg.hufBase % 256 = 0) (hr : s.inReset = false)
    (ho : off < 256) (h : size ≠ 4 ∨ off % 4 ≠ 0) :
    busAccess (.read (s.cfg.hufBase + off) size) s = .next (s.respond .busError) := by
  simp [busAccess, windowOffset_base hb ho, hr, windowRead, admitted_eq_false h]

theorem busAccess_write_busError {s : State} {off size : Nat} (hb : s.cfg.hufBase % 256 = 0) (hr : s.inReset = false)
    (ho : off < 256) (h : size ≠ 4 ∨ off % 4 ≠ 0) (v : Word) :
    busAccess (.write (s.cfg.hufBase + off) size v) s = .next (s.respond .busError) := by
  simp [busAccess, windowOffset_base hb ho, hr, windowWrite, admitted_eq_false h]

theorem readReg_resp (r : Reg) (s : State) : ∃ w, (readReg r s).resp = .data w := by
  rcases readReg_cases r s with h | ⟨_, _, h⟩ <;> rw [h] <;> exact ⟨_, rfl⟩

@[simp] theorem writeReg_resp (r : Reg) (v : Word) (s : State) : (writeReg r v s).resp = .done := rfl

/-! What an access may change (R63). -/

/-- The state `s` with the bus answer and the draw counter of `t`. -/
def State.withRead (s t : State) : State := { s with resp := t.resp, draws := t.draws }

/-- The state `s` with ARG, the command latch, BUSY, OVR and the bus answer of `t`. -/
def State.withWrite (s t : State) : State :=
  { s with arg := t.arg, pcmd := t.pcmd, parg := t.parg, busy := t.busy, ovr := t.ovr, resp := t.resp }

theorem windowRead_frame (off size : Nat) (s : State) : windowRead off size s = s.withRead (windowRead off size s) := by
  rcases windowRead_cases off size s with h | h <;> rw [h]
  · rfl
  · rcases readReg_cases (regAt off) s with h | ⟨_, _, h⟩ <;> rw [h] <;> rfl

theorem windowWrite_frame (off size : Nat) (v : Word) (s : State) :
    windowWrite off size v s = s.withWrite (windowWrite off size v s) := by
  rcases windowWrite_cases off size v s with h | h <;> rw [h]
  · rfl
  · rcases writeReg_cases (regAt off) v s with ⟨_, _, h⟩ | ⟨_, _, h⟩ | ⟨_, h⟩ | ⟨_, _, h⟩ <;> rw [h] <;> rfl

/-- Settles O17: an access that misses the window changes only the bus answer, and one that reaches it keeps its frame. -/
theorem busSideEffects : Obligations.BusSideEffects := by
  intro s t
  refine ⟨fun addr size h => ?_, fun addr size v h => ?_⟩
  · rcases busAccess_read_cases h with rfl | ⟨off, rfl⟩
    · rfl
    · exact windowRead_frame off size s
  · rcases busAccess_write_cases h with rfl | ⟨off, rfl⟩
    · rfl
    · exact windowWrite_frame off size v s

/-- Settles O13: an access the window does not admit only gets its answer, and an admitted one reads or writes a register. -/
theorem busErrorChangesNothing : Obligations.BusErrorChangesNothing := by
  intro s off size v hb hr ho
  refine ⟨fun h => ⟨busAccess_read_busError hb hr ho h, busAccess_write_busError hb hr ho h v⟩, ?_⟩
  rintro rfl ha
  obtain ⟨w, hw⟩ := readReg_resp (regAt off) s
  exact ⟨⟨_, w, busAccess_read_reg hb hr ho ha, hw⟩, _, busAccess_write_reg hb hr ho ha v, writeReg_resp _ _ _⟩

end Sys2Proof.Machine
end

section
/-! ### The fields of a command word (30_encoding.md R80 to R88; O1, O2, O3, O4) -/

namespace Sys2Proof.Machine

open Laws Laws.TableRow

/-- The bits of an opcode over an operand of `n` bits (R80, R86). -/
theorem getLsbD_place_or_place {n : Nat} (hn : n ≤ 24) (op : BitVec 8) (x : BitVec n) (i : Nat) :
    (place op 24 ||| place x 0).getLsbD i = if i < 24 then x.getLsbD i else op.getLsbD (i - 24) := by
  unfold place
  split
  · next h =>
    have hi : i < 32 := by omega
    simp [h, hi]
  · next h =>
    have hx : x.getLsbD i = false := BitVec.getLsbD_of_ge x i (by omega)
    by_cases hi : i < 32
    · simp [h, hx, hi]
    · have hop : op.getLsbD (i - 24) = false := BitVec.getLsbD_of_ge op _ (by omega)
      simp [hi, hop]

/-- A word is an opcode over an operand of `n` bits exactly when its fields are these two and the bits between are 0. -/
theorem place_or_place_eq_iff {n : Nat} (hn : n ≤ 24) {op : BitVec 8} {x : BitVec n} {w : Word} :
    place op 24 ||| place x 0 = w ↔ opField w = op ∧ w.extractLsb' n (24 - n) = 0#(24 - n) ∧ w.extractLsb' 0 n = x := by
  unfold opField
  constructor
  · rintro rfl
    refine ⟨?_, ?_, ?_⟩ <;> refine BitVec.eq_of_getLsbD_eq fun i hi => ?_ <;>
      rw [BitVec.getLsbD_extractLsb', getLsbD_place_or_place hn]
    · simp [hi]
    · have hlt : n + i < 24 := by omega
      simp [hlt]
    · have hlt : i < 24 := by omega
      simp [hi, hlt]
  · rintro ⟨rfl, hz, rfl⟩
    refine BitVec.eq_of_getLsbD_eq fun i hi => ?_
    rw [getLsbD_place_or_place hn]
    split
    · next hlt =>
      by_cases hi' : i < n
      · simp [hi']
      · have hbit : w.getLsbD i = false := by
          have h := congrArg (·.getLsbD (i - n)) hz
          have hsub : i - n < 24 - n := by omega
          have hadd : n + (i - n) = i := by omega
          simpa [hsub, hadd] using h
        simp [hi', hbit]
    · next hge =>
      have hsub : i - 24 < 8 := by omega
      have hadd : 24 + (i - 24) = i := by omega
      simp [hsub, hadd]

/-- A word whose bits from `n` up are those of a bare opcode is that opcode over the word's low `n` bits. -/
theorem place_or_place_of_masked {n : Nat} {op : BitVec 8} {w : Word}
    (h : w &&& (BitVec.allOnes 32 <<< n) = place op 24) :
    place op 24 ||| place (w.extractLsb' 0 n) 0 = w := by
  rw [← h]
  refine BitVec.eq_of_getLsbD_eq fun i hi => ?_
  by_cases hlt : i < n <;> simp [place, hlt, hi, -BitVec.reduceAllOnes]

/-! The words of each format: their opcode, their reserved bits and their operand (R81 to R85). -/

theorem wordZ_eq_iff {op : BitVec 8} {w : Word} : wordZ op = w ↔ opField w = op ∧ w.extractLsb' 0 24 = 0#24 := by
  have hZ : wordZ op = place op 24 ||| place (0#0) 0 := by simp [wordZ, place]
  rw [hZ, place_or_place_eq_iff (by omega)]
  simp

theorem wordS_eq_iff {op : BitVec 8} {x : Symbol} {w : Word} :
    wordS op x = w ↔ opField w = op ∧ w.extractLsb' 21 3 = 0#3 ∧ symField w = x :=
  place_or_place_eq_iff (by omega)

theorem wordX_eq_iff {op : BitVec 8} {k : Nat} (hk : FitsX k) {w : Word} :
    wordX op k = w ↔ opField w = op ∧ w.extractLsb' 15 9 = 0#9 ∧ idxXField w = k := by
  have hidx : idxXField w = k ↔ w.extractLsb' 0 15 = BitVec.ofNat 15 k :=
    BitVec.toNat_eq_nat.trans (and_iff_right hk)
  rw [hidx]
  exact place_or_place_eq_iff (by omega)

theorem wordL_eq_iff {op : BitVec 8} {k : Nat} (hk : FitsL k) {w : Word} :
    wordL op k = w ↔ opField w = op ∧ idxLField w = k := by
  have hidx : idxLField w = k ↔ w.extractLsb' 0 24 = BitVec.ofNat 24 k :=
    BitVec.toNat_eq_nat.trans (and_iff_right hk)
  rw [hidx]
  exact (place_or_place_eq_iff (by omega)).trans (by simp)

theorem wordB_eq_iff {op : BitVec 8} {b : Byte} {w : Word} :
    wordB op b = w ↔ opField w = op ∧ w.extractLsb' 8 16 = 0#16 ∧ byteField w = b :=
  place_or_place_eq_iff (by omega)

theorem fitsX_idxXField (w : Word) : FitsX (idxXField w) := BitVec.isLt _

theorem fitsL_idxLField (w : Word) : FitsL (idxLField w) := BitVec.isLt _

/-! What each format's decoder accepts: the words whose reserved bits are 0, with their operand (R81 to R85). -/

section
variable {w : Word} {op : BitVec 8} {i : Instr}

theorem formatZ_ok {j : Instr} (hop : opField w = op) (h : formatZ w j = .ok i) : i = j ∧ wordZ op = w := by
  unfold formatZ at h
  split at h <;> cases h
  exact ⟨rfl, wordZ_eq_iff.2 ⟨hop, ‹_›⟩⟩

theorem formatS_ok {f : Symbol → Instr} (hop : opField w = op) (h : formatS w f = .ok i) :
    i = f (symField w) ∧ wordS op (symField w) = w := by
  unfold formatS at h
  split at h <;> cases h
  exact ⟨rfl, wordS_eq_iff.2 ⟨hop, ‹_›, rfl⟩⟩

theorem formatX_ok {f : Nat → Instr} (hop : opField w = op) (h : formatX w f = .ok i) :
    i = f (idxXField w) ∧ wordX op (idxXField w) = w := by
  unfold formatX at h
  split at h <;> cases h
  exact ⟨rfl, (wordX_eq_iff (fitsX_idxXField w)).2 ⟨hop, ‹_›, rfl⟩⟩

theorem formatL_ok {f : Nat → Instr} (hop : opField w = op) (h : formatL w f = .ok i) :
    i = f (idxLField w) ∧ wordL op (idxLField w) = w := by
  cases h
  exact ⟨rfl, (wordL_eq_iff (fitsL_idxLField w)).2 ⟨hop, rfl⟩⟩

theorem formatB_ok {f : Byte → Instr} (hop : opField w = op) (h : formatB w f = .ok i) :
    i = f (byteField w) ∧ wordB op (byteField w) = w := by
  unfold formatB at h
  split at h <;> cases h
  exact ⟨rfl, wordB_eq_iff.2 ⟨hop, ‹_›, rfl⟩⟩

/-- The command a word decodes to is well-formed, and the word is its word (R87, R89). -/
theorem encode_of_decode (h : decode w = .ok i) : WellFormed i ∧ encode i = w := by
  unfold decode at h
  split at h
  case h_1 hop | h_2 hop | h_3 hop | h_6 hop | h_8 hop | h_11 hop | h_13 hop | h_15 hop | h_17 hop =>
    obtain ⟨rfl, hw⟩ := formatZ_ok hop h
    exact ⟨rfl, hw⟩
  case h_4 hop | h_9 hop | h_12 hop =>
    obtain ⟨rfl, hw⟩ := formatS_ok hop h
    exact ⟨rfl, hw⟩
  case h_5 hop | h_7 hop | h_10 hop =>
    obtain ⟨rfl, hw⟩ := formatX_ok hop h
    exact ⟨decide_eq_true (fitsX_idxXField w), hw⟩
  case h_14 hop | h_18 hop =>
    obtain ⟨rfl, hw⟩ := formatL_ok hop h
    exact ⟨decide_eq_true (fitsL_idxLField w), hw⟩
  case h_16 hop =>
    obtain ⟨rfl, hw⟩ := formatB_ok hop h
    exact ⟨rfl, hw⟩
  case h_19 => cases h

/-- The word of a well-formed command decodes to it, whatever its operand (R87). -/
theorem decode_of_encode (hi : WellFormed i) (h : encode i = w) : decode w = .ok i := by
  cases i with
  | nop | clear | errClear | build | gen | encStart | encFinish | decStart | decFinish =>
    obtain ⟨hop, hz⟩ := wordZ_eq_iff.1 h
    simp [decode, hop, formatZ, hz]
  | freqLoad x | codeFind x | encSym x =>
    obtain ⟨hop, hz, rfl⟩ := wordS_eq_iff.1 h
    simp [decode, hop, formatS, hz]
  | freqRead k | nodeRead k | codeRead k =>
    obtain ⟨hop, hz, rfl⟩ := (wordX_eq_iff (of_decide_eq_true hi)).1 h
    simp [decode, hop, formatX, hz]
  | outRead k | decRead k =>
    obtain ⟨hop, rfl⟩ := (wordL_eq_iff (of_decide_eq_true hi)).1 h
    simp [decode, hop, formatL]
  | decByte b =>
    obtain ⟨hop, hz, rfl⟩ := wordB_eq_iff.1 h
    simp [decode, hop, formatB, hz]

end

/-- Settles O1: a well-formed command's word has its opcode, zero reserved bits and its operand, which is what decode reads. -/
theorem decodeOfEncode : Obligations.DecodeOfEncode :=
  fun _ hi => decode_of_encode hi rfl

/-- Settles O2: each format's decoder accepts a word only with every bit fixed by the opcode, the operand or 0. -/
theorem encodeOfDecode : Obligations.EncodeOfDecode :=
  fun _ _ => encode_of_decode

/-- Settles O4, by computation. -/
theorem exampleWords : Obligations.ExampleWords :=
  ⟨rfl, rfl, rfl, rfl, rfl, rfl, rfl, rfl, rfl, rfl, rfl⟩

/-! ### Legality (R88) -/

theorem exists_ite_eq_ok {c : Prop} [Decidable c] {e : Illegal} {j : Instr} :
    (∃ i, (if c then Except.ok j else .error e) = .ok i) ↔ c := by
  split <;> simp [*]

/-- A word decodes exactly when it is legal: R88's case list is decode's. -/
theorem decode_ok_iff_legal (w : Word) : (∃ i, decode w = .ok i) ↔ legal w = true := by
  unfold decode
  split
  case h_1 hop | h_2 hop | h_3 hop | h_6 hop | h_8 hop | h_11 hop | h_13 hop | h_15 hop | h_17 hop =>
    simp [legal, hop, formatZ, exists_ite_eq_ok]
  case h_4 hop | h_9 hop | h_12 hop => simp [legal, hop, formatS, exists_ite_eq_ok]
  case h_5 hop | h_7 hop | h_10 hop => simp [legal, hop, formatX, exists_ite_eq_ok]
  case h_14 hop | h_18 hop => simp [legal, hop, formatL]
  case h_16 hop => simp [legal, hop, formatB, exists_ite_eq_ok]
  case h_19 =>
    simp_all [legal, ← BitVec.toNat_inj]

/-! The rows of the opcode table: the words that match a row are the words of its command (R88 "Equivalently"). -/

section
variable {w : Word} {op : BitVec 8}

theorem wordZ_of_matches (h : (OpcodeRow.mk (wordZ op) 0xFFFFFFFF#32).matches w = true) : wordZ op = w :=
  (eq_of_beq h).symm.trans BitVec.and_allOnes

theorem wordS_of_matches (h : (OpcodeRow.mk (place op 24) 0xFFE00000#32).matches w = true) : wordS op (symField w) = w :=
  place_or_place_of_masked (eq_of_beq h)

theorem wordX_of_matches (h : (OpcodeRow.mk (place op 24) 0xFFFF8000#32).matches w = true) :
    wordX op (idxXField w) = w := by
  unfold wordX idxXField
  rw [BitVec.ofNat_toNat, BitVec.setWidth_eq]
  exact place_or_place_of_masked (eq_of_beq h)

theorem wordL_of_matches (h : (OpcodeRow.mk (place op 24) 0xFF000000#32).matches w = true) :
    wordL op (idxLField w) = w := by
  unfold wordL idxLField
  rw [BitVec.ofNat_toNat, BitVec.setWidth_eq]
  exact place_or_place_of_masked (eq_of_beq h)

theorem wordB_of_matches (h : (OpcodeRow.mk (place op 24) 0xFFFFFF00#32).matches w = true) : wordB op (byteField w) = w :=
  place_or_place_of_masked (eq_of_beq h)

/-- A word that matches a row of the table decodes to a command of that row. -/
theorem decode_of_matches {r : OpcodeRow} (hr : r ∈ opcodeRows) (h : r.matches w = true) :
    ∃ i, decode w = .ok i ∧ rowOf i = r := by
  suffices hword : ∃ i, WellFormed i ∧ encode i = w ∧ rowOf i = r by
    obtain ⟨i, hi, hw, hrow⟩ := hword
    exact ⟨i, decode_of_encode hi hw, hrow⟩
  have hx : decide (FitsX (idxXField w)) = true := decide_eq_true (fitsX_idxXField w)
  have hl : decide (FitsL (idxLField w)) = true := decide_eq_true (fitsL_idxLField w)
  simp only [opcodeRows, List.cons_append, List.nil_append, List.mem_cons, List.not_mem_nil, or_false] at hr
  rcases hr with rfl | rfl | rfl | rfl | rfl | rfl | rfl | rfl | rfl | rfl | rfl | rfl | rfl | rfl | rfl | rfl | rfl | rfl
  · exact ⟨.nop, rfl, wordZ_of_matches h, rfl⟩
  · exact ⟨.clear, rfl, wordZ_of_matches h, rfl⟩
  · exact ⟨.errClear, rfl, wordZ_of_matches h, rfl⟩
  · exact ⟨.freqLoad (symField w), rfl, wordS_of_matches h, rfl⟩
  · exact ⟨.freqRead (idxXField w), hx, wordX_of_matches h, rfl⟩
  · exact ⟨.build, rfl, wordZ_of_matches h, rfl⟩
  · exact ⟨.nodeRead (idxXField w), hx, wordX_of_matches h, rfl⟩
  · exact ⟨.gen, rfl, wordZ_of_matches h, rfl⟩
  · exact ⟨.codeFind (symField w), rfl, wordS_of_matches h, rfl⟩
  · exact ⟨.codeRead (idxXField w), hx, wordX_of_matches h, rfl⟩
  · exact ⟨.encStart, rfl, wordZ_of_matches h, rfl⟩
  · exact ⟨.encSym (symField w), rfl, wordS_of_matches h, rfl⟩
  · exact ⟨.encFinish, rfl, wordZ_of_matches h, rfl⟩
  · exact ⟨.outRead (idxLField w), hl, wordL_of_matches h, rfl⟩
  · exact ⟨.decStart, rfl, wordZ_of_matches h, rfl⟩
  · exact ⟨.decByte (byteField w), rfl, wordB_of_matches h, rfl⟩
  · exact ⟨.decFinish, rfl, wordZ_of_matches h, rfl⟩
  · exact ⟨.decRead (idxLField w), hl, wordL_of_matches h, rfl⟩

end

/-- The word of every command matches the command's own row (R87, R88). -/
theorem rowOf_statement (i : Instr) : Statement i := by
  cases i with
  | nop => exact TableRow.nop
  | clear => exact TableRow.clear
  | errClear => exact TableRow.errClear
  | freqLoad x => exact TableRow.freqLoad x
  | freqRead k => exact TableRow.freqRead k
  | build => exact TableRow.build
  | nodeRead k => exact TableRow.nodeRead k
  | gen => exact TableRow.gen
  | codeFind x => exact TableRow.codeFind x
  | codeRead k => exact TableRow.codeRead k
  | encStart => exact TableRow.encStart
  | encSym x => exact TableRow.encSym x
  | encFinish => exact TableRow.encFinish
  | outRead k => exact TableRow.outRead k
  | decStart => exact TableRow.decStart
  | decByte b => exact TableRow.decByte b
  | decFinish => exact TableRow.decFinish
  | decRead k => exact TableRow.decRead k

/-- Settles O3: a word that matches a row decodes to a command of that row, and a word decodes to one command at most. -/
theorem legalWords : Obligations.LegalWords := by
  intro w
  refine ⟨decode_ok_iff_legal w, ?_, ?_⟩
  · rw [← decode_ok_iff_legal w]
    constructor
    · rintro ⟨i, hi⟩
      obtain ⟨-, rfl⟩ := encode_of_decode hi
      exact ⟨rowOf i, rowOf_statement i⟩
    · rintro ⟨r, hr, h⟩
      obtain ⟨i, hi, -⟩ := decode_of_matches hr h
      exact ⟨i, hi⟩
  · intro r hr r' hr' h h'
    obtain ⟨i, hi, rfl⟩ := decode_of_matches hr h
    obtain ⟨i', hi', rfl⟩ := decode_of_matches hr' h'
    rw [hi] at hi'
    cases hi'
    rfl

end Sys2Proof.Machine
end

section
/-! ### The turns of the Core and the host (40_control.md R100, 30_encoding.md R91 and R92; O6, O7) -/

namespace Sys2Proof.Machine

theorem step_of_turn {s : State} {x : Turn} {ts : List Turn} (h : s.turns = x :: ts) : step s = move x (s.setTurns ts) := by
  unfold step takeTurn
  rw [h]

/-- With no turn named a busy Core moves (log 2). -/
theorem step_of_default_core {s : State} (h : s.turns = []) (hr : s.inReset = false) (hb : s.busy = true) :
    step s = coreTurn s := by
  simp [step, takeTurn, h, defaultMove, hr, hb]

/-- With no turn named and the Core idle the host moves (log 2). -/
theorem step_of_default_host {s : State} (h : s.turns = []) (hr : s.inReset = false) (hb : s.busy = false) :
    step s = hostTurn s := by
  simp [step, takeTurn, h, defaultMove, hr, hb]

/-- The Core's turn with an illegal word latched (R89, R100). -/
theorem coreTurn_of_illegal {s : State} (hb : s.busy = true) (hr : s.inReset = false) (hl : legal s.pcmd = false) :
    coreTurn s = .next (s.raise .illegalCmd).finish := by
  unfold coreTurn coreStep execute
  rw [if_pos (by simp [hb, hr])]
  cases hd : decode s.pcmd with
  | ok i => exact absurd ((decode_ok_iff_legal s.pcmd).1 ⟨i, hd⟩) (by simp [hl])
  | error e => rfl

/-- Settles O6: either way the Core gets its turn, and the word decodes to no command. -/
theorem illegalWordRaises : Obligations.IllegalWordRaises := by
  intro s hb hr hl
  refine ⟨fun ts hts => ?_, fun hts => ?_⟩
  · rw [step_of_turn hts]
    exact coreTurn_of_illegal (s := s.setTurns ts) hb hr hl
  · rw [step_of_default_core hts hr hb]
    exact coreTurn_of_illegal hb hr hl

@[simp] theorem statusBusy_status (s : State) : statusBusy s.status = s.busy := by
  simp [statusBusy, State.status, place]

theorem ErrCode.bits_eq_zero_iff {e : ErrCode} : e.bits = 0#8 ↔ e = .none := by
  cases e <;> decide

theorem statusErr_status_eq_zero_iff {s : State} : statusErr s.status = 0#8 ↔ s.err = .none := by
  unfold statusErr
  rw [status_err, ErrCode.bits_eq_zero_iff]

/-- A read of STATUS answers its value whatever BUSY is (R48). -/
theorem busAccess_statusRead {s : State} (hb : s.cfg.hufBase % 256 = 0) (hr : s.inReset = false) :
    busAccess (statusRead s.cfg) s = .next (s.respond (.data s.status)) := by
  unfold statusRead
  rw [busAccess_read_reg hb hr (by decide) rfl, readReg_of_specified (.inr rfl)]
  rfl

theorem State.respValue_respond_data (s : State) (v : Word) : (s.respond (.data v)).respValue = some v := rfl

theorem hostTurn_access {s : State} {op : BusOp} {rest : List HostStmt} (h : s.prog = .access op :: rest) :
    hostTurn s = afterAccess (busAccess op s) fun t => t.setProg rest := by
  unfold hostTurn
  rw [h]

/-- A WAIT reads STATUS, and the program goes on when BUSY is 0 (R92). -/
theorem hostTurn_wait {s : State} {rest : List HostStmt} (hb : s.cfg.hufBase % 256 = 0) (hr : s.inReset = false)
    (h : s.prog = .wait :: rest) :
    hostTurn s =
      .next ((s.respond (.data s.status)).setProg (if s.busy = true then .wait :: rest else rest)) := by
  unfold hostTurn
  rw [h, busAccess_statusRead hb hr]
  refine congrArg Host.Outcome.next ?_
  unfold afterWait
  rw [State.respValue_respond_data]
  cases hs : s.busy
  · simp [hs]
  · simp [hs, ← h]
    rfl

/-- A CHECK reads STATUS, and the program stops when ERR is nonzero (R92). -/
theorem hostTurn_check {s : State} {rest : List HostStmt} (hb : s.cfg.hufBase % 256 = 0) (hr : s.inReset = false)
    (h : s.prog = .check :: rest) :
    hostTurn s = .next ((s.respond (.data s.status)).setProg (if s.err = .none then rest else [])) := by
  unfold hostTurn
  rw [h, busAccess_statusRead hb hr]
  refine congrArg Host.Outcome.next ?_
  unfold afterCheck
  rw [State.respValue_respond_data]
  by_cases he : s.err = .none <;> simp [he, statusErr_status_eq_zero_iff]

/-- Settles O7: the host's turn is the same whether the turns name it or it moves by default. -/
theorem hostStatements : Obligations.HostStatements := by
  intro s u rest hturn
  obtain ⟨ts, rfl, hstep⟩ : ∃ ts, u = s.setTurns ts ∧ step s = hostTurn u := by
    rcases hturn with ⟨ts, hts, rfl⟩ | ⟨hts, hb, hr, rfl⟩
    · exact ⟨ts, rfl, step_of_turn hts⟩
    · exact ⟨u.turns, rfl, step_of_default_host hts hr hb⟩
  rw [hstep]
  refine ⟨fun op hp => ?_, fun hb hr hp => hostTurn_wait hb hr hp, fun hb hr hp => hostTurn_check hb hr hp⟩
  rw [hostTurn_access (s := s.setTurns ts) hp]
  exact ⟨fun t h => by rw [h]; rfl, fun r h => by rw [h]; rfl⟩

end Sys2Proof.Machine
end

section
/-! ### Control commands, the frame of every command, and admission (40_control.md R100 to R104; O5, O19, O48, O49) -/

namespace Sys2Proof.Machine

/-! What no command changes (R102, R51). -/

/-- ARG, the latch, BUSY and everything outside the block are in the second state as they are in the first. -/
def SameLatchAndHost (s t : State) : Prop :=
  t = { t with
    arg := s.arg, pcmd := s.pcmd, parg := s.parg, busy := s.busy, cfg := s.cfg
    inReset := s.inReset, prog := s.prog, turns := s.turns, resp := s.resp, draws := s.draws }

theorem TableWrite.sameLatchAndHost {i : Instr} {s t : State} (w : TableWrite s i t) : SameLatchAndHost s t := by
  cases w <;> rfl

theorem SessionWrite.sameLatchAndHost {i : Instr} {s t : State} (w : SessionWrite s i t) : SameLatchAndHost s t := by
  cases w with
  | errClear | encStart | encSym | encFinish | decStart | header | finish => rfl
  | hold _ _ _ hw | byteStopped _ _ hw | finishHeld _ _ hw | finishStopped _ hw | trailing _ hw =>
    obtain ⟨e, d, k, b, rfl⟩ := hw.exists_eq
    rfl

theorem Effect.sameLatchAndHost {i : Instr} {s t : State} (h : Effect s i t) : SameLatchAndHost s t := by
  cases h with
  | ignored | raised | cleared | answered => rfl
  | tables _ _ _ w => exact w.sameLatchAndHost
  | sessions _ _ _ w => exact w.sameLatchAndHost

/-- Settles O49: none of a command's effects writes outside the tables, the sessions, ERR, OVR and the results. -/
theorem commandFrame : Obligations.CommandFrame := by
  intro i s t h
  rw [(exec_effect h).sameLatchAndHost]
  exact ⟨rfl, rfl, rfl, rfl, rfl, rfl, rfl, rfl, rfl, rfl⟩

/-- Settles O48: the writes of the three control commands, field by field. -/
theorem controlCommands : Obligations.ControlCommands := fun _ => ⟨rfl, rfl, rfl⟩

/-! The Core's turn with a legal word latched (R100). -/

theorem coreTurn_of_legal {s : State} {i : Instr} (hb : s.busy = true) (hr : s.inReset = false)
    (hd : decode s.pcmd = .ok i) : coreTurn s = finishCommand (exec i s) := by
  unfold coreTurn coreStep execute
  rw [if_pos (by simp [hb, hr]), hd]

/-- Settles O5: either way the Core gets its turn, it runs the latched command and completes. -/
theorem stepRunsCommand : Obligations.StepRunsCommand := by
  intro s i hb hr hd
  refine ⟨fun ts hts => ?_, fun hts => ?_⟩
  · rw [step_of_turn hts, show move .core _ = _ from coreTurn_of_legal (s := s.setTurns ts) hb hr hd]
    exact ⟨fun t h => congrArg finishCommand h, fun f h => congrArg finishCommand h⟩
  · rw [step_of_default_core hts hr hb, coreTurn_of_legal hb hr hd]
    exact ⟨fun t h => congrArg finishCommand h, fun f h => congrArg finishCommand h⟩

/-! The admission table (R104). -/

/-- No next state the answer can be has ERR = BAD_SEQUENCE. -/
def NeverBadSequence (r : Result) : Prop := ∀ t, r = .next t → t.err ≠ .badSequence

/-- The one error a walk can raise is DEC_OVERFLOW (R184). -/
theorem Walked.err {s t : State} (h : Walked s t) : t.err = s.err ∨ t.err = .decOverflow := by
  induction h with
  | refl => exact .inl rfl
  | @tail m t _ h ih =>
    cases h with
    | dead | emitOnly | emitLeaf | move => exact ih
    | overflow =>
      by_cases he : m.err = .none
      · exact .inr (by rw [State.raise_of_clear he])
      · rwa [State.raise_of_error he]

section
variable {s : State}

theorem NeverBadSequence.next {t : State} (h : t.err = .none) : NeverBadSequence (.next t) := by
  intro u hu
  cases hu
  simp [h]

theorem NeverBadSequence.fault (f : Fault) : NeverBadSequence (.fault f) := by
  intro u hu
  cases hu

theorem NeverBadSequence.raise (hs : s.err = .none) {e : ErrCode} (he : e ≠ .badSequence) :
    NeverBadSequence (Machine.raise s e) := by
  intro u hu
  cases hu
  rwa [State.raise_of_clear hs]

theorem NeverBadSequence.check {c : Prop} [Decidable c] {e : ErrCode} {r : Result} (hs : s.err = .none)
    (he : e ≠ .badSequence) (hr : NeverBadSequence r) : NeverBadSequence (if c then Machine.raise s e else r) := by
  split
  · exact .raise hs he
  · exact hr

theorem Walked.neverBadSequence {m t : State} (hw : Walked s m) (hs : s.err = .none) (ht : t.err = m.err) :
    NeverBadSequence (.next t) := by
  intro u hu
  cases hu
  rcases hw.err with h | h <;> simp [ht, h, hs]

/-- Walking the held byte and taking another (R181). -/
theorem releaseHeld_neverBadSequence (hs : s.err = .none) (b : Byte) :
    NeverBadSequence ((releaseHeld s).andThen fun t => .go (t.holdByte b)).result := by
  cases h : releaseHeld s with
  | go m => exact (releaseHeld_walked (.inl h)).neverBadSequence hs rfl
  | raised m => exact (releaseHeld_walked (.inr h)).neverBadSequence hs rfl
  | broken f => exact .fault f

/-- Finishing a payload that is not empty (R186). -/
theorem finishPayload_neverBadSequence (hs : s.err = .none) :
    NeverBadSequence ((finishPayload s).andThen fun t => .go t.closeDec).result := by
  rcases finishPayload_cases s with h | h | ⟨f, h⟩ | ⟨m, hw, h | h | h⟩ <;> rw [h]
  · exact .raise hs (by decide)
  · exact .next hs
  · exact .fault f
  · exact hw.neverBadSequence hs rfl
  · intro u hu
    cases hu
    by_cases hm : m.err = .none
    · simp [State.raise_of_clear (s := m.dropHold) hm]
    · rw [State.raise_of_error (s := m.dropHold) hm]
      exact hw.neverBadSequence (t := m.dropHold) hs rfl _ rfl
  · exact hw.neverBadSequence hs rfl

/-- A command whose first check is its row of R104's table, and whose other checks raise other errors. -/
theorem admission_of_check {i : Instr} {c : Prop} [Decidable c] {r : Result} (hs : s.err = .none)
    (hi : exec i s = unlessBlocked s (if c then Machine.raise s .badSequence else r)) (hc : c ↔ ¬ Admits i s)
    (hr : NeverBadSequence r) :
    (¬ Admits i s → exec i s = .next { s with err := .badSequence }) ∧ (Admits i s → NeverBadSequence (exec i s)) := by
  rw [hi, unlessBlocked_of_clear hs]
  refine ⟨fun h => ?_, fun h => ?_⟩
  · rw [if_pos (hc.mpr h), raise_eq, State.raise_of_clear hs]
  · rwa [if_neg (fun h' => hc.mp h' h)]

/-- A command that every state admits. -/
theorem admission_of_always {i : Instr} (h : Admits i s) (hr : NeverBadSequence (exec i s)) :
    (¬ Admits i s → exec i s = .next { s with err := .badSequence }) ∧ (Admits i s → NeverBadSequence (exec i s)) :=
  ⟨(absurd h ·), fun _ => hr⟩

end

/-- Settles O19: each command's first check is its row of the table, and no later check raises BAD_SEQUENCE. -/
theorem admissionTable : Obligations.AdmissionTable := by
  intro i s hs
  cases i with
  | nop => exact admission_of_always trivial (.next hs)
  | clear => exact admission_of_always trivial (.next rfl)
  | errClear => exact admission_of_always trivial (.next rfl)
  | freqRead k =>
    refine admission_of_always trivial ?_
    rw [show exec (.freqRead k) s = _ from unlessBlocked_of_clear hs _]
    split
    · exact .raise hs (by decide)
    · exact .next hs
  | freqLoad x =>
    exact admission_of_check hs rfl .rfl <| .check hs (by decide) <| .check hs (by decide) <| .check hs (by decide) <|
      .check hs (by decide) (.next hs)
  | build =>
    refine admission_of_check hs rfl .rfl ?_
    split
    · exact .fault _
    · exact .next hs
  | nodeRead k =>
    refine admission_of_check hs rfl (by cases h : s.phase <;> simp [Admits, h]) ?_
    split
    · exact .raise hs (by decide)
    · exact .next hs
  | gen =>
    refine admission_of_check hs rfl .rfl ?_
    split
    · exact .fault _
    · exact .next hs
  | codeFind x =>
    refine admission_of_check hs rfl .rfl ?_
    split
    · exact .next hs
    · split
      · exact .fault _
      · exact .next hs
  | codeRead k =>
    refine admission_of_check hs rfl .rfl ?_
    split
    · exact .raise hs (by decide)
    · exact .check hs (by decide) (.next hs)
  | encStart => exact admission_of_check hs rfl .rfl (.next hs)
  | encSym x =>
    refine admission_of_check hs rfl (by simp [Admits]) ?_
    split
    · exact .raise hs (by decide)
    · split
      · exact .fault _
      · exact .check hs (by decide) (.next hs)
  | encFinish => exact admission_of_check hs rfl (by simp [Admits]) (.next hs)
  | outRead k =>
    refine admission_of_check hs rfl (by simp [Admits]) ?_
    split
    · exact .raise hs (by decide)
    · exact .next hs
  | decStart => exact admission_of_check hs rfl .rfl (.next hs)
  | decByte b =>
    refine admission_of_check hs rfl (by simp [Admits]) ?_
    split
    · split
      · exact .next hs
      · exact .raise hs (by decide)
    · exact releaseHeld_neverBadSequence hs b
  | decFinish =>
    refine admission_of_check hs rfl (by simp [Admits]) ?_
    split
    · exact finishPayload_neverBadSequence hs
    · exact .next hs
  | decRead k =>
    refine admission_of_check hs rfl (by simp [Admits]) ?_
    split
    · exact .raise hs (by decide)
    · exact .next hs

end Sys2Proof.Machine
end

section
/-! ### The frequency-table port (41_frequency_table.md R110, R111; O21, O22) -/

namespace Sys2Proof.Machine

/-- A count of 0 is a PARG of 0 (R86). -/
theorem State.count_eq_zero_iff {s : State} : s.count = 0 ↔ s.parg = 0#32 :=
  BitVec.toNat_inj (y := 0#32)

/-- `Find(sym)` is an index exactly when some entry holds the symbol (R144). -/
theorem find_isSome_iff {freq : List FreqEntry} {x : Symbol} : (find freq x).isSome ↔ ∃ e ∈ freq, e.sym = x := by
  simp [Option.isSome_iff_ne_none, find_eq_none]

/-- The append's new TOTAL is the sum of the two numbers (R110). -/
theorem State.appendFreq_eq (s : State) (x : Symbol) (c : Word) :
    s.appendFreq x c =
      { s with freq := s.freq ++ [⟨x, c⟩], total := BitVec.ofNat 32 (s.total.toNat + c.toNat) } := rfl

/-- In phase LOAD with ERR = 0 only the four checks on the operands are left of FREQ_LOAD's (R110). -/
theorem exec_freqLoad_of_load {s : State} (he : s.err = .none) (hp : s.phase = .load) (x : Symbol) :
    exec (.freqLoad x) s =
      if s.parg = 0#32 then .next { s with err := .zeroCount }
      else if ∃ e ∈ s.freq, e.sym = x then .next { s with err := .dupSymbol }
      else if s.freq.length = s.cfg.maxLeaves then .next { s with err := .tableFull }
      else if 2 ^ 32 - 1 < s.total.toNat + s.parg.toNat then .next { s with err := .freqOverflow }
      else .next (s.appendFreq x s.parg) := by
  rw [show exec (.freqLoad x) s = _ from unlessBlocked_of_clear he _, if_neg (not_not_intro hp)]
  simp only [State.count_eq_zero_iff, find_isSome_iff, raise_eq, State.raise_of_clear he]
  rfl

/-- Settles O21: the checks are made in the order of the clauses, each of which excludes the clauses before it. -/
theorem freqLoadResult : Obligations.FreqLoadResult := by
  intro x s he hp
  rw [exec_freqLoad_of_load he hp]
  have absent (h : ∀ e ∈ s.freq, e.sym ≠ x) : ¬ ∃ e ∈ s.freq, e.sym = x := fun ⟨e, hmem, hx⟩ => h e hmem hx
  refine ⟨fun hz => ?_, fun hz hd => ?_, fun hz hd hf => ?_, fun hz hd hf ho => ?_, fun hz hd hf ho => ?_⟩
  · rw [if_pos hz]
  · rw [if_neg hz, if_pos hd]
  · rw [if_neg hz, if_neg (absent hd), if_pos hf]
  · rw [if_neg hz, if_neg (absent hd), if_neg hf, if_pos ho]
  · rw [if_neg hz, if_neg (absent hd), if_neg hf, if_neg (Nat.not_lt.mpr ho), State.appendFreq_eq]

/-- Settles O22: the index either names an entry or lies past the table. -/
theorem freqReadResult : Obligations.FreqReadResult := by
  intro idx s he
  rw [show exec (.freqRead idx) s = _ from unlessBlocked_of_clear he _]
  refine ⟨fun e hentry => ?_, fun hpast => ?_⟩
  · rw [hentry, BitVec.ofNat_toNat]
    rfl
  · rw [List.getElem?_eq_none hpast, ← State.raise_of_clear he]
    rfl

end Sys2Proof.Machine
end

section
/-! ### The tree builder: BUILD (42_tree_builder.md R120 to R127; O24, O26, O27) -/

namespace Sys2Proof.Machine

/-- The two popped weights are part of the sum of the queue's weights. -/
theorem MergeInv.weight_add_le {freq : List FreqEntry} {nodes : List Node} {q q1 q2 : List QEntry} {x y : QEntry}
    (h : MergeInv freq nodes q) (hx : popMin q = some (x, q1)) (hy : popMin q1 = some (y, q2)) :
    x.w.toNat + y.w.toNat ≤ countSum freq := by
  have hperm : (x :: y :: q2).Perm q := ((popMin_perm hy).cons x).trans (popMin_perm hx)
  have hs := (hperm.map fun e : QEntry => e.w.toNat).sum_eq
  rw [h.sum] at hs
  simp only [List.map_cons, List.sum_cons] at hs
  omega

/-- No sum of weights overflows when the counts add up to at most 2^32 − 1 (R122). -/
theorem mergeLoop_completes {freq : List FreqEntry} (hc : countSum freq < 2 ^ 32) {fuel : Nat} {nodes : List Node}
    {q : List QEntry} (h : MergeInv freq nodes q) : ∃ ns q', mergeLoop fuel nodes q = .ok (ns, q') := by
  induction fuel generalizing nodes q with
  | zero => exact ⟨nodes, q, rfl⟩
  | succ fuel ih =>
    rcases mergeLoop_succ fuel nodes q with ⟨_, he⟩ | ⟨x, q1, y, q2, hx, hy, ⟨hw, he⟩ | ⟨hw, _⟩⟩
    · exact ⟨nodes, q, he⟩
    · rw [he]
      exact ih (h.merge hx hy hw)
    · have := h.weight_add_le hx hy
      omega

theorem buildTree_completes {freq : List FreqEntry} (hc : countSum freq < 2 ^ 32) :
    ∃ nodes root, buildTree freq = .ok (nodes, root) := by
  obtain ⟨ns, q, hm⟩ := mergeLoop_completes hc (fuel := freq.length) (mergeInv_start freq)
  exact ⟨ns, q.head?.map QEntry.k, by rw [buildTree, hm]⟩

/-- In phase LOAD with ERR = 0, BUILD writes what `buildTree` makes of FREQ (R120). -/
theorem exec_build_of_ok {s : State} {nodes : List Node} {root : Option Nat} (he : s.err = .none) (hp : s.phase = .load)
    (hb : buildTree s.freq = .ok (nodes, root)) : exec .build s = .next (s.setTree nodes root) := by
  rw [show exec .build s = _ from unlessBlocked_of_clear he _, if_neg (not_not_intro hp), hb]

/-- In phase LOAD with ERR = 0, BUILD answers a next state only by writing what `buildTree` makes of FREQ (R120). -/
theorem buildTree_of_exec_build {s t : State} (he : s.err = .none) (hp : s.phase = .load)
    (h : exec .build s = .next t) : buildTree s.freq = .ok (t.node, t.root) := by
  rw [show exec .build s = _ from unlessBlocked_of_clear he _, if_neg (not_not_intro hp)] at h
  split at h
  · cases h
  · cases h
    assumption

/-- Settles O24: the counts add up to TOTAL, a word, so no sum overflows and BUILD completes. -/
theorem buildMakesTree : Obligations.BuildMakesTree := by
  intro s he hp ⟨_, _, htotal⟩
  obtain ⟨nodes, root, hb⟩ := buildTree_completes (htotal ▸ s.total.isLt)
  obtain ⟨htree, hweight⟩ := buildTree_treeOf hb
  exact ⟨nodes, root, exec_build_of_ok he hp hb, htree, by rwa [htotal]⟩

/-- Settles O26: both answers are what `buildTree` makes of the one FREQ. -/
theorem buildIsFunctionOfFreq : Obligations.BuildIsFunctionOfFreq := by
  intro s t s' t' hes het hps hpt hf hs ht
  have hb := buildTree_of_exec_build hes hps hs
  rw [hf, buildTree_of_exec_build het hpt ht] at hb
  simpa [eq_comm] using hb

/-- Settles O27: with fewer than two leaves there is nothing to merge, so `buildTree` computes. -/
theorem buildEdgeCases : Obligations.BuildEdgeCases := by
  intro s he hp
  refine ⟨fun hf => ?_, fun e hf => ?_⟩
  · exact exec_build_of_ok he hp (by rw [hf]; rfl)
  · exact exec_build_of_ok he hp (by rw [hf]; simp [buildTree, leaves, seedQueue, mergeLoop, popMin])

end Sys2Proof.Machine
end

section
/-! ### The tree builder: the order of the queue and the merges (42_tree_builder.md R120, R121, R123; O23, O25) -/

namespace Sys2Proof.Machine

/-! The key order is a strict total order (R121). -/

theorem QEntry.before_iff {a b : QEntry} :
    a.before b = true ↔ a.w.toNat < b.w.toNat ∨ (a.w = b.w ∧ a.k < b.k) := by
  simp [QEntry.before]

theorem QEntry.before_trans {a b c : QEntry} (hab : a.before b = true) (hbc : b.before c = true) :
    a.before c = true := by
  rw [before_iff] at *
  rcases hab with hab | ⟨hab, hk⟩ <;> rcases hbc with hbc | ⟨hbc, hk'⟩
  · exact .inl (hab.trans hbc)
  · exact .inl (hbc ▸ hab)
  · exact .inl (hab ▸ hbc)
  · exact .inr ⟨hab.trans hbc, hk.trans hk'⟩

theorem QEntry.before_asymm {a b : QEntry} (hab : a.before b = true) : ¬ b.before a = true := by
  intro hba
  have haa := before_iff.mp (before_trans hab hba)
  omega

theorem QEntry.before_trichotomy (a b : QEntry) : a = b ∨ a.before b = true ∨ b.before a = true := by
  rw [before_iff, before_iff]
  rcases Nat.lt_trichotomy a.w.toNat b.w.toNat with hw | hw | hw
  · exact .inr (.inl (.inl hw))
  · have hw := BitVec.eq_of_toNat_eq hw
    rcases Nat.lt_trichotomy a.k b.k with hk | hk | hk
    · exact .inr (.inl (.inr ⟨hw, hk⟩))
    · exact .inl (by cases a; cases b; simp_all)
    · exact .inr (.inr (.inr ⟨hw.symm, hk⟩))
  · exact .inr (.inr (.inl hw))

/-- `a` is `b` or is popped before it. -/
def QEntry.AtMost (a b : QEntry) : Prop := b = a ∨ a.before b = true

theorem QEntry.AtMost.trans {a b c : QEntry} (hab : a.AtMost b) (hbc : b.AtMost c) : a.AtMost c := by
  rcases hab with rfl | hab
  · exact hbc
  · rcases hbc with rfl | hbc
    · exact .inr hab
    · exact .inr (before_trans hab hbc)

theorem QEntry.AtMost.antisymm {a b : QEntry} (hab : a.AtMost b) (hba : b.AtMost a) : a = b := by
  rcases hab with rfl | hab
  · rfl
  · exact hba.resolve_right (before_asymm hab)

theorem QEntry.first_atMost_left (a b : QEntry) : (a.first b).AtMost a := by
  unfold QEntry.first
  split
  · exact .inr ‹_›
  · exact .inl rfl

theorem QEntry.first_atMost_right (a b : QEntry) : (a.first b).AtMost b := by
  unfold QEntry.first
  split
  · exact .inl rfl
  · rcases before_trichotomy a b with rfl | hab | hba
    · exact .inl rfl
    · exact .inr hab
    · contradiction

theorem foldl_first_atMost (e : QEntry) (es : List QEntry) : ∀ a ∈ e :: es, (es.foldl QEntry.first e).AtMost a := by
  induction es generalizing e with
  | nil => simp [QEntry.AtMost]
  | cons b bs ih =>
    rw [List.foldl_cons]
    have hfirst := ih (e.first b) _ List.mem_cons_self
    intro a ha
    rcases List.mem_cons.mp ha with rfl | ha
    · exact hfirst.trans (QEntry.first_atMost_left a b)
    · rcases List.mem_cons.mp ha with rfl | ha
      · exact hfirst.trans (QEntry.first_atMost_right e a)
      · exact ih _ a (List.mem_cons_of_mem _ ha)

/-- `PopMin` takes out the one element that no other is popped before (R121). -/
theorem popMin_eq_some_iff {q rest : List QEntry} {m : QEntry} :
    popMin q = some (m, rest) ↔ m ∈ q ∧ rest = q.erase m ∧ ∀ e ∈ q, m.AtMost e := by
  cases q with
  | nil => simp [popMin]
  | cons e es =>
    have hmem := foldl_first_mem e es
    have hleast := foldl_first_atMost e es
    constructor
    · intro h
      cases h
      exact ⟨hmem, rfl, hleast⟩
    · rintro ⟨hm, rfl, hm_least⟩
      rw [(hm_least _ hmem).antisymm (hleast m hm)]
      rfl

/-- Settles O23: `popMin_eq_some_iff` with the key order written out. -/
theorem popMinIsLeast : Obligations.PopMinIsLeast := by
  intro q m rest
  simp only [popMin_eq_some_iff, QEntry.AtMost, QEntry.before_iff]

/-! Which nodes wait in the queue, and their order there (R120, R121). -/

theorem mem_childIndices_of_int {nodes : List Node} {k l r j : Nat} {w : Word} (hk : nodes[k]? = some (.int w l r))
    (hj : j = l ∨ j = r) : j ∈ childIndices nodes :=
  List.mem_flatMap.mpr ⟨_, List.mem_of_getElem? hk, by simpa using hj⟩

/-- A node made later changes nothing for who waited earlier. -/
theorem waitsAt_append {nodes : List Node} {j k : Nat} (hk : k ≤ nodes.length) (n : Node) :
    WaitsAt (nodes ++ [n]) j k ↔ WaitsAt nodes j k := by
  refine and_congr_right fun _ => forall₂_congr fun i hi => ?_
  rw [List.getElem?_append_left (hi.trans_le hk)]

theorem poppedBefore_append {nodes : List Node} {a b : Nat} (ha : a < nodes.length) (hb : b < nodes.length) (n : Node) :
    PoppedBefore (nodes ++ [n]) a b ↔ PoppedBefore nodes a b := by
  rw [PoppedBefore, weightAt_append ha, weightAt_append hb, PoppedBefore]

/-- The nodes that wait when the next internal node is made are those that are no child yet. -/
theorem waitsAt_length_iff {nodes : List Node} {j : Nat} :
    WaitsAt nodes j nodes.length ↔ j < nodes.length ∧ j ∉ childIndices nodes := by
  refine and_congr_right fun _ => ⟨fun h hmem => ?_, fun h i _ w l r hi => ?_⟩
  · obtain ⟨i, w, l, r, hi, hj⟩ := mem_childIndices hmem
    obtain ⟨hl, hr⟩ := h i (List.getElem?_eq_some_iff.mp hi).1 w l r hi
    exact hj.elim hl hr
  · exact ⟨fun hj => h (mem_childIndices_of_int hi (.inl hj)), fun hj => h (mem_childIndices_of_int hi (.inr hj))⟩

/-- They are the nodes of the model's queue. -/
theorem MergeInv.waitsAt_iff {freq : List FreqEntry} {nodes : List Node} {q : List QEntry} (h : MergeInv freq nodes q)
    {j : Nat} : WaitsAt nodes j nodes.length ↔ j ∈ q.map QEntry.k := by
  have hbound : j ∈ q.map QEntry.k → j < nodes.length := by
    intro hmem
    obtain ⟨e, he, rfl⟩ := List.mem_map.mp hmem
    exact (h.weights e he).1
  rw [waitsAt_length_iff, ← List.count_eq_zero]
  constructor
  · rintro ⟨hj, hchild⟩
    have := h.once j hj
    exact List.count_pos_iff.mp (by omega)
  · intro hq
    have := h.once j (hbound hq)
    have := List.count_pos_iff.mpr hq
    exact ⟨hbound hq, by omega⟩

theorem MergeInv.keys_nodup {freq : List FreqEntry} {nodes : List Node} {q : List QEntry} (h : MergeInv freq nodes q) :
    (q.map QEntry.k).Nodup := by
  refine List.nodup_iff_count_le_one.mpr fun k => ?_
  by_cases hk : k ∈ q.map QEntry.k
  · have := h.once k (h.waitsAt_iff.mpr hk).1
    omega
  · rw [List.count_eq_zero.mpr hk]
    exact Nat.zero_le 1

/-- The queue's key order is the order of R121 on the nodes. -/
theorem MergeInv.poppedBefore {freq : List FreqEntry} {nodes : List Node} {q : List QEntry} (h : MergeInv freq nodes q)
    {a b : QEntry} (ha : a ∈ q) (hb : b ∈ q) (hab : a.before b = true) : PoppedBefore nodes a.k b.k := by
  rw [PoppedBefore, (h.weights a ha).2, (h.weights b hb).2]
  exact (QEntry.before_iff.mp hab).imp_right fun ⟨hw, hk⟩ => ⟨congrArg _ hw, hk⟩

/-! The merges (R120, R123). -/

/-- Nodes l and r are the two popped first of those that wait when node k is made, l before r. -/
def TwoLeastAt (nodes : List Node) (k l r : Nat) : Prop :=
  WaitsAt nodes l k ∧ WaitsAt nodes r k ∧ PoppedBefore nodes l r ∧
    ∀ j, WaitsAt nodes j k → j ≠ l → j ≠ r → PoppedBefore nodes r j

/-- Each internal node merges the two least of its time. -/
def MergesTwoLeast (nodes : List Node) : Prop := ∀ k w l r, nodes[k]? = some (.int w l r) → TwoLeastAt nodes k l r

theorem TwoLeastAt.append {nodes : List Node} {k l r : Nat} (h : TwoLeastAt nodes k l r) (hk : k ≤ nodes.length)
    (n : Node) : TwoLeastAt (nodes ++ [n]) k l r := by
  obtain ⟨hl, hr, hlr, hleast⟩ := h
  have hlt {j : Nat} (hj : WaitsAt nodes j k) : j < nodes.length := hj.1.trans_le hk
  simp only [TwoLeastAt, waitsAt_append hk]
  refine ⟨hl, hr, (poppedBefore_append (hlt hl) (hlt hr) n).mpr hlr, fun j hj hjl hjr => ?_⟩
  exact (poppedBefore_append (hlt hr) (hlt hj) n).mpr (hleast j hj hjl hjr)

theorem MergesTwoLeast.append {nodes : List Node} (h : MergesTwoLeast nodes) {w : Word} {l r : Nat}
    (hnew : TwoLeastAt nodes nodes.length l r) : MergesTwoLeast (nodes ++ [.int w l r]) := by
  intro k w' l' r' hk
  rcases Nat.lt_or_ge k nodes.length with hlt | hge
  · rw [List.getElem?_append_left hlt] at hk
    exact (h k w' l' r' hk).append hlt.le _
  · obtain rfl : k = nodes.length := by
      have := (List.getElem?_eq_some_iff.mp hk).1
      simp at this
      omega
    rw [List.getElem?_concat_length] at hk
    cases hk
    exact hnew.append le_rfl _

/-- The two elements a round pops are the two least of the nodes that wait (R120, R121). -/
theorem MergeInv.twoLeastAt {freq : List FreqEntry} {nodes : List Node} {q q1 q2 : List QEntry} {x y : QEntry}
    (h : MergeInv freq nodes q) (hx : popMin q = some (x, q1)) (hy : popMin q1 = some (y, q2)) :
    TwoLeastAt nodes nodes.length x.k y.k := by
  obtain ⟨hxq, -, hxleast⟩ := popMin_eq_some_iff.mp hx
  obtain ⟨hyq1, -, hyleast⟩ := popMin_eq_some_iff.mp hy
  have hperm := popMin_perm hx
  have hyq : y ∈ q := hperm.subset (List.mem_cons_of_mem x hyq1)
  have hxq1 : x.k ∉ q1.map QEntry.k := (List.nodup_cons.mp ((hperm.map QEntry.k).nodup_iff.mpr h.keys_nodup)).1
  have hne : y ≠ x := fun he => hxq1 (he ▸ List.mem_map_of_mem hyq1)
  refine ⟨h.waitsAt_iff.mpr (List.mem_map_of_mem hxq), h.waitsAt_iff.mpr (List.mem_map_of_mem hyq),
    h.poppedBefore hxq hyq ((hxleast y hyq).resolve_left hne), fun j hj hjx hjy => ?_⟩
  obtain ⟨e, he, rfl⟩ := List.mem_map.mp (h.waitsAt_iff.mp hj)
  have heq1 : e ∈ q1 := (List.mem_cons.mp (hperm.symm.subset he)).resolve_left fun hex => hjx (congrArg _ hex)
  exact h.poppedBefore hyq he ((hyleast e heq1).resolve_left fun hey => hjy (congrArg _ hey))

theorem mergeLoop_mergesTwoLeast {freq : List FreqEntry} {fuel : Nat} {nodes ns : List Node} {q q' : List QEntry}
    (hi : MergeInv freq nodes q) (h : MergesTwoLeast nodes) (hm : mergeLoop fuel nodes q = .ok (ns, q')) :
    MergesTwoLeast ns := by
  induction fuel generalizing nodes q with
  | zero => cases hm; exact h
  | succ fuel ih =>
    rcases mergeLoop_succ fuel nodes q with ⟨_, he⟩ | ⟨x, q1, y, q2, hx, hy, ⟨hw, he⟩ | ⟨_, he⟩⟩ <;> rw [he] at hm
    · cases hm
      exact h
    · exact ih (hi.merge hx hy hw) (h.append (hi.twoLeastAt hx hy)) hm
    · cases hm

theorem mergesTwoLeast_leaves (freq : List FreqEntry) : MergesTwoLeast (leaves freq) := by
  intro k w l r hk
  simp [leaves] at hk

theorem buildTree_mergesTwoLeast {freq : List FreqEntry} {nodes : List Node} {root : Option Nat}
    (h : buildTree freq = .ok (nodes, root)) : MergesTwoLeast nodes := by
  unfold buildTree at h
  split at h
  · cases h
  · rename_i hm
    cases h
    exact mergeLoop_mergesTwoLeast (mergeInv_start freq) (mergesTwoLeast_leaves freq) hm

/-- Settles O25: each round of the merge loop pops the least element and then the least of the rest. -/
theorem buildMergesTwoLeast : Obligations.BuildMergesTwoLeast := fun _ _ he hp h =>
  buildTree_mergesTwoLeast (buildTree_of_exec_build he hp h)

end Sys2Proof.Machine
end

section
/-! ### The tree builder: NODE_READ (42_tree_builder.md R125; O28) -/

namespace Sys2Proof.Machine

theorem place_eq_ofNat {n : Nat} (x : BitVec n) (lo : Nat) : place x lo = BitVec.ofNat 32 (x.toNat <<< lo) := by
  apply BitVec.eq_of_toNat_eq
  simp [place, Nat.shiftLeft_eq]

/-- Two fields that do not overlap, the second at bit 0, add up. -/
theorem place_or_place_zero {n m lo : Nat} (hm : m ≤ lo) (x : BitVec n) (y : BitVec m) :
    place x lo ||| place y 0 = BitVec.ofNat 32 (x.toNat * 2 ^ lo + y.toNat) := by
  have hy : y.toNat < 2 ^ lo := y.isLt.trans_le (Nat.pow_le_pow_right (by decide) hm)
  rw [place_eq_ofNat, place_eq_ofNat, ← BitVec.ofNat_or, Nat.shiftLeft_zero,
    ← Nat.shiftLeft_add_eq_or_of_lt hy, Nat.shiftLeft_eq]

theorem Node.word_leaf (x : Symbol) (w : Word) : (Node.leaf x w).word = BitVec.ofNat 32 (2 ^ 31 + x.toNat) :=
  place_or_place_zero (by decide) 1#1 x

theorem Node.word_int (w : Word) (l r : Nat) :
    (Node.int w l r).word = BitVec.ofNat 32 (l % 2 ^ 15 * 2 ^ 15 + r % 2 ^ 15) :=
  place_or_place_zero (by decide) (BitVec.ofNat 15 l) (BitVec.ofNat 15 r)

/-- Settles O28: the index names a leaf, names an internal node, or lies past the tree. -/
theorem nodeReadResult : Obligations.NodeReadResult := by
  intro idx s he hp
  rw [show exec (.nodeRead idx) s = _ from unlessBlocked_of_clear he _, if_neg hp]
  refine ⟨fun x w hleaf => ?_, fun w l r hint => ?_, fun hpast => ?_⟩
  · rw [hleaf, ← Node.word_leaf x w]
    rfl
  · rw [hint, ← Node.word_int w l r]
    rfl
  · rw [List.getElem?_eq_none hpast, ← State.raise_of_clear he]
    rfl

end Sys2Proof.Machine
end

section
/-! ### The code table: the frame of phase CODES and the two queries (43_code_table.md R144, R145, R148; O34, O35, O53) -/

namespace Sys2Proof.Machine

/-- In phase CODES a command other than CLEAR leaves the tables and PHASE (R148). -/
theorem Effect.sameTables_of_codes {i : Instr} {s t : State} (h : Effect s i t) (hp : s.phase = .codes) :
    SameTables s t ∨ i = .clear := by
  cases h with
  | ignored | raised | answered => exact .inl rfl
  | cleared => exact .inr rfl
  | tables _ _ _ w => exact absurd hp w.phase_ne_codes
  | sessions _ _ _ w => exact .inl w.sameTables

/-- Settles O53: of what a step can do in phase CODES, only CLEAR and the end of a reset write the tables. -/
theorem tablesPersist : Obligations.TablesPersist := by
  intro s t h hp
  rcases step_effect h with ⟨ht, _⟩ | ⟨hb, i, m, hd, heff, rfl⟩ | ⟨hr, _⟩
  · rw [ht]
    exact .inl ⟨rfl, rfl, rfl, rfl, hp⟩
  · rcases heff.sameTables_of_codes hp with hm | rfl
    · rw [hm]
      exact .inl ⟨rfl, rfl, rfl, rfl, hp⟩
    · exact .inr (.inl ⟨hb, hd⟩)
  · exact .inr (.inr hr)

/-- With distinct symbols, `Find` of entry i's symbol is i (R33, R144). -/
theorem find_of_nodup {freq : List FreqEntry} (hd : (freq.map FreqEntry.sym).Nodup) {i : Nat} {e : FreqEntry}
    (he : freq[i]? = some e) : find freq e.sym = some i := by
  cases hf : find freq e.sym with
  | none => exact absurd rfl (find_eq_none.mp hf e (List.mem_of_getElem? he))
  | some j =>
    obtain ⟨e', he', hsym, _⟩ := find_eq_some hf
    have hj : (freq.map FreqEntry.sym)[j]? = (freq.map FreqEntry.sym)[i]? := by simp [he, he', hsym]
    have hlt : j < (freq.map FreqEntry.sym).length := by simpa using (List.getElem?_eq_some_iff.mp he').1
    rw [(List.getElem?_inj hlt hd).mp hj]

/-- Settles O34: `Find` decides between the two answers. -/
theorem codeFindResult : Obligations.CodeFindResult := by
  intro s he hp
  have hexec (x : Symbol) : exec (.codeFind x) s = _ :=
    (unlessBlocked_of_clear he _).trans (if_neg (not_not_intro hp))
  refine ⟨fun x habsent => ?_, fun i e c hd hentry hc => ?_⟩
  · rw [hexec, find_eq_none.mpr habsent]
    rfl
  · rw [hexec, find_of_nodup hd hentry]
    simp only [hc]
    rfl

/-! The bits of a word of CODE_READ (20_memory.md R67). -/

theorem bitVal_le_one (b : Bool) : bitVal b ≤ 1 := by cases b <;> decide

theorem bitVal_mod_two (b : Bool) : bitVal b % 2 = 1 ↔ b = true := by cases b <;> decide

theorem bitsFrom_lt (hi : Nat) (bs : Bits) : bitsFrom hi bs < 2 ^ (hi + 1) := by
  induction bs generalizing hi with
  | nil => simp [bitsFrom]
  | cons b bs ih =>
    have hb := bitVal_le_one b
    cases hi with
    | zero => simp only [bitsFrom]; omega
    | succ hi =>
      have := ih hi
      have := Nat.mul_le_mul_right (2 ^ (hi + 1)) hb
      simp only [bitsFrom]
      omega

/-- Bit j of the list stands j places below the highest bit. -/
theorem testBit_bitsFrom {hi j : Nat} (hj : j ≤ hi) (bs : Bits) :
    (bitsFrom hi bs).testBit (hi - j) = bs.getD j false := by
  induction bs generalizing hi j with
  | nil => simp [bitsFrom]
  | cons b bs ih =>
    cases hi with
    | zero =>
      obtain rfl : j = 0 := by omega
      simp [bitsFrom, bitVal_mod_two]
    | succ hi =>
      rw [bitsFrom, Nat.mul_comm, Nat.testBit_two_pow_mul_add _ (bitsFrom_lt hi bs)]
      cases j with
      | zero => simp [bitVal_mod_two]
      | succ j =>
        rw [if_pos (by omega), show hi + 1 - (j + 1) = hi - j by omega, ih (by omega), List.getD_cons_succ]

/-- Bit 31 − j of word wi is bit 32·wi + j of the code, 0 past its end (R67, R145). -/
theorem getLsbD_codeWord (c : Bits) (wi : Nat) {j : Nat} (hj : j < 32) :
    (codeWord c wi).getLsbD (31 - j) = c.getD (32 * wi + j) false := by
  rw [codeWord, BitVec.getLsbD_ofNat, testBit_bitsFrom (by omega), decide_eq_true (by omega), Bool.true_and,
    List.getD_eq_getElem?_getD, List.getElem?_take_of_lt hj, List.getElem?_drop, List.getD_eq_getElem?_getD]

/-- In phase CODES with ERR = 0 and a code at the index, only the check of the word index is left of CODE_READ's (R145). -/
theorem exec_codeRead_of_code {s : State} {idx : Nat} {c : Bits} (he : s.err = .none) (hp : s.phase = .codes)
    (hc : s.code[idx]? = some c) :
    exec (.codeRead idx) s =
      if c.length ≤ 32 * s.parg.toNat then .next { s with err := .indexRange }
      else .next (s.setResults (codeWord c s.count) (BitVec.ofNat 32 c.length)) := by
  rw [show exec (.codeRead idx) s = _ from unlessBlocked_of_clear he _, if_neg (not_not_intro hp), hc,
    ← State.raise_of_clear he]
  rfl

/-- Settles O35: the leaf index is looked up before the word index is compared with the code's end. -/
theorem codeReadResult : Obligations.CodeReadResult := by
  intro idx s he hp
  refine ⟨fun hpast => ?_, fun c hc hend => ?_, fun c hc hin => ⟨codeWord c s.count, ?_, fun j hj => ?_⟩⟩
  · rw [show exec (.codeRead idx) s = _ from unlessBlocked_of_clear he _, if_neg (not_not_intro hp),
      List.getElem?_eq_none hpast, ← State.raise_of_clear he]
    rfl
  · rw [exec_codeRead_of_code he hp hc, if_pos hend]
  · rw [exec_codeRead_of_code he hp hc, if_neg (Nat.not_le.mpr hin)]
    rfl
  · exact getLsbD_codeWord c s.count hj

end Sys2Proof.Machine
end

section
/-! ### Paths in a tree: each node has exactly one from the root (10_state.md R35, R36, 43_code_table.md R141) -/

namespace Sys2Proof.Machine

theorem descend_append (nodes : List Node) (k : Nat) (p q : Bits) :
    descend nodes k (p ++ q) = (descend nodes k p).bind fun j => descend nodes j q := by
  induction p generalizing k with
  | nil => rfl
  | cons b bs ih =>
    simp only [List.cons_append, descend]
    split
    · exact ih _
    · rfl

/-- From a leaf only the empty path leads anywhere. -/
theorem descend_leaf {nodes : List Node} {k i : Nat} {x : Symbol} {w : Word} {p : Bits}
    (hk : nodes[k]? = some (.leaf x w)) (hp : descend nodes k p = some i) : p = [] := by
  cases p with
  | nil => rfl
  | cons b bs => simp [descend, hk] at hp

/-- The last bit of a path leads from an internal node to a child of it. -/
theorem descend_concat {nodes : List Node} {k i : Nat} {p : Bits} {b : Bool} (h : descend nodes k (p ++ [b]) = some i) :
    ∃ j w l r, descend nodes k p = some j ∧ nodes[j]? = some (.int w l r) ∧ i = if b then r else l := by
  rw [descend_append, Option.bind_eq_some_iff] at h
  obtain ⟨j, hj, h⟩ := h
  unfold descend at h
  split at h
  · cases h
    exact ⟨j, _, _, _, hj, ‹_›, rfl⟩
  · cases h

/-- Every bit of a path leads to a smaller index (R36). -/
theorem Layered.descend_add_length_le {freq : List FreqEntry} {nodes : List Node} (h : Layered freq nodes) {p : Bits}
    {k i : Nat} (hp : descend nodes k p = some i) : i + p.length ≤ k := by
  induction p generalizing k with
  | nil =>
    cases hp
    exact Nat.le_refl _
  | cons b bs ih =>
    unfold descend at hp
    split at hp
    · rename_i w l r hk
      obtain ⟨_, hl, hr⟩ := h.children_lt hk
      have := ih hp
      rw [List.length_cons]
      split at this <;> omega
    · cases hp

section
variable {freq : List FreqEntry} {nodes : List Node} {root : Option Nat}

/-- With at least one leaf, the root is the last node (R35). -/
theorem TreeOf.root_eq (h : TreeOf freq nodes root) (hn : 1 ≤ freq.length) :
    ∃ r, root = some r ∧ r + 1 = nodes.length := by
  obtain ⟨hlen, hroot, _⟩ := h
  rw [nodeCount, if_neg (by omega)] at hlen
  rw [rootIndex, if_neg (by omega)] at hroot
  exact ⟨_, hroot, by omega⟩

/-- Every node but the root is a child (R36). -/
theorem TreeOf.exists_parent (h : TreeOf freq nodes root) {k : Nat} (hk : k < nodes.length) (hr : root ≠ some k) :
    ∃ (j : Nat) (w : Word) (l r : Nat), nodes[j]? = some (.int w l r) ∧ (k = l ∨ k = r) := by
  obtain ⟨_, _, _, _, hcount⟩ := h
  apply mem_childIndices
  rw [← List.count_pos_iff, hcount k hk, if_neg hr]
  exact Nat.one_pos

/-- No node is a child twice (R36). -/
theorem TreeOf.nodup_childIndices (h : TreeOf freq nodes root) : (childIndices nodes).Nodup := by
  have hlay := h.layered
  obtain ⟨_, _, _, _, hcount⟩ := h
  refine List.nodup_iff_count_le_one.mpr fun k => ?_
  by_cases hmem : k ∈ childIndices nodes
  · obtain ⟨j, w, l, r, hj, hkj⟩ := mem_childIndices hmem
    have hlt := (List.getElem?_eq_some_iff.mp hj).1
    obtain ⟨_, hl, hr⟩ := hlay.children_lt hj
    rw [hcount k (by omega)]
    split <;> omega
  · simp [List.count_eq_zero_of_not_mem hmem]

/-- A node is a child of one node only, and on one side of it (R36). -/
theorem TreeOf.parent_unique (h : TreeOf freq nodes root) {j j' l r l' r' : Nat} {w w' : Word} {b b' : Bool}
    (hj : nodes[j]? = some (.int w l r)) (hj' : nodes[j']? = some (.int w' l' r'))
    (hk : (if b then r else l) = if b' then r' else l') : j = j' ∧ b = b' := by
  obtain ⟨hsides, hapart⟩ := List.nodup_flatMap.mp h.nodup_childIndices
  have hmem (c : Bool) (l r : Nat) : (if c then r else l) ∈ [l, r] := by cases c <;> simp
  obtain ⟨hlt, hget⟩ := List.getElem?_eq_some_iff.mp hj
  obtain ⟨hlt', hget'⟩ := List.getElem?_eq_some_iff.mp hj'
  rcases Nat.lt_trichotomy j j' with hjj | rfl | hjj
  · have hd := List.pairwise_iff_getElem.mp hapart j j' hlt hlt' hjj
    simp only [Function.onFun, hget, hget'] at hd
    exact (hd (hmem b l r) (hk ▸ hmem b' l' r')).elim
  · have hlr := hsides _ (List.mem_of_getElem? hj)
    rw [hj] at hj'
    cases hj'
    cases b <;> cases b' <;> simp_all
  · have hd := List.pairwise_iff_getElem.mp hapart j' j hlt' hlt hjj
    simp only [Function.onFun, hget, hget'] at hd
    exact (hd (hmem b' l' r') (hk ▸ hmem b l r)).elim

/-- Every node is reached from the root: its parent has a larger index. -/
theorem TreeOf.exists_path (h : TreeOf freq nodes root) {r k : Nat} (hr : root = some r) (hk : k < nodes.length) :
    ∃ p, descend nodes r p = some k := by
  induction hd : nodes.length - k using Nat.strong_induction_on generalizing k with
  | _ d ih =>
    by_cases hkr : r = k
    · exact ⟨[], congrArg some hkr⟩
    · obtain ⟨j, w, l, r', hj, hchild⟩ := h.exists_parent hk (by simpa [hr] using hkr)
      have hlt := (List.getElem?_eq_some_iff.mp hj).1
      obtain ⟨_, hlj, hrj⟩ := h.layered.children_lt hj
      obtain ⟨p, hp⟩ := ih (nodes.length - j) (by omega) hlt rfl
      rcases hchild with rfl | rfl
      · exact ⟨p ++ [false], by simp [descend_append, hp, descend, hj]⟩
      · exact ⟨p ++ [true], by simp [descend_append, hp, descend, hj]⟩

/-- Two paths from the root to one node are the same path: their last bits leave the same parent on the same side. -/
theorem TreeOf.path_unique (h : TreeOf freq nodes root) {r i : Nat} {p q : Bits} (hp : descend nodes r p = some i)
    (hq : descend nodes r q = some i) : p = q := by
  induction p using List.reverseRecOn generalizing q i with
  | nil =>
    cases hp
    have := h.layered.descend_add_length_le hq
    exact (List.length_eq_zero_iff.mp (by omega)).symm
  | append_singleton p b ih =>
    rcases List.eq_nil_or_concat' q with rfl | ⟨q, b', rfl⟩
    · cases hq
      have := h.layered.descend_add_length_le hp
      simp at this
    · obtain ⟨j, _, _, _, hpj, hj, hi⟩ := descend_concat hp
      obtain ⟨j', _, _, _, hqj, hj', hi'⟩ := descend_concat hq
      obtain ⟨rfl, rfl⟩ := h.parent_unique hj hj' (hi.symm.trans hi')
      rw [ih hpj hqj]

end

end Sys2Proof.Machine
end

section
/-! ### GEN: the walk finds every leaf (43_code_table.md R140 to R142; O29, O30) -/

namespace Sys2Proof.Machine

/-- In a tree the walk ends before its fuel does (R36, R141). -/
theorem Layered.walkCodes_completes {freq : List FreqEntry} {nodes : List Node} (h : Layered freq nodes) {fuel k : Nat}
    (hf : k < fuel) (hk : k < nodes.length) (s : Bits) : ∃ found, walkCodes fuel nodes k s = some found := by
  induction fuel generalizing k s with
  | zero => omega
  | succ fuel ih =>
    cases hnode : nodes[k]? with
    | none => exact absurd (List.getElem?_eq_none_iff.mp hnode) (by omega)
    | some nd =>
      cases nd with
      | leaf x w => exact ⟨[(k, s)], by simp only [walkCodes, hnode]⟩
      | int w l r =>
        obtain ⟨_, hl, hr⟩ := h.children_lt hnode
        obtain ⟨ls, hls⟩ := ih (by omega) (by omega) (s ++ [false]) (k := l)
        obtain ⟨rs, hrs⟩ := ih (by omega) (by omega) (s ++ [true]) (k := r)
        exact ⟨ls ++ rs, by simp only [walkCodes, hnode, hls, hrs]⟩

/-- `Walk(k, s)` of R141 as a relation: the leaves below node k with their codes. -/
inductive TreeWalk (nodes : List Node) : Nat → Bits → List (Nat × Bits) → Prop where
  | leaf (k s x w) : nodes[k]? = some (.leaf x w) → TreeWalk nodes k s [(k, s)]
  | int (k s w l r ls rs) : nodes[k]? = some (.int w l r) → TreeWalk nodes l (s ++ [false]) ls →
      TreeWalk nodes r (s ++ [true]) rs → TreeWalk nodes k s (ls ++ rs)

/-- A walk that does not run out of fuel is a walk of R141. -/
theorem treeWalk_of_walkCodes {fuel : Nat} {nodes : List Node} {k : Nat} {s : Bits} {found : List (Nat × Bits)}
    (h : walkCodes fuel nodes k s = some found) : TreeWalk nodes k s found := by
  induction fuel generalizing k s found with
  | zero => cases h
  | succ fuel ih =>
    unfold walkCodes at h
    split at h
    · cases h
    · cases h
      exact .leaf _ _ _ _ ‹_›
    · split at h
      · cases h
      · rename_i hl
        split at h
        · cases h
        · rename_i hr
          cases h
          exact .int _ _ _ _ _ _ _ ‹_› (ih hl) (ih hr)

/-- The walk finds every leaf a path leads to, with that path as its code (R141). -/
theorem TreeWalk.mem {nodes : List Node} {k i : Nat} {s p : Bits} {found : List (Nat × Bits)} {x : Symbol} {w : Word}
    (h : TreeWalk nodes k s found) (hp : descend nodes k p = some i) (hi : nodes[i]? = some (.leaf x w)) :
    (i, s ++ p) ∈ found := by
  induction h generalizing p with
  | leaf k s _ _ hk =>
    obtain rfl := descend_leaf hk hp
    cases hp
    simp
  | int k s _ l r ls rs hk _ _ ihl ihr =>
    cases p with
    | nil =>
      cases hp
      rw [hk] at hi
      cases hi
    | cons b bs =>
      rw [descend_int hk] at hp
      cases b with
      | false => exact List.mem_append_left _ (by simpa using ihl hp)
      | true => exact List.mem_append_right _ (by simpa using ihr hp)

theorem codeOf_of_mem {found : List (Nat × Bits)} {i : Nat} {c : Bits} (h : (i, c) ∈ found) :
    ∃ d, codeOf found i = some d := by
  unfold codeOf
  split
  · rename_i hnone
    exact (List.find?_eq_none.mp hnone _ h (beq_self_eq_true i)).elim
  · exact ⟨_, rfl⟩

theorem allSome_completes {os : List (Option Bits)} (h : ∀ o ∈ os, ∃ c, o = some c) : ∃ cs, allSome os = some cs := by
  induction os with
  | nil => exact ⟨[], rfl⟩
  | cons o os ih =>
    obtain ⟨⟨c, rfl⟩, hos⟩ := List.forall_mem_cons.mp h
    obtain ⟨cs, hcs⟩ := ih hos
    exact ⟨c :: cs, by simp only [allSome, hcs]⟩

section
variable {freq : List FreqEntry} {nodes : List Node} {root : Option Nat}

/-- Every leaf of a tree gets a code (R140). -/
theorem TreeOf.treeCodes_completes (h : TreeOf freq nodes root) (hn : 1 ≤ freq.length) :
    ∃ cs, treeCodes nodes root freq.length = some cs := by
  obtain ⟨r, hr, hlast⟩ := h.root_eq hn
  obtain ⟨found, hfound⟩ := h.layered.walkCodes_completes (by omega) (by omega) [] (fuel := nodes.length) (k := r)
  have hall : ∀ o ∈ (List.range freq.length).map (codeOf found), ∃ c, o = some c := by
    intro o ho
    obtain ⟨i, hi, rfl⟩ := List.mem_map.mp ho
    have hi : i < freq.length := List.mem_range.mp hi
    obtain ⟨p, hp⟩ := h.exists_path hr (hi.trans_le h.layered.length_le)
    exact codeOf_of_mem ((treeWalk_of_walkCodes hfound).mem hp (h.layered.leaf hi))
  obtain ⟨cs, hcs⟩ := allSome_completes hall
  exact ⟨cs, by simp only [treeCodes, hr, hfound, hcs]⟩

/-- GEN has codes for every tree, one with no leaf included (R140, R142). -/
theorem TreeOf.genCodes_completes (h : TreeOf freq nodes root) : ∃ cs, genCodes nodes root freq.length = some cs := by
  unfold genCodes
  split
  · exact ⟨_, rfl⟩
  · split
    · exact ⟨_, rfl⟩
    · exact h.treeCodes_completes (by omega)

end

/-- In phase TREE with ERR = 0, GEN writes what `genCodes` makes of the tree (R140). -/
theorem exec_gen_of_codes {s : State} {cs : List Bits} (he : s.err = .none) (hp : s.phase = .tree)
    (hg : genCodes s.node s.root s.freq.length = some cs) : exec .gen s = .next (s.setCodes cs) := by
  rw [show exec .gen s = _ from unlessBlocked_of_clear he _, if_neg (not_not_intro hp), hg]

/-- Settles O29: every leaf is reached from the root, so the walk finds a code for it. -/
theorem genMakesCodes : Obligations.GenMakesCodes := by
  intro s he hp ht
  obtain ⟨cs, hcs⟩ := ht.genCodes_completes
  exact ⟨cs, exec_gen_of_codes he hp hcs, genCodes_codesOk ht hcs⟩

/-- Settles O30: with fewer than two leaves GEN walks no tree. -/
theorem genEdgeCases : Obligations.GenEdgeCases := by
  intro s he hp
  refine ⟨fun hf => ?_, fun e hf => ?_⟩
  · exact exec_gen_of_codes he hp (by rw [hf]; rfl)
  · exact exec_gen_of_codes he hp (by rw [hf]; rfl)

end Sys2Proof.Machine
end

section
/-! ### The code table in phase CODES (43_code_table.md R143, R146, R147; O31, O32, O33) -/

namespace Sys2Proof.Machine

theorem codesOk_iff_of_le_one {n : Nat} {nodes : List Node} {root : Option Nat} {code : List Bits} (hn : n ≤ 1) :
    codesOk n nodes root code = true ↔ code = List.replicate n [false] := by
  simp [codesOk, hn]

theorem codesOk_length {n : Nat} {nodes : List Node} {root : Option Nat} {code : List Bits}
    (h : codesOk n nodes root code = true) : code.length = n := by
  rcases Nat.lt_or_ge n 2 with hn | hn
  · rw [(codesOk_iff_of_le_one (by omega)).mp h, List.length_replicate]
  · obtain ⟨_, _, hlen, _⟩ := (codesOk_iff hn).mp h
    exact hlen

section
variable {freq : List FreqEntry} {nodes : List Node} {root : Option Nat} {code : List Bits}

/-- A code that another starts with is the same leaf's: from a leaf no path goes on (R146). -/
theorem TreeOf.eq_of_prefix (ht : TreeOf freq nodes root) (h : codesOk freq.length nodes root code = true) {i j : Nat}
    {c d : Bits} (hc : code[i]? = some c) (hd : code[j]? = some d) (hcd : c <+: d) : i = j := by
  have hlen := codesOk_length h
  have hi := (List.getElem?_eq_some_iff.mp hc).1
  have hj := (List.getElem?_eq_some_iff.mp hd).1
  rcases Nat.lt_or_ge freq.length 2 with hn | hn
  · omega
  · obtain ⟨r, _, _, hpath⟩ := (codesOk_iff hn).mp h
    obtain ⟨_, _, hpc⟩ := hpath i c hc
    obtain ⟨_, _, hpd⟩ := hpath j d hd
    obtain ⟨e, rfl⟩ := hcd
    have hrest : descend nodes i e = some j := by simpa [descend_append, hpc] using hpd
    obtain rfl := descend_leaf (ht.layered.leaf (hlen ▸ hi)) hrest
    exact Option.some.inj hrest

/-- The codes are distinct (R147). -/
theorem TreeOf.nodup_codes (ht : TreeOf freq nodes root) (h : codesOk freq.length nodes root code = true) :
    code.Nodup := by
  refine List.nodup_iff_getElem?_ne_getElem?.mpr fun i j hij hj he => ?_
  have hc := List.getElem?_eq_getElem (hij.trans hj)
  exact hij.ne (ht.eq_of_prefix h hc (he ▸ hc) (List.prefix_refl _))

end

/-- In phase CODES the state holds a tree and its codes. -/
theorem SpecInv.codes {s : State} (h : SpecInv s) (hp : s.phase = .codes) :
    TreeOf s.freq s.node s.root ∧ codesOk s.freq.length s.node s.root s.code = true :=
  ⟨h.tree.2 (by simp [hp]), h.code.2 hp⟩

/-- Settles O31: codes are paths to leaves, and no path goes on from a leaf. -/
theorem codesPrefixFree : Obligations.CodesPrefixFree := by
  intro s hs hp i j c d hij hc hd hcd
  obtain ⟨ht, hcodes⟩ := hs.codes hp
  exact hij (ht.eq_of_prefix hcodes hc hd hcd)

/-- A symbol's code is the code of its entry (R147). -/
theorem codeOfSymbol_of_find {freq : List FreqEntry} {code : List Bits} {x : Symbol} {i : Nat} {c : Bits}
    (hx : find freq x = some i) (hc : code[i]? = some c) : codeOfSymbol freq code x = c := by
  unfold find at hx
  simp [codeOfSymbol, hx, hc]

/-- Where codes are distinct, the inverse of entry i's code is entry i's symbol (R147). -/
theorem inverse_of_getElem? {freq : List FreqEntry} {code : List Bits}
    (hdistinct : ∀ (i j : Nat) (c : Bits), code[i]? = some c → code[j]? = some c → i = j) {i : Nat} {c : Bits}
    {e : FreqEntry} (hc : code[i]? = some c) (he : freq[i]? = some e) : inverse freq code c = some e.sym := by
  unfold inverse
  split
  · rename_i hnone
    cases (beq_self_eq_true c).symm.trans (List.findIdx?_eq_none_iff.mp hnone c (List.mem_of_getElem? hc))
  · rename_i j hj
    obtain ⟨hlt, hjc, _⟩ := List.findIdx?_eq_some_iff_getElem.mp hj
    have hj' : code[j]? = some c := by rw [List.getElem?_eq_getElem hlt, eq_of_beq hjc]
    rw [hdistinct j i c hj' hc, he]
    rfl

/-- Settles O32: a code starts with itself, so it is one leaf's only, and the inverse undoes the lookup where codes
are distinct. -/
theorem codeTableBijection : Obligations.CodeTableBijection := by
  intro s hs hp
  obtain ⟨ht, hcodes⟩ := hs.codes hp
  have hdistinct (i j : Nat) (c : Bits) (hi : s.code[i]? = some c) (hj : s.code[j]? = some c) : i = j :=
    ht.eq_of_prefix hcodes hi hj (List.prefix_refl c)
  refine ⟨hdistinct, fun e hmem => ?_⟩
  obtain ⟨i, hfind⟩ := Option.isSome_iff_exists.mp (find_isSome_iff.mpr ⟨e, hmem, rfl⟩)
  obtain ⟨e', he', hsym, _⟩ := find_eq_some hfind
  have hlt : i < s.code.length := by
    rw [codesOk_length hcodes]
    exact (List.getElem?_eq_some_iff.mp he').1
  have hc := List.getElem?_eq_getElem hlt
  rw [codeOfSymbol_of_find hfind hc, inverse_of_getElem? hdistinct hc he', hsym]

/-! Kraft's equality (R143): the walk's codes, which are CODE in another order, share out the weight of their start. -/

/-- The share 2^(−length) of a code. -/
def kraftShare (c : Bits) : ℚ := (1 / 2 : ℚ) ^ c.length

theorem kraftShare_append_bit (c : Bits) (b : Bool) : kraftShare (c ++ [b]) = kraftShare c / 2 := by
  simp [kraftShare, pow_succ, div_eq_mul_inv]

section
variable {nodes : List Node} {k : Nat} {s : Bits} {found : List (Nat × Bits)}

/-- The codes below a node share out what the node's own path has. -/
theorem TreeWalk.kraft (h : TreeWalk nodes k s found) : ((found.map Prod.snd).map kraftShare).sum = kraftShare s := by
  induction h with
  | leaf => simp
  | int _ s _ _ _ ls rs _ _ _ ihl ihr =>
    rw [List.map_append, List.map_append, List.sum_append, ihl, ihr, kraftShare_append_bit, kraftShare_append_bit,
      add_halves]

/-- The walk finds leaves only. -/
theorem TreeWalk.leaf_of_mem (h : TreeWalk nodes k s found) {f : Nat × Bits} (hf : f ∈ found) :
    ∃ x w, nodes[f.1]? = some (.leaf x w) := by
  induction h with
  | leaf k s x w hk =>
    rw [List.mem_singleton.mp hf]
    exact ⟨x, w, hk⟩
  | int _ _ _ _ _ _ _ _ _ _ ihl ihr => exact (List.mem_append.mp hf).elim ihl ihr

/-- Every code below a node starts with the node's own path. -/
theorem TreeWalk.isPrefix_of_mem (h : TreeWalk nodes k s found) {c : Bits} (hc : c ∈ found.map Prod.snd) : s <+: c := by
  induction h with
  | leaf k s => rw [List.mem_singleton.mp hc]
  | int k s _ _ _ _ _ _ _ _ ihl ihr =>
    rw [List.map_append] at hc
    rcases List.mem_append.mp hc with hc | hc
    · exact (List.prefix_append s [false]).trans (ihl hc)
    · exact (List.prefix_append s [true]).trans (ihr hc)

/-- No code occurs twice: those on the left go on with 0, those on the right with 1. -/
theorem TreeWalk.nodup (h : TreeWalk nodes k s found) : (found.map Prod.snd).Nodup := by
  induction h with
  | leaf => simp
  | int k s _ _ _ _ _ _ hl hr ihl ihr =>
    rw [List.map_append]
    refine ihl.append ihr fun c hcl hcr => ?_
    obtain ⟨u, rfl⟩ := hl.isPrefix_of_mem hcl
    obtain ⟨v, hv⟩ := hr.isPrefix_of_mem hcr
    simp at hv

end

section
variable {freq : List FreqEntry} {nodes : List Node} {root : Option Nat} {code : List Bits}

/-- A leaf's index is one of the first (R34). -/
theorem TreeOf.leaf_lt (h : TreeOf freq nodes root) {i : Nat} {x : Symbol} {w : Word}
    (hi : nodes[i]? = some (.leaf x w)) : i < freq.length := by
  by_contra hge
  have hinner := h.layered.inner i (List.getElem?_eq_some_iff.mp hi).1 (by omega)
  simp [innerOk, hi] at hinner

/-- With at least two leaves CODE holds exactly the walk's codes: both are the paths to the leaves, and a leaf has only
one. -/
theorem TreeOf.codes_perm_walk (ht : TreeOf freq nodes root) (h : codesOk freq.length nodes root code = true)
    (hn : 2 ≤ freq.length) :
    ∃ r found, TreeWalk nodes r [] found ∧ code.Perm (found.map Prod.snd) := by
  obtain ⟨r, hr, hlen, hpath⟩ := (codesOk_iff hn).mp h
  obtain ⟨r', hr', hlast⟩ := ht.root_eq (by omega)
  obtain rfl : r = r' := by simpa [hr] using hr'
  obtain ⟨found, hfound⟩ := ht.layered.walkCodes_completes (by omega) (by omega) [] (fuel := nodes.length) (k := r)
  have hwalk := treeWalk_of_walkCodes hfound
  refine ⟨r, found, hwalk, (List.perm_ext_iff_of_nodup (ht.nodup_codes h) hwalk.nodup).mpr fun c => ?_⟩
  constructor
  · intro hc
    obtain ⟨i, hi⟩ := List.mem_iff_getElem?.mp hc
    obtain ⟨_, _, hp⟩ := hpath i c hi
    have hlt : i < freq.length := hlen ▸ (List.getElem?_eq_some_iff.mp hi).1
    exact List.mem_map.mpr ⟨(i, c), hwalk.mem hp (ht.layered.leaf hlt), rfl⟩
  · intro hc
    obtain ⟨⟨i, d⟩, hmem, rfl⟩ := List.mem_map.mp hc
    obtain ⟨x, w, hleaf⟩ := hwalk.leaf_of_mem hmem
    obtain ⟨p, rfl, hp⟩ := walkCodes_descend hfound hmem
    obtain ⟨c, hi⟩ : ∃ c, code[i]? = some c := ⟨_, List.getElem?_eq_getElem (hlen ▸ ht.leaf_lt hleaf)⟩
    obtain ⟨_, _, hpc⟩ := hpath i c hi
    exact ht.path_unique hpc hp ▸ List.mem_of_getElem? hi

/-- Kraft's equality for the codes of a tree (R143). -/
theorem TreeOf.kraft (ht : TreeOf freq nodes root) (h : codesOk freq.length nodes root code = true)
    (hn : 2 ≤ freq.length) : (code.map kraftShare).sum = 1 := by
  obtain ⟨r, found, hwalk, hperm⟩ := ht.codes_perm_walk h hn
  calc (code.map kraftShare).sum = ((found.map Prod.snd).map kraftShare).sum := (hperm.map kraftShare).sum_eq
    _ = kraftShare [] := hwalk.kraft
    _ = 1 := pow_zero _

end

/-- With at least two leaves the code lengths are within R143's bounds. -/
theorem codesOk_bounds {n : Nat} {nodes : List Node} {root : Option Nat} {code : List Bits}
    (h : codesOk n nodes root code = true) (hn : 2 ≤ n) {c : Bits} (hc : c ∈ code) : 1 ≤ c.length ∧ c.length ≤ n - 1 := by
  obtain ⟨_, _, _, hpath⟩ := (codesOk_iff hn).mp h
  obtain ⟨i, hi⟩ := List.mem_iff_getElem?.mp hc
  obtain ⟨hlow, hhigh, _⟩ := hpath i c hi
  exact ⟨hlow, hhigh⟩

/-- With at most one leaf a code has one bit (R142). -/
theorem codesOk_length_eq_one {n : Nat} {nodes : List Node} {root : Option Nat} {code : List Bits}
    (h : codesOk n nodes root code = true) (hn : n ≤ 1) {c : Bits} (hc : c ∈ code) : c.length = 1 := by
  rw [(codesOk_iff_of_le_one hn).mp h] at hc
  rw [List.eq_of_mem_replicate hc]
  rfl

/-- Settles O33: a single code has one bit, and the codes of a larger tree share out the weight of the empty path. -/
theorem kraftEquality : Obligations.KraftEquality := by
  intro s hs hp
  obtain ⟨ht, hcodes⟩ := hs.codes hp
  obtain ⟨hcap, _⟩ := hs.memory
  refine ⟨fun hn c hc => ?_, fun hn => ⟨fun c hc => ?_, ?_⟩, fun c hc => ?_⟩
  · exact codesOk_length_eq_one hcodes hn.le hc
  · exact codesOk_bounds hcodes hn hc
  · exact ht.kraft hcodes hn
  · rw [Params.codeMaxLen]
    rcases Nat.lt_or_ge s.freq.length 2 with hn | hn
    · have := codesOk_length_eq_one hcodes (by omega) hc
      omega
    · have := codesOk_bounds hcodes hn hc
      omega

end Sys2Proof.Machine
end

section
/-! ### The encode session (44_encoder.md R160 to R169; O36 to O40) -/

namespace Sys2Proof.Machine

/-! Opening a session (R160, R180). -/

/-- Settles O36: in phase CODES neither check of the two commands fails. -/
theorem sessionStartResult : Obligations.SessionStartResult := fun _ he hp =>
  ⟨(unlessBlocked_of_clear he _).trans (if_neg (not_not_intro hp)),
    (unlessBlocked_of_clear he _).trans (if_neg (not_not_intro hp))⟩

/-! ENC_SYM (R161 to R163). -/

/-- A symbol with a code is left with the capacity check alone (R161, R163). -/
theorem exec_encSym_of_code {s : State} {x : Symbol} {i : Nat} {c : Bits} (he : s.err = .none)
    (ha : s.encActive = true) (hx : find s.freq x = some i) (hc : s.code[i]? = some c) :
    exec (.encSym x) s =
      if s.cfg.outBytes < payloadBytes (s.ebits.length + c.length) then .next { s with err := .outOverflow }
      else .next (s.appendBits c) := by
  rw [show exec (.encSym x) s = _ from unlessBlocked_of_clear he _, if_neg (by simp [ha]), hx,
    ← State.raise_of_clear he]
  simp only [hc]
  rfl

/-- Settles O37: `Find` decides whether the symbol has a code, and the code's length whether it fits. -/
theorem encSymResult : Obligations.EncSymResult := by
  intro s he ha
  refine ⟨fun x habsent => ?_, fun i e c hd hentry hc => ⟨fun hfull => ?_, fun hfits => ?_⟩⟩
  · rw [show exec (.encSym x) s = _ from unlessBlocked_of_clear he _, if_neg (by simp [ha]),
      find_eq_none.mpr habsent, ← State.raise_of_clear he]
    rfl
  · exact (exec_encSym_of_code he ha (find_of_nodup hd hentry) hc).trans (if_pos hfull)
  · exact (exec_encSym_of_code he ha (find_of_nodup hd hentry) hc).trans (if_neg (Nat.not_lt.mpr hfits))

/-! ENC_FINISH (R164 to R168): what `pack` packs, `unpack` finds again (R65). -/

theorem unpackByte_ofNat_bits (b7 b6 b5 b4 b3 b2 b1 b0 : Bool) :
    unpackByte (BitVec.ofNat 8 (bitVal b7 * 128 + bitVal b6 * 64 + bitVal b5 * 32 + bitVal b4 * 16 + bitVal b3 * 8 +
      bitVal b2 * 4 + bitVal b1 * 2 + bitVal b0)) = [b7, b6, b5, b4, b3, b2, b1, b0] := by
  decide +revert

/-- `unpack` undoes `pack` on whole bytes (R65). -/
theorem unpack_pack (k : Nat) (bits : Bits) (h : bits.length = 8 * k) : unpack (pack bits) = bits := by
  induction k generalizing bits with
  | zero =>
    rw [List.length_eq_zero_iff.mp h]
    rfl
  | succ k ih =>
    match bits, h with
    | b7 :: b6 :: b5 :: b4 :: b3 :: b2 :: b1 :: b0 :: rest, h =>
      have hrest : unpack (pack rest) = rest := ih rest (by simp at h; omega)
      unfold unpack at hrest ⊢
      rw [pack, List.flatMap_cons, unpackByte_ofNat_bits, hrest]
      rfl

/-- The padding fills the last byte (R164). -/
theorem length_append_padding (bits : Bits) :
    (bits ++ List.replicate (padding bits.length) false).length = 8 * (bits.length / 8 + 1) := by
  simp only [List.length_append, List.length_replicate, padding]
  omega

theorem payload_of_ne_nil {bits : Bits} (h : bits ≠ []) :
    payload bits =
      BitVec.ofNat 8 (padding bits.length) :: pack (bits ++ List.replicate (padding bits.length) false) :=
  if_neg (mt List.length_eq_zero_iff.mp h)

theorem exec_encFinish_of_active {s : State} (he : s.err = .none) (ha : s.encActive = true) :
    exec .encFinish s = .next (s.closeEnc (payload s.ebits)) :=
  (unlessBlocked_of_clear he _).trans (if_neg (by simp [ha]))

/-- Settles O38: the padded bits are whole bytes, so packing loses nothing. -/
theorem encFinishResult : Obligations.EncFinishResult := by
  intro s he ha
  rw [exec_encFinish_of_active he ha]
  refine ⟨fun hempty => ?_, fun hbits => ?_⟩
  · rw [show payload s.ebits = [] from congrArg payload hempty]
    rfl
  · have hwhole := length_append_padding s.ebits
    rw [payload_of_ne_nil hbits]
    refine ⟨_, rfl, unpack_pack _ _ hwhole, ?_⟩
    rw [pack_length _ _ hwhole]

/-! OUT_READ (R167). -/

/-- Settles O39: the index either names a byte of the payload or lies past it. -/
theorem outReadResult : Obligations.OutReadResult := by
  intro idx s he hd
  rw [show exec (.outRead idx) s = _ from unlessBlocked_of_clear he _, if_neg (by simp [hd])]
  refine ⟨fun b hbyte => ?_, fun hpast => ?_⟩
  · rw [hbyte, BitVec.ofNat_toNat]
    rfl
  · rw [List.getElem?_eq_none hpast, ← State.raise_of_clear he]
    rfl

/-! The bits of a whole session (R161, R169). -/

/-- A run of commands is a run of the first, then of the others. -/
theorem runAll_cons_eq_next_iff {i : Instr} {is : List Instr} {s t : State} :
    runAll (i :: is) s = .next t ↔ ∃ m, exec i s = .next m ∧ runAll is m = .next t := by
  rw [runAll]
  cases exec i s <;> simp

theorem State.raise_err_ne_none (s : State) {e : ErrCode} (he : e ≠ .none) : (s.raise e).err ≠ .none := by
  rw [State.raise_err]
  split
  · exact he
  · assumption

/-- A rule that ends with ERR = 0 has passed its check. -/
theorem passed_of_no_error {s t : State} {c : Prop} [Decidable c] {e : ErrCode} {r : Result} (he : e ≠ .none)
    (h : (if c then raise s e else r) = .next t) (ht : t.err = .none) : ¬ c ∧ r = .next t := by
  split at h
  · cases h
    exact absurd ht (s.raise_err_ne_none he)
  · exact ⟨‹_›, h⟩

/-- An ENC_SYM that ends with ERR = 0 has appended the symbol's code (R161). -/
theorem exec_encSym_of_no_error {x : Symbol} {s t : State} (h : exec (.encSym x) s = .next t) (ht : t.err = .none) :
    t = s.appendBits (codeOfSymbol s.freq s.code x) := by
  obtain ⟨_, h⟩ | ⟨he, rfl⟩ := unlessBlocked_next h
  · obtain ⟨_, h⟩ := passed_of_no_error (by decide) h ht
    split at h
    · cases h
      exact absurd ht (s.raise_err_ne_none (by decide))
    · rename_i i hx
      split at h
      · cases h
      · rename_i c hc
        obtain ⟨_, h⟩ := passed_of_no_error (by decide) h ht
        cases h
        rw [codeOfSymbol_of_find hx hc]
  · exact absurd ht he

/-- ENC_SYMs that end with ERR = 0 have appended the symbols' codes one after another (R161). -/
theorem runAll_encSyms_of_no_error {text : List Symbol} {s t : State}
    (h : runAll (text.map .encSym) s = .next t) (ht : t.err = .none) :
    t = s.appendBits (text.flatMap (codeOfSymbol s.freq s.code)) := by
  induction text generalizing s with
  | nil =>
    cases h
    simp [State.appendBits]
  | cons x xs ih =>
    obtain ⟨m, hm, hrest⟩ := runAll_cons_eq_next_iff.mp h
    have htm := ih hrest
    have hms := exec_encSym_of_no_error hm (by rw [← ht, htm]; rfl)
    rw [htm, hms]
    simp [State.appendBits]

/-- Settles O40: the session starts with no bits, and every ENC_SYM appends its symbol's code. -/
theorem encodedBits : Obligations.EncodedBits := by
  intro text s t he hp h ht
  obtain ⟨m, hm, hsyms⟩ := runAll_cons_eq_next_iff.mp h
  rw [(sessionStartResult s he hp).1] at hm
  cases hm
  rw [runAll_encSyms_of_no_error hsyms ht]
  exact ⟨rfl, List.length_flatMap⟩

end Sys2Proof.Machine
end

section
/-! ### The two sessions do not touch each other (44_encoder.md R160 to R167, 45_decoder.md R180 to R187; O50) -/

namespace Sys2Proof.Machine

/-- The commands of the encoder (30_encoding.md R87). -/
def IsEncoderCommand (i : Instr) : Prop :=
  i = .encStart ∨ (∃ x, i = .encSym x) ∨ i = .encFinish ∨ ∃ k, i = .outRead k

/-- The commands of the decoder (R87). -/
def IsDecoderCommand (i : Instr) : Prop :=
  i = .decStart ∨ (∃ b, i = .decByte b) ∨ i = .decFinish ∨ ∃ k, i = .decRead k

/-- Only ERR, the encoder session and the results may differ. -/
def EncoderFrame (s t : State) : Prop :=
  t = { s with
    err := t.err, ebits := t.ebits, outbuf := t.outbuf, encActive := t.encActive, outDone := t.outDone
    res0 := t.res0, res1 := t.res1 }

/-- Only ERR, the decoder session and the results may differ. -/
def DecoderFrame (s t : State) : Prop :=
  t = { s with
    err := t.err, decActive := t.decActive, decDone := t.decDone, dhdr := t.dhdr, dp := t.dp
    dhold := t.dhold, dholdv := t.dholdv, ddead := t.ddead, dnode := t.dnode, decbuf := t.decbuf
    res0 := t.res0, res1 := t.res1 }

theorem SessionWrite.encoderFrame {i : Instr} {s t : State} (w : SessionWrite s i t) (hi : IsEncoderCommand i) :
    EncoderFrame s t := by
  cases w with
  | encStart | encSym | encFinish => rfl
  | errClear | decStart | header | hold | byteStopped | finish | finishHeld | finishStopped | trailing =>
    simp [IsEncoderCommand] at hi

theorem SessionWrite.decoderFrame {i : Instr} {s t : State} (w : SessionWrite s i t) (hi : IsDecoderCommand i) :
    DecoderFrame s t := by
  cases w with
  | errClear | encStart | encSym | encFinish => simp [IsDecoderCommand] at hi
  | decStart | header | finish => rfl
  | hold _ _ _ hw | byteStopped _ _ hw | finishHeld _ _ hw | finishStopped _ hw | trailing _ hw =>
    obtain ⟨e, d, k, b, rfl⟩ := hw.exists_eq
    rfl

theorem Effect.encoderFrame {i : Instr} {s t : State} (h : Effect s i t) (hi : IsEncoderCommand i) :
    EncoderFrame s t := by
  cases h with
  | ignored | raised | answered => rfl
  | cleared => simp [IsEncoderCommand] at hi
  | tables _ _ _ w => cases w <;> simp [IsEncoderCommand] at hi
  | sessions _ _ _ w => exact w.encoderFrame hi

theorem Effect.decoderFrame {i : Instr} {s t : State} (h : Effect s i t) (hi : IsDecoderCommand i) :
    DecoderFrame s t := by
  cases h with
  | ignored | raised | answered => rfl
  | cleared => simp [IsDecoderCommand] at hi
  | tables _ _ _ w => cases w <;> simp [IsDecoderCommand] at hi
  | sessions _ _ _ w => exact w.decoderFrame hi

/-- Settles O50: of a command's effects, those of the encoder write the encoder session and those of the decoder the
decoder session. -/
theorem sessionsIndependent : Obligations.SessionsIndependent := fun _ _ _ h =>
  ⟨(exec_effect h).encoderFrame, (exec_effect h).decoderFrame⟩

end Sys2Proof.Machine
end

section
/-! ### The walker step and the decoder's commands in an open session (45_decoder.md R180 to R188; O41, O42, O43) -/

namespace Sys2Proof.Machine

/-! The walker step, case by case (R183). -/

section
variable {b : Bool} {s : State}

theorem stepBit_of_dead (h : s.ddead = true) : stepBit b s = .go s :=
  if_pos h

theorem stepBit_of_noRoot (hd : s.ddead = false) (hr : s.root = none) : stepBit b s = .go s.markDead := by
  rw [stepBit, if_neg (by simp [hd]), hr]

theorem stepBit_of_leaf {r : Nat} {x : Symbol} {w : Word} (hd : s.ddead = false) (hr : s.root = some r)
    (hn : s.node[r]? = some (.leaf x w)) : stepBit b s = if b then .go s.markDead else emit x s := by
  simp only [stepBit, hd, hr, hn, Bool.false_eq_true, if_false]

theorem stepBit_of_int {r i j : Nat} {w : Word} (hd : s.ddead = false) (hr : s.root = some r)
    (hn : s.node[r]? = some (.int w i j)) : stepBit b s = stepInner b s := by
  simp only [stepBit, hd, hr, hn, Bool.false_eq_true, if_false]

theorem child_int {nodes : List Node} {k l r : Nat} {w : Word} (h : nodes[k]? = some (.int w l r)) :
    child nodes (some k) b = some (if b then r else l) := by
  simp only [child, h]

theorem stepInner_of_int {k i j : Nat} {w : Word} (hc : child s.node s.dnode b = some k)
    (hk : s.node[k]? = some (.int w i j)) : stepInner b s = .go (s.walkTo (some k)) := by
  simp only [stepInner, hc, hk]

theorem emit_of_full (x : Symbol) (h : s.decbuf.length = s.cfg.decSyms) : emit x s = .raised (s.raise .decOverflow) :=
  if_pos h

theorem emit_of_room (x : Symbol) (h : s.decbuf.length ≠ s.cfg.decSyms) : emit x s = .go (s.pushSymbol x) :=
  if_neg h

/-- `Emit` leaves the walker where it is (R184). -/
theorem emit_eq_andThen_walkTo (x : Symbol) (s : State) :
    emit x s = (emit x s).andThen fun t => .go (t.walkTo s.dnode) := by
  rcases emit_cases x s with ⟨_, he⟩ | ⟨_, he⟩ <;> rw [he] <;> rfl

/-- Reaching a leaf emits its symbol and goes back to the root. -/
theorem stepInner_of_leaf {k : Nat} {x : Symbol} {w : Word} (hc : child s.node s.dnode b = some k)
    (hk : s.node[k]? = some (.leaf x w)) : stepInner b s = (emit x s).andThen fun t => .go (t.walkTo s.root) := by
  simp only [stepInner, hc, hk]
  rcases emit_cases x s with ⟨_, he⟩ | ⟨_, he⟩ <;> rw [he] <;> rfl

end

/-- A bit that completes a leaf's code emits its symbol, and after that the walker only moves (R183). -/
theorem Completes.stepBit_eq {b : Bool} {s : State} {x : Symbol} (h : Completes b s x) :
    ∃ k, stepBit b s = (emit x s).andThen fun t => .go (t.walkTo k) := by
  obtain ⟨hd, r, hr, ⟨rfl, w, hn⟩ | ⟨⟨w, i, j, hn⟩, k, w', hc, hk⟩⟩ := h
  · exact ⟨s.dnode, (stepBit_of_leaf hd hr hn).trans (emit_eq_andThen_walkTo x s)⟩
  · exact ⟨s.root, (stepBit_of_int hd hr hn).trans (stepInner_of_leaf hc hk)⟩

/-- What a walker step can do: go on without a symbol, which leaves ERR, emit the symbol whose code the bit completes, or find
no tree (R183). -/
theorem stepBit_cases (b : Bool) (s : State) :
    (∃ t, stepBit b s = .go t ∧ t.err = s.err) ∨
      (∃ x k, Completes b s x ∧ stepBit b s = (emit x s).andThen fun t => .go (t.walkTo k)) ∨
      ∃ f, stepBit b s = .broken f := by
  have hemit (x : Symbol) (hx : Completes b s x) :
      ∃ x k, Completes b s x ∧ stepBit b s = (emit x s).andThen fun t => .go (t.walkTo k) :=
    hx.stepBit_eq.elim fun k hk => ⟨x, k, hx, hk⟩
  cases hd : s.ddead with
  | true => exact .inl ⟨_, stepBit_of_dead hd, rfl⟩
  | false =>
    cases hr : s.root with
    | none => exact .inl ⟨_, stepBit_of_noRoot hd hr, rfl⟩
    | some r =>
      cases hn : s.node[r]? with
      | none => exact .inr (.inr ⟨.malformedTree, by simp [stepBit, hd, hr, hn]⟩)
      | some nd =>
        cases nd with
        | leaf x w =>
          cases b with
          | true => exact .inl ⟨_, stepBit_of_leaf hd hr hn, rfl⟩
          | false => exact .inr (.inl (hemit x ⟨hd, r, hr, .inl ⟨rfl, w, hn⟩⟩))
        | int w i j =>
          rw [stepBit_of_int hd hr hn] at hemit ⊢
          cases hc : child s.node s.dnode b with
          | none => exact .inr (.inr ⟨.malformedTree, by simp [stepInner, hc]⟩)
          | some k =>
            cases hk : s.node[k]? with
            | none => exact .inr (.inr ⟨.malformedTree, by simp [stepInner, hc, hk]⟩)
            | some nd =>
              cases nd with
              | leaf x w' => exact .inr (.inl (hemit x ⟨hd, r, hr, .inr ⟨⟨w, i, j, hn⟩, k, w', hc, hk⟩⟩))
              | int w' i' j' => exact .inl ⟨_, stepInner_of_int hc hk, rfl⟩

/-- A step that goes on leaves ERR. -/
theorem stepBit_go_err {b : Bool} {s t : State} (h : stepBit b s = .go t) : t.err = s.err := by
  rcases stepBit_cases b s with ⟨m, hstep, hm⟩ | ⟨x, k, _, hstep⟩ | ⟨f, hstep⟩ <;> rw [hstep] at h
  · cases h
    exact hm
  · rcases emit_cases x s with ⟨_, he⟩ | ⟨_, he⟩ <;> rw [he] at h <;> cases h
    rfl
  · cases h

theorem walkBits_go_err {bs : Bits} {s t : State} (h : walkBits bs s = .go t) : t.err = s.err := by
  induction bs generalizing s with
  | nil =>
    cases h
    rfl
  | cons b bs ih =>
    obtain ⟨m, hm, hrest⟩ := Flow.andThen_eq_go h
    exact (ih hrest).trans (stepBit_go_err hm)

/-- A step raises only at a bit that completes a code, with DECBUF full, and changes only ERR (R184). -/
theorem stepBit_raised {b : Bool} {s t : State} (h : stepBit b s = .raised t) :
    ∃ x, Completes b s x ∧ s.decbuf.length = s.cfg.decSyms ∧ t = s.raise .decOverflow := by
  rcases stepBit_cases b s with ⟨m, hstep, _⟩ | ⟨x, k, hx, hstep⟩ | ⟨f, hstep⟩ <;> rw [hstep] at h
  · cases h
  · rcases emit_cases x s with ⟨hfull, he⟩ | ⟨_, he⟩ <;> rw [he] at h <;> cases h
    exact ⟨x, hx, hfull, rfl⟩
  · cases h

/-- A walk that raises does so at one bit, after a walk over the bits before it that goes on (R182). -/
theorem walkBits_raised {bits : Bits} {s t : State} (h : walkBits bits s = .raised t) :
    ∃ before b after m, bits = before ++ b :: after ∧ walkBits before s = .go m ∧ stepBit b m = .raised t := by
  induction bits generalizing s with
  | nil => cases h
  | cons b bs ih =>
    rcases Flow.andThen_eq_raised h with hb | ⟨m, hb, hrest⟩
    · exact ⟨[], b, bs, s, rfl, rfl, hb⟩
    · obtain ⟨before, b', after, m', rfl, hwalk, hstep⟩ := ih hrest
      exact ⟨b :: before, b', after, m', rfl, by rw [walkBits, hb, Flow.andThen_go, hwalk], hstep⟩

/-! DEC_BYTE (R181, R185). -/

section
variable {s : State}

theorem exec_decByte_of_active (he : s.err = .none) (ha : s.decActive = true) (b : Byte) :
    exec (.decByte b) s =
      if s.dhdr = false then
        if h : b.toNat < 9 then .next (s.takeHeader ⟨b.toNat, h⟩) else raise s .corruptPayload
      else ((releaseHeld s).andThen fun t => .go (t.holdByte b)).result :=
  (unlessBlocked_of_clear he _).trans (if_neg (by simp [ha]))

/-- After the header, the byte is held once the byte held before it, if any, has been walked (R181). -/
theorem exec_decByte_data (he : s.err = .none) (ha : s.decActive = true) (hd : s.dhdr = true) (b : Byte) :
    exec (.decByte b) s = ((releaseHeld s).andThen fun t => .go (t.holdByte b)).result :=
  (exec_decByte_of_active he ha b).trans (if_neg (by simp [hd]))

theorem releaseHeld_of_empty (h : s.dholdv = false) : releaseHeld s = .go s :=
  if_neg (by simp [h])

/-- All eight bits of a held byte are walked. -/
theorem releaseHeld_of_held (h : s.dholdv = true) : releaseHeld s = walkBits (unpackByte s.dhold) s :=
  if_pos h

/-! DEC_FINISH (R186, R188). -/

theorem exec_decFinish_of_active (he : s.err = .none) (ha : s.decActive = true) :
    exec .decFinish s = ((if s.dhdr then finishPayload s else .go s).andThen fun t => .go t.closeDec).result :=
  (unlessBlocked_of_clear he _).trans (if_neg (by simp [ha]))

/-- The empty payload has no header (R188). -/
theorem exec_decFinish_noHeader (he : s.err = .none) (ha : s.decActive = true) (hd : s.dhdr = false) :
    exec .decFinish s = .next s.closeDec := by
  rw [exec_decFinish_of_active he ha, if_neg (by simp [hd])]
  rfl

theorem exec_decFinish_header (he : s.err = .none) (ha : s.decActive = true) (hd : s.dhdr = true) :
    exec .decFinish s = ((finishPayload s).andThen fun t => .go t.closeDec).result := by
  rw [exec_decFinish_of_active he ha, if_pos hd]

/-- A candidate left over is corrupt, an empty one is not (R186). -/
theorem checkTrailing_of_left (h : s.ddead = true ∨ s.dnode ≠ s.root) :
    checkTrailing s = .raised (s.raise .corruptPayload) :=
  if_pos h

theorem checkTrailing_of_empty (hd : s.ddead = false) (hn : s.dnode = s.root) : checkTrailing s = .go s :=
  if_neg (by simp [hd, hn])

/-- With no byte held, only the header can be corrupt, or a candidate left over (R186). -/
theorem finishPayload_of_empty (h : s.dholdv = false) :
    finishPayload s = if s.dp.val > 0 then .raised (s.raise .corruptPayload) else checkTrailing s :=
  if_pos h

/-- The held byte is walked without its padding, then dropped (R186). -/
theorem finishPayload_of_held (h : s.dholdv = true) :
    finishPayload s =
      ((walkBits ((unpackByte s.dhold).take (8 - s.dp.val)) s).andThen fun t => .go t.dropHold).andThen checkTrailing :=
  if_neg (by simp [h])

end

/-- Settles O41: the byte is the header, or it is held after what `releaseHeld` walks. -/
theorem decByteResult : Obligations.DecByteResult := by
  intro b s he ha
  refine ⟨fun hd hb => ?_, fun hd p hp => ?_, fun hd hv => ?_, fun hd hv t ht => ?_, fun hd hv t ht => ?_⟩
  · rw [exec_decByte_of_active he ha, if_pos hd, dif_neg (by omega), raise_eq, State.raise_of_clear he]
  · have hlt : b.toNat < 9 := hp ▸ p.isLt
    rw [exec_decByte_of_active he ha, if_pos hd, dif_pos hlt, show (⟨b.toNat, hlt⟩ : Fin 9) = p from Fin.ext hp]
    rfl
  · rw [exec_decByte_data he ha hd, releaseHeld_of_empty hv]
    rfl
  · rw [exec_decByte_data he ha hd, releaseHeld_of_held hv, ht]
    rfl
  · rw [exec_decByte_data he ha hd, releaseHeld_of_held hv, ht]
    rfl

/-- Settles O42: what stands between DEC_FINISH and success is the header alone, a walk that raises, or a candidate left
over; the walk leaves ERR = 0. -/
theorem decFinishResult : Obligations.DecFinishResult := by
  intro s he ha
  refine ⟨fun hd => ?_, fun hd hv hp => ?_, fun hd hv hp hleft => ?_, fun hd hv hp hdead hroot => ?_,
    fun hd hv t ht => ⟨fun hdead hroot => ?_, fun hleft => ?_⟩, fun hd hv t ht => ?_⟩
  · exact exec_decFinish_noHeader he ha hd
  · rw [exec_decFinish_header he ha hd, finishPayload_of_empty hv, if_pos hp, State.raise_of_clear he]
    rfl
  · rw [exec_decFinish_header he ha hd, finishPayload_of_empty hv, if_neg (by simp [hp]), checkTrailing_of_left hleft,
      State.raise_of_clear he]
    rfl
  · rw [exec_decFinish_header he ha hd, finishPayload_of_empty hv, if_neg (by simp [hp]),
      checkTrailing_of_empty hdead hroot]
    rfl
  · rw [exec_decFinish_header he ha hd, finishPayload_of_held hv, ht, Flow.andThen_go, Flow.andThen_go,
      checkTrailing_of_empty (s := t.dropHold) hdead hroot]
    rfl
  · have hterr : t.dropHold.err = .none := (walkBits_go_err ht).trans he
    rw [exec_decFinish_header he ha hd, finishPayload_of_held hv, ht, Flow.andThen_go, Flow.andThen_go,
      checkTrailing_of_left (s := t.dropHold) hleft, State.raise_of_clear hterr]
    rfl
  · rw [exec_decFinish_header he ha hd, finishPayload_of_held hv, ht]
    rfl

/-- Settles O43: the index either names a symbol of DECBUF or lies past it. -/
theorem decReadResult : Obligations.DecReadResult := by
  intro idx s he hd
  rw [show exec (.decRead idx) s = _ from unlessBlocked_of_clear he _, if_neg (by simp [hd])]
  refine ⟨fun x hx => ?_, fun hpast => ?_⟩
  · rw [hx, BitVec.ofNat_toNat]
    rfl
  · rw [List.getElem?_eq_none hpast, ← State.raise_of_clear he]
    rfl

end Sys2Proof.Machine
end

section
/-! ### The walker against the candidate scan (45_decoder.md R182 to R184, R189; O44, O45) -/

namespace Sys2Proof.Machine

/-! The inverse table against the paths of the tree (43_code_table.md R141, R146, R147). -/

/-- A string that is no code has no symbol. -/
theorem inverse_of_not_mem {freq : List FreqEntry} {code : List Bits} {c : Bits} (h : c ∉ code) :
    inverse freq code c = none := by
  have hfind : code.findIdx? (fun d => d == c) = none := by
    rw [List.findIdx?_eq_none_iff]
    exact fun d hd => beq_eq_false_iff_ne.mpr fun hdc => h (hdc ▸ hd)
  rw [inverse, hfind]

section
variable {freq : List FreqEntry} {nodes : List Node} {root : Option Nat} {code : List Bits}

/-- The symbol of a code is its leaf's (R147). -/
theorem TreeOf.inverse_code (ht : TreeOf freq nodes root) (h : codesOk freq.length nodes root code = true) {i : Nat}
    {c : Bits} {e : FreqEntry} (hc : code[i]? = some c) (he : freq[i]? = some e) : inverse freq code c = some e.sym :=
  inverse_of_getElem? (fun _ _ c hi hj => ht.eq_of_prefix h hi hj (List.prefix_refl c)) hc he

/-- The path to a leaf is its code. -/
theorem TreeOf.inverse_leaf (ht : TreeOf freq nodes root) (h : codesOk freq.length nodes root code = true)
    (hn : 2 ≤ freq.length) {r k : Nat} {c : Bits} {x : Symbol} {w : Word} (hr : root = some r)
    (hp : descend nodes r c = some k) (hk : nodes[k]? = some (.leaf x w)) : inverse freq code c = some x := by
  obtain ⟨r', hr', hlen, hpath⟩ := (codesOk_iff hn).mp h
  obtain rfl : r = r' := by simpa [hr] using hr'
  have hlt := ht.leaf_lt hk
  obtain ⟨d, hd⟩ : ∃ d, code[k]? = some d := ⟨_, List.getElem?_eq_getElem (hlen ▸ hlt)⟩
  obtain ⟨_, _, hpd⟩ := hpath k d hd
  obtain rfl := ht.path_unique hpd hp
  rw [ht.inverse_code h hd (List.getElem?_eq_getElem hlt)]
  rw [ht.layered.leaf hlt] at hk
  cases hk
  rfl

/-- The path to an internal node is no code. -/
theorem TreeOf.inverse_inner (ht : TreeOf freq nodes root) (h : codesOk freq.length nodes root code = true)
    (hn : 2 ≤ freq.length) {r k i j : Nat} {c : Bits} {w : Word} (hr : root = some r)
    (hp : descend nodes r c = some k) (hk : nodes[k]? = some (.int w i j)) : inverse freq code c = none := by
  refine inverse_of_not_mem fun hmem => ?_
  obtain ⟨r', hr', hlen, hpath⟩ := (codesOk_iff hn).mp h
  obtain rfl : r = r' := by simpa [hr] using hr'
  obtain ⟨i, hi⟩ := List.mem_iff_getElem?.mp hmem
  obtain ⟨_, _, hpi⟩ := hpath i c hi
  obtain rfl : k = i := by simpa [hp] using hpi
  rw [ht.layered.leaf (hlen ▸ (List.getElem?_eq_some_iff.mp hi).1)] at hk
  cases hk

end

/-! The walker's position against the scan's candidate (10_state.md R44, R45; R189). -/

/-- The walker stands where the candidate leads: at the end of its path from the root, which is the root or an internal node; or
it is dead, and the candidate can match nothing any more. -/
inductive Tracks (s : State) (cand : Bits) : Prop where
  | live : s.ddead = false → s.dnode = s.root.bind (fun r => descend s.node r cand) →
      cand = [] ∨ InnerAt s.node s.dnode → Tracks s cand
  | dead : s.ddead = true → cand ≠ [] → (∀ rest, inverse s.freq s.code (cand ++ rest) = none) → Tracks s cand

theorem bind_descend_nil (nodes : List Node) (root : Option Nat) : (root.bind fun r => descend nodes r []) = root := by
  cases root <;> rfl

/-- With an empty candidate the walker stands at the root. -/
theorem tracks_nil {s : State} (hn : s.dnode = s.root) (hd : s.ddead = false) : Tracks s [] :=
  .live hd (by rw [bind_descend_nil, hn]) (.inl rfl)

/-- The state holds a tree and its codes (10_state.md R34 to R37). -/
def HoldsCodes (s : State) : Prop :=
  TreeOf s.freq s.node s.root ∧ codesOk s.freq.length s.node s.root s.code = true

/-- The walker's candidate is empty exactly when the scan's is (R189). -/
theorem Tracks.nil_iff {s : State} {cand : Bits} (ht : HoldsCodes s) (h : Tracks s cand) :
    cand = [] ↔ s.ddead = false ∧ s.dnode = s.root := by
  obtain ⟨htree, _⟩ := ht
  cases h with
  | dead hd hne => simp [hd, hne]
  | live hd hpath hin =>
    refine ⟨?_, fun ⟨_, hroot⟩ => hin.elim id ?_⟩
    · rintro rfl
      exact ⟨hd, by rw [hpath, bind_descend_nil]⟩
    · rintro ⟨r, _, _, _, hr, _⟩
      rw [hr] at hroot hpath
      rw [← hroot] at hpath
      exact htree.path_unique (r := r) hpath.symm rfl

/-- What a bit does to a walker that tracks a candidate: it completes a code and emits the symbol the scan emits, with the
candidate empty again, or it goes on with the candidate the scan goes on with (R189). -/
inductive TracksBit (b : Bool) (s : State) (cand : Bits) : Prop where
  | emits (x : Symbol) : inverse s.freq s.code (cand ++ [b]) = some x →
      stepBit b s = ((emit x s).andThen fun t => .go (t.walkTo s.root)) → s.ddead = false → TracksBit b s cand
  | moves (d : Bool) (k : Option Nat) : inverse s.freq s.code (cand ++ [b]) = none →
      stepBit b s = .go { s with ddead := d, dnode := k } → Tracks { s with ddead := d, dnode := k } (cand ++ [b]) →
      TracksBit b s cand

/-- In a tree of at least two leaves a bit leads to a leaf, whose code is now complete, or to an internal node, whose path is no
code. -/
theorem tracksBit_of_inner {s : State} {cand : Bits} (ht : HoldsCodes s) (hr : InnerAt s.node s.root)
    (hd : s.ddead = false) (hpath : s.dnode = s.root.bind fun r => descend s.node r cand)
    (hin : InnerAt s.node s.dnode) (b : Bool) : TracksBit b s cand := by
  obtain ⟨htree, hcodes⟩ := ht
  have hn := htree.innerAt_root.mp hr
  obtain ⟨r, _, _, _, hr, hroot⟩ := hr
  obtain ⟨k, w, i, j, hk, hint⟩ := hin
  have hdesc : descend s.node r cand = some k := by simpa [hk, hr] using hpath.symm
  have hnext : descend s.node r (cand ++ [b]) = some (if b then j else i) := by
    simp [descend_append, hdesc, descend, hint]
  have hchild : child s.node s.dnode b = some (if b then j else i) := hk ▸ child_int hint
  obtain ⟨nd, hnd⟩ : ∃ nd, s.node[if b then j else i]? = some nd := by
    obtain ⟨_, hi, hj⟩ := htree.layered.children_lt hint
    have hlt := (List.getElem?_eq_some_iff.mp hint).1
    exact ⟨_, List.getElem?_eq_getElem (by split <;> omega)⟩
  cases nd with
  | leaf x w' =>
    exact .emits x (htree.inverse_leaf hcodes hn hr hnext hnd)
      ((stepBit_of_int hd hr hroot).trans (stepInner_of_leaf hchild hnd)) hd
  | int w' i' j' =>
    exact .moves s.ddead (some (if b then j else i)) (htree.inverse_inner hcodes hn hr hnext hnd)
      ((stepBit_of_int hd hr hroot).trans (stepInner_of_int hchild hnd))
      (.live hd (by simp [hr, hnext]) (.inr ⟨_, _, _, _, rfl, hnd⟩))

/-- A bit that no code starts with kills the candidate. -/
theorem tracksBit_of_markDead {b : Bool} {s : State} (hstep : stepBit b s = .go s.markDead)
    (hnone : ∀ rest, inverse s.freq s.code (b :: rest) = none) : TracksBit b s [] :=
  .moves true s.dnode (hnone []) hstep (.dead rfl (by simp) hnone)

/-- With fewer than two leaves the only code is "0", if there is one (43_code_table.md R142). -/
theorem tracksBit_of_fewLeaves {s : State} (ht : HoldsCodes s) (hr : ¬ InnerAt s.node s.root) (hd : s.ddead = false)
    (hroot : s.dnode = s.root) (b : Bool) : TracksBit b s [] := by
  obtain ⟨htree, hcodes⟩ := ht
  have hn : s.freq.length ≤ 1 := by
    have := mt htree.innerAt_root.mpr hr
    omega
  have hcode := (codesOk_iff_of_le_one hn).mp hcodes
  rcases Nat.eq_zero_or_pos s.freq.length with h0 | hpos
  · have hnone : s.root = none := by
      obtain ⟨_, h, _⟩ := htree
      rw [h, rootIndex, if_pos h0]
    exact tracksBit_of_markDead (stepBit_of_noRoot hd hnone) fun _ => inverse_of_not_mem (by simp [hcode, h0])
  · obtain ⟨r, hr', hlast⟩ := htree.root_eq hpos
    obtain ⟨nd, hnd⟩ : ∃ nd, s.node[r]? = some nd := ⟨_, List.getElem?_eq_getElem (by omega)⟩
    cases nd with
    | int w i j => exact absurd ⟨r, w, i, j, hr', hnd⟩ hr
    | leaf x w =>
      have hstep := stepBit_of_leaf (b := b) hd hr' hnd
      cases b with
      | true => exact tracksBit_of_markDead hstep fun _ => inverse_of_not_mem (by simp [hcode])
      | false =>
        obtain rfl : r = 0 := by
          have := htree.leaf_lt hnd
          omega
        refine .emits x ?_ (hstep.trans (hroot ▸ emit_eq_andThen_walkTo x s)) hd
        rw [htree.layered.leaf hpos] at hnd
        cases hnd
        exact htree.inverse_code hcodes (i := 0) (by simp [hcode, hpos]) (List.getElem?_eq_getElem hpos)

/-- From a root that is no internal node no bit leads anywhere. -/
theorem eq_nil_of_bind_descend {nodes : List Node} {root : Option Nat} {cand : Bits} (hr : ¬ InnerAt nodes root)
    (h : InnerAt nodes (root.bind fun r => descend nodes r cand)) : cand = [] := by
  cases cand with
  | nil => rfl
  | cons b bs =>
    obtain ⟨k, _, _, _, hk, _⟩ := h
    obtain ⟨r, rfl, hk⟩ := Option.bind_eq_some_iff.mp hk
    have hk : descend nodes r (b :: bs) = some k := hk
    unfold descend at hk
    split at hk
    · exact absurd ⟨r, _, _, _, rfl, ‹_›⟩ hr
    · cases hk

/-- A walker that tracks the candidate goes on to do so (R189). -/
theorem Tracks.tracksBit {s : State} {cand : Bits} (ht : HoldsCodes s) (h : Tracks s cand) (b : Bool) :
    TracksBit b s cand := by
  cases h with
  | dead hd hne hnone =>
    refine .moves s.ddead s.dnode (hnone [b]) (stepBit_of_dead hd) (.dead hd (by simp) fun rest => ?_)
    rw [List.append_assoc]
    exact hnone _
  | live hd hpath hin =>
    have hroot (h : cand = []) : s.dnode = s.root := by rw [hpath, h, bind_descend_nil]
    by_cases hr : InnerAt s.node s.root
    · exact tracksBit_of_inner ht hr hd hpath (hin.elim (fun h => hroot h ▸ hr) id) b
    · obtain rfl : cand = [] := hin.elim id fun h => eq_nil_of_bind_descend hr (hpath ▸ h)
      exact tracksBit_of_fewLeaves ht hr hd (hroot rfl) b

/-! The walk against the scan (R182, R184, R189). -/

section
variable {freq : List FreqEntry} {code : List Bits} {cand : Bits} {b : Bool}

theorem scan_cons_of_some {x : Symbol} (h : inverse freq code (cand ++ [b]) = some x) (bs : Bits) :
    scan freq code cand (b :: bs) = (x :: (scan freq code [] bs).1, (scan freq code [] bs).2) := by
  rw [scan, h]

theorem scan_cons_of_none (h : inverse freq code (cand ++ [b]) = none) (bs : Bits) :
    scan freq code cand (b :: bs) = scan freq code (cand ++ [b]) bs := by
  rw [scan, h]

end

/-- The state after a walk that emitted `xs`. -/
def State.walked (s : State) (d : Bool) (k : Option Nat) (xs : List Symbol) : State :=
  { s with ddead := d, dnode := k, decbuf := s.decbuf ++ xs }

theorem State.walked_pushSymbol (s : State) (r : Option Nat) (x : Symbol) (d : Bool) (k : Option Nat) (xs : List Symbol) :
    ((s.pushSymbol x).walkTo r).walked d k xs = s.walked d k (x :: xs) := by
  simp [State.walked]

/-- With room for the symbols the scan emits, the walk emits exactly these and still tracks the scan's candidate. -/
theorem Tracks.walkBits_of_room {bits cand : Bits} {s : State} (ht : HoldsCodes s) (h : Tracks s cand)
    (hroom : s.decbuf.length + (scan s.freq s.code cand bits).1.length ≤ s.cfg.decSyms) :
    ∃ d k, walkBits bits s = .go (s.walked d k (scan s.freq s.code cand bits).1) ∧
      Tracks (s.walked d k (scan s.freq s.code cand bits).1) (scan s.freq s.code cand bits).2 := by
  induction bits generalizing cand s with
  | nil =>
    have hs : s.walked s.ddead s.dnode [] = s := by simp [State.walked]
    exact ⟨s.ddead, s.dnode, congrArg Flow.go hs.symm, hs.symm ▸ h⟩
  | cons b bs ih =>
    cases h.tracksBit ht b with
    | moves d k hnone hstep htracks =>
      rw [scan_cons_of_none hnone] at hroom ⊢
      rw [walkBits, hstep]
      exact ih (s := { s with ddead := d, dnode := k }) ht htracks hroom
    | emits x hsome hstep hd =>
      rw [scan_cons_of_some hsome] at hroom ⊢
      simp only [List.length_cons] at hroom
      obtain ⟨d, k, hwalk, htracks⟩ := ih (s := (s.pushSymbol x).walkTo s.root) ht (tracks_nil rfl hd)
        (by simp; omega)
      rw [State.walked_pushSymbol] at hwalk htracks
      refine ⟨d, k, ?_, htracks⟩
      rw [walkBits, hstep, emit_of_room x (by omega)]
      exact hwalk

/-- Without room for them all, the walk fills DECBUF with the first of the symbols and raises. -/
theorem Tracks.walkBits_of_overflow {bits cand : Bits} {s : State} (ht : HoldsCodes s) (h : Tracks s cand)
    (hcap : s.decbuf.length ≤ s.cfg.decSyms)
    (hfull : s.cfg.decSyms < s.decbuf.length + (scan s.freq s.code cand bits).1.length) :
    ∃ k, walkBits bits s =
      .raised ((s.walked false k ((scan s.freq s.code cand bits).1.take (s.cfg.decSyms - s.decbuf.length))).raise
        .decOverflow) := by
  induction bits generalizing cand s with
  | nil =>
    simp [scan] at hfull
    omega
  | cons b bs ih =>
    cases h.tracksBit ht b with
    | moves d k hnone hstep htracks =>
      rw [scan_cons_of_none hnone] at hfull ⊢
      rw [walkBits, hstep]
      exact ih (s := { s with ddead := d, dnode := k }) ht htracks hcap hfull
    | emits x hsome hstep hd =>
      rw [scan_cons_of_some hsome] at hfull ⊢
      rw [walkBits, hstep]
      simp only [List.length_cons] at hfull
      by_cases hlen : s.decbuf.length = s.cfg.decSyms
      · refine ⟨s.dnode, ?_⟩
        rw [emit_of_full x hlen]
        simp [State.walked, hlen, ← hd]
      · obtain ⟨k, hwalk⟩ := ih (s := (s.pushSymbol x).walkTo s.root) ht (tracks_nil rfl hd)
          (by simp; omega) (by simp; omega)
        refine ⟨k, ?_⟩
        rw [emit_of_room x hlen, show s.cfg.decSyms - s.decbuf.length = s.cfg.decSyms - (s.decbuf.length + 1) + 1 by omega,
          List.take_succ_cons, ← State.walked_pushSymbol s s.root]
        simpa using hwalk

/-- Settles O45: from the root the walker tracks the empty candidate, and so the scan to its end. -/
theorem walkEqualsScan : Obligations.WalkEqualsScan := by
  intro bits s hs hp hn hd hroom
  have ht := hs.codes hp
  obtain ⟨d, k, hwalk, htracks⟩ := (tracks_nil hn hd).walkBits_of_room ht hroom
  exact ⟨_, hwalk, rfl, htracks.nil_iff ht⟩

/-- Settles O44: a step raises in `Emit` only, at a bit that completes a code; the walk tracks the scan, which emits the symbols
that fill DECBUF and one more. -/
theorem walkStopsAtOverflow : Obligations.WalkStopsAtOverflow := by
  refine ⟨fun b s x hx => ?_, fun bits s t h => ?_, fun bits s hs hp hn hd hfull => ?_⟩
  · obtain ⟨k, hstep⟩ := hx.stepBit_eq
    rw [hstep]
    refine ⟨fun hlen => ?_, fun hlen => ?_⟩
    · rw [emit_of_full x hlen]
      rfl
    · rw [emit_of_room x hlen]
      exact ⟨_, rfl, rfl⟩
  · obtain ⟨before, b, after, m, rfl, hwalk, hstep⟩ := walkBits_raised h
    obtain ⟨x, hx, hlen, rfl⟩ := stepBit_raised hstep
    exact ⟨before, b, after, m, x, rfl, hwalk, hx, hlen, hstep, rfl⟩
  · obtain ⟨_, _, _, _, hcap⟩ := hs.memory
    obtain ⟨k, hwalk⟩ := (tracks_nil hn hd).walkBits_of_overflow (hs.codes hp) hcap hfull
    rw [← hd] at hwalk
    refine ⟨_, hwalk, rfl, ?_⟩
    simp [State.walked]
    omega

end Sys2Proof.Machine
end

section
/-! ### Decode sessions and the round trip (45_decoder.md R185 to R190; O46, O47) -/

namespace Sys2Proof.Machine

/-! Running a list of commands. -/

theorem runAll_cons_of_next {i : Instr} {s m : State} (h : exec i s = .next m) (is : List Instr) :
    runAll (i :: is) s = runAll is m := by
  rw [runAll, h]

theorem runAll_append_of_next {is : List Instr} {s m : State} (h : runAll is s = .next m) (js : List Instr) :
    runAll (is ++ js) s = runAll js m := by
  induction is generalizing s with
  | nil =>
    cases h
    rfl
  | cons i is ih =>
    obtain ⟨u, hu, hrest⟩ := runAll_cons_eq_next_iff.mp h
    rw [List.cons_append, runAll_cons_of_next hu, ih hrest]

/-! The scan of one string after another. -/

theorem scan_append (freq : List FreqEntry) (code : List Bits) (cand as bs : Bits) :
    scan freq code cand (as ++ bs) =
      ((scan freq code cand as).1 ++ (scan freq code (scan freq code cand as).2 bs).1,
        (scan freq code (scan freq code cand as).2 bs).2) := by
  induction as generalizing cand with
  | nil => rfl
  | cons a as ih =>
    rw [List.cons_append]
    cases h : inverse freq code (cand ++ [a]) with
    | none => rw [scan_cons_of_none h, scan_cons_of_none h, ih]
    | some x => rw [scan_cons_of_some h, scan_cons_of_some h, ih, List.cons_append]

/-- A longer string emits no fewer symbols. -/
theorem scan_length_le_append (freq : List FreqEntry) (code : List Bits) (cand as bs : Bits) :
    (scan freq code cand as).1.length ≤ (scan freq code cand (as ++ bs)).1.length := by
  simp [scan_append]

/-! An open session (R181, R186). -/

/-- A session opened in `s` that has taken the header and walked `bits`, without error. -/
structure Decoding (s : State) (bits : Bits) (m : State) : Prop where
  tables : SameTables s m
  err : m.err = .none
  active : m.decActive = true
  pending : m.decDone = false
  header : m.dhdr = true
  decbuf : m.decbuf = (scan s.freq s.code [] bits).1
  tracks : Tracks m (scan s.freq s.code [] bits).2

/-- How a session ends that emitted `out.1` from a payload that is sound when `out.2` (R186). -/
def EndsWith (out : List Symbol × Bool) (t : State) : Prop :=
  t.decbuf = out.1 ∧ (out.2 = true → t.err = .none ∧ t.decActive = false ∧ t.decDone = true) ∧
    (out.2 = false → t.err = .corruptPayload ∧ t.decActive = true ∧ t.decDone = false)

theorem SameTables.freq_eq {s m : State} (h : SameTables s m) : m.freq = s.freq := by rw [h]

theorem SameTables.code_eq {s m : State} (h : SameTables s m) : m.code = s.code := by rw [h]

theorem SameTables.cfg_eq {s m : State} (h : SameTables s m) : m.cfg = s.cfg := by rw [h]

theorem SameTables.holdsCodes {s m : State} (h : SameTables s m) (hs : HoldsCodes s) : HoldsCodes m := by
  rw [h]
  exact hs

section
variable {s m : State} {bits : Bits}

theorem Decoding.holdByte (h : Decoding s bits m) (b : Byte) : Decoding s bits (m.holdByte b) where
  tables := congrArg (State.holdByte · b) h.tables
  err := h.err
  active := h.active
  pending := h.pending
  header := h.header
  decbuf := h.decbuf
  tracks := by
    cases h.tracks with
    | live hd hpath hin => exact .live hd hpath hin
    | dead hd hne hnone => exact .dead hd hne hnone

/-- A session walks on as the scan goes on. -/
theorem Decoding.walk (hs : HoldsCodes s) (h : Decoding s bits m) {more : Bits}
    (hroom : (scan s.freq s.code [] (bits ++ more)).1.length ≤ s.cfg.decSyms) :
    ∃ d k xs, walkBits more m = .go (m.walked d k xs) ∧ Decoding s (bits ++ more) (m.walked d k xs) := by
  have hscan := scan_append s.freq s.code [] bits more
  rw [hscan, List.length_append] at hroom
  obtain ⟨d, k, hwalk, htracks⟩ := h.tracks.walkBits_of_room (bits := more) (h.tables.holdsCodes hs) (by
    rwa [h.tables.freq_eq, h.tables.code_eq, h.tables.cfg_eq, h.decbuf])
  rw [h.tables.freq_eq, h.tables.code_eq] at hwalk htracks
  refine ⟨d, k, _, hwalk, congrArg (State.walked · d k _) h.tables, h.err, h.active, h.pending, h.header, ?_, ?_⟩
  · rw [hscan, ← h.decbuf]
    rfl
  · rw [hscan]
    exact htracks

/-- The trailing check accepts the state exactly when the scan leaves no candidate (R186, R189). -/
theorem Decoding.trailing (hs : HoldsCodes s) (h : Decoding s bits m) :
    ((scan s.freq s.code [] bits).2 = [] ∧ m.ddead = false ∧ m.dnode = m.root) ∨
      ((scan s.freq s.code [] bits).2 ≠ [] ∧ (m.ddead = true ∨ m.dnode ≠ m.root)) := by
  have hiff := h.tracks.nil_iff (h.tables.holdsCodes hs)
  by_cases hnil : (scan s.freq s.code [] bits).2 = []
  · exact .inl ⟨hnil, hiff.mp hnil⟩
  · refine .inr ⟨hnil, ?_⟩
    rw [hiff] at hnil
    by_cases hd : m.ddead = true
    · exact .inl hd
    · exact .inr fun hroot => hnil ⟨by simpa using hd, hroot⟩

/-- A session with no byte held and no bit stripped ends as the scan does. -/
theorem Decoding.finish_of_empty (hs : HoldsCodes s) (h : Decoding s bits m) (hv : m.dholdv = false) (hp : m.dp = 0) :
    ∃ t, exec .decFinish m = .next t ∧
      EndsWith ((scan s.freq s.code [] bits).1, (scan s.freq s.code [] bits).2 == []) t := by
  obtain ⟨_, _, hcorrupt, hsound, _⟩ := decFinishResult m h.err h.active
  rcases h.trailing hs with ⟨hnil, hdead, hroot⟩ | ⟨hnil, hleft⟩
  · exact ⟨_, hsound h.header hv hp hdead hroot, h.decbuf, fun _ => ⟨h.err, rfl, rfl⟩, by simp [hnil]⟩
  · exact ⟨_, hcorrupt h.header hv hp hleft, h.decbuf, by simp [hnil], fun _ => ⟨rfl, h.active, h.pending⟩⟩

/-- A session whose header is the padding count `p` and whose data bytes so far are `init` and then `last`, which is held. -/
structure Holding (s : State) (p : Fin 9) (init : List Byte) (last : Byte) (m : State) : Prop
    extends Decoding s (unpack init) m where
  dp : m.dp = p
  held : m.dholdv = true
  hold : m.dhold = last

end

theorem unpack_concat (init : List Byte) (last : Byte) : unpack (init ++ [last]) = unpack init ++ unpackByte last := by
  simp [unpack]

theorem unpack_length (bytes : List Byte) : (unpack bytes).length = 8 * bytes.length := by
  induction bytes with
  | nil => rfl
  | cons b bs ih =>
    unfold unpack at ih ⊢
    rw [List.flatMap_cons, List.length_append, ih, List.length_cons, Nat.mul_succ, Nat.add_comm]
    rfl

section
variable {s m : State} {p : Fin 9} {init : List Byte} {last : Byte}

/-- DEC_BYTE walks the held byte and holds the next. -/
theorem Holding.decByte (hs : HoldsCodes s) (h : Holding s p init last m) (b : Byte)
    (hroom : (scan s.freq s.code [] (unpack (init ++ [last]))).1.length ≤ s.cfg.decSyms) :
    ∃ t, exec (.decByte b) m = .next t ∧ Holding s p (init ++ [last]) b t := by
  rw [unpack_concat] at hroom
  obtain ⟨d, k, xs, hwalk, hnext⟩ := h.toDecoding.walk hs hroom
  rw [← unpack_concat] at hnext
  obtain ⟨_, _, _, hdata, _⟩ := decByteResult b m h.err h.active
  exact ⟨_, hdata h.header h.held _ (h.hold.symm ▸ hwalk), hnext.holdByte b, h.dp, rfl, rfl⟩

/-- After the header the data bytes are walked one after another, and the last of them is held (R181). -/
theorem runAll_decBytes (hs : HoldsCodes s) (h : Decoding s [] m) (hp : m.dp = p) (hv : m.dholdv = false)
    (hroom : (scan s.freq s.code [] (unpack init)).1.length ≤ s.cfg.decSyms) :
    ∃ t, runAll ((init ++ [last]).map .decByte) m = .next t ∧ Holding s p init last t := by
  induction init using List.reverseRecOn generalizing last with
  | nil =>
    obtain ⟨_, _, hfirst, _⟩ := decByteResult last m h.err h.active
    exact ⟨_, runAll_cons_of_next (hfirst h.header hv) [], h.holdByte last, hp, rfl, rfl⟩
  | append_singleton init b ih =>
    have hinit := scan_length_le_append s.freq s.code [] (unpack init) (unpackByte b)
    rw [← unpack_concat] at hinit
    obtain ⟨u, hu, hheld⟩ := ih (last := b) (hinit.trans hroom)
    obtain ⟨t, ht, hnext⟩ := hheld.decByte hs last hroom
    refine ⟨t, ?_, hnext⟩
    rw [List.map_append, runAll_append_of_next hu]
    exact runAll_cons_of_next ht []

/-- DEC_FINISH walks the held byte without its padding and ends as the scan does (R186). -/
theorem Holding.decFinish (hs : HoldsCodes s) (h : Holding s p init last m)
    {bits : Bits} (hbits : bits = unpack init ++ (unpackByte last).take (8 - p.val))
    (hroom : (scan s.freq s.code [] bits).1.length ≤ s.cfg.decSyms) :
    ∃ t, exec .decFinish m = .next t ∧
      EndsWith ((scan s.freq s.code [] bits).1, (scan s.freq s.code [] bits).2 == []) t := by
  subst hbits
  obtain ⟨d, k, xs, hwalk, hend⟩ := h.toDecoding.walk hs hroom
  obtain ⟨_, _, _, _, hfinish, _⟩ := decFinishResult m h.err h.active
  obtain ⟨hsound, hcorrupt⟩ := hfinish h.header h.held _ (h.hold.symm ▸ h.dp.symm ▸ hwalk)
  rcases hend.trailing hs with ⟨hnil, hdead, hroot⟩ | ⟨hnil, hleft⟩
  · exact ⟨_, hsound hdead hroot, hend.decbuf, fun _ => ⟨hend.err, rfl, rfl⟩, by simp [hnil]⟩
  · exact ⟨_, hcorrupt hleft, hend.decbuf, by simp [hnil], fun _ => ⟨rfl, hend.active, hend.pending⟩⟩

end

/-! A whole session (R185, R186, R188, R189). -/

section
variable {s : State}

/-- The code bits of a payload are all bits of its data bytes but the padding of the last one. -/
theorem unpack_take_padding (init : List Byte) (last : Byte) {p : Nat} (hp : p ≤ 8) :
    (unpack (init ++ [last])).take (8 * (init ++ [last]).length - p) = unpack init ++ (unpackByte last).take (8 - p) := by
  have hlen := unpack_length init
  rw [unpack_concat, List.take_append, List.take_of_length_le, hlen]
  · congr 2
    simp
    omega
  · simp
    omega

/-- The commands of a session after its header. -/
theorem decodeData_endsWith {m : State} {h : Byte} (hs : HoldsCodes s) (hd : Decoding s [] m) (hp : m.dp.val = h.toNat)
    (hv : m.dholdv = false) (data : List Byte)
    (hroom : (decodePayload s.freq s.code (h :: data)).1.length ≤ s.cfg.decSyms) :
    ∃ t, runAll (data.map .decByte ++ [.decFinish]) m = .next t ∧
      EndsWith (decodePayload s.freq s.code (h :: data)) t := by
  have hle : h.toNat ≤ 8 := by
    have := m.dp.isLt
    omega
  rw [decodePayload, if_neg (by omega)] at hroom ⊢
  rcases List.eq_nil_or_concat' data with rfl | ⟨init, last, rfl⟩
  · by_cases h0 : h.toNat = 0
    · obtain ⟨t, ht, hend⟩ := hd.finish_of_empty hs hv (Fin.ext (hp.trans h0))
      rw [if_neg (by omega)]
      exact ⟨t, runAll_cons_of_next ht [], by simpa [unpack] using hend⟩
    · obtain ⟨_, hcorrupt, _⟩ := decFinishResult m hd.err hd.active
      rw [if_pos ⟨rfl, by omega⟩]
      exact ⟨_, runAll_cons_of_next (hcorrupt hd.header hv (by omega)) [], hd.decbuf, nofun,
        fun _ => ⟨rfl, hd.active, hd.pending⟩⟩
  · rw [if_neg (by simp), unpack_take_padding init last hle] at hroom ⊢
    have hinit := scan_length_le_append s.freq s.code [] (unpack init) ((unpackByte last).take (8 - h.toNat))
    obtain ⟨u, hu, hheld⟩ := runAll_decBytes (last := last) hs hd rfl hv (hinit.trans hroom)
    obtain ⟨t, ht, hend⟩ := hheld.decFinish hs (by rw [hp]) hroom
    exact ⟨t, by rw [runAll_append_of_next hu, runAll_cons_of_next ht]; rfl, hend⟩

theorem openDec_decoding {p : Fin 9} (he : s.err = .none) : Decoding s [] (s.openDec.takeHeader p) where
  tables := rfl
  err := he
  active := rfl
  pending := rfl
  header := rfl
  decbuf := rfl
  tracks := tracks_nil rfl rfl

/-- After an error the rest of a session changes nothing (60_exceptions.md R202). -/
theorem decodeData_of_error (h : s.err ≠ .none) (data : List Byte) :
    runAll (data.map .decByte ++ [.decFinish]) s = .next s := by
  induction data with
  | nil =>
    have hignored : exec .decFinish s = .next s := unlessBlocked_of_error h _
    exact runAll_cons_of_next hignored []
  | cons b bs ih =>
    have hignored : exec (.decByte b) s = .next s := unlessBlocked_of_error h _
    exact (runAll_cons_of_next hignored _).trans ih

/-- A decode session decodes a payload as the source does. -/
theorem decodeSession_endsWith (hs : HoldsCodes s) (hp : s.phase = .codes) (he : s.err = .none) (bytes : List Byte)
    (hroom : (decodePayload s.freq s.code bytes).1.length ≤ s.cfg.decSyms) :
    ∃ t, runAll (decodeSession bytes) s = .next t ∧ EndsWith (decodePayload s.freq s.code bytes) t := by
  have hstart : exec .decStart s = .next s.openDec := (sessionStartResult s he hp).2
  rw [decodeSession, runAll_cons_of_next hstart]
  cases bytes with
  | nil =>
    obtain ⟨hempty, _⟩ := decFinishResult s.openDec he rfl
    exact ⟨_, runAll_cons_of_next (hempty rfl) [], rfl, fun _ => ⟨he, rfl, rfl⟩, nofun⟩
  | cons h data =>
    obtain ⟨hbad, hheader, _⟩ := decByteResult h s.openDec he rfl
    rw [List.map_cons, List.cons_append]
    by_cases hle : h.toNat ≤ 8
    · rw [runAll_cons_of_next (hheader rfl ⟨h.toNat, by omega⟩ rfl)]
      exact decodeData_endsWith hs (openDec_decoding he) rfl rfl data hroom
    · rw [runAll_cons_of_next (hbad rfl (by omega)), decodeData_of_error (by simp), decodePayload, if_pos (by omega)]
      exact ⟨_, rfl, rfl, nofun, fun _ => ⟨rfl, rfl, rfl⟩⟩

end

/-- Settles O46: the walk over the held bytes tracks the source's scan, and the trailing check is the scan's. -/
theorem sessionDecodesPayload : Obligations.SessionDecodesPayload := fun bytes _ hs hp he hroom =>
  decodeSession_endsWith (hs.codes hp) hp he bytes hroom

/-! The round trip (R190). -/

section
variable {s : State}

/-- Every code has at least one bit (43_code_table.md R143). -/
theorem HoldsCodes.ne_nil (hs : HoldsCodes s) {c : Bits} (hc : c ∈ s.code) : c ≠ [] := by
  obtain ⟨_, hcodes⟩ := hs
  rw [← List.length_pos_iff]
  rcases Nat.lt_or_ge s.freq.length 2 with hn | hn
  · rw [codesOk_length_eq_one hcodes (by omega) hc]
    exact Nat.one_pos
  · exact (codesOk_bounds hcodes hn hc).1

/-- A symbol of FREQ has a code, and the inverse table leads back (R147). -/
theorem HoldsCodes.exists_code (hs : HoldsCodes s) {x : Symbol} (hx : ∃ e ∈ s.freq, e.sym = x) :
    ∃ i c, find s.freq x = some i ∧ s.code[i]? = some c ∧ inverse s.freq s.code c = some x := by
  obtain ⟨htree, hcodes⟩ := hs
  obtain ⟨i, hfind⟩ := Option.isSome_iff_exists.mp (find_isSome_iff.mpr hx)
  obtain ⟨e, he, rfl, _⟩ := find_eq_some hfind
  have hlt : i < s.code.length := by
    rw [codesOk_length hcodes]
    exact (List.getElem?_eq_some_iff.mp he).1
  have hc := List.getElem?_eq_getElem hlt
  exact ⟨i, _, hfind, hc, htree.inverse_code hcodes hc he⟩

/-- A string that a code goes on from is no code itself (R146). -/
theorem HoldsCodes.inverse_prefix (hs : HoldsCodes s) {pre suf : Bits} (hc : pre ++ suf ∈ s.code) (hsuf : suf ≠ []) :
    inverse s.freq s.code pre = none := by
  obtain ⟨htree, hcodes⟩ := hs
  refine inverse_of_not_mem fun hmem => hsuf ?_
  obtain ⟨i, hi⟩ := List.mem_iff_getElem?.mp hc
  obtain ⟨j, hj⟩ := List.mem_iff_getElem?.mp hmem
  obtain rfl := htree.eq_of_prefix hcodes hj hi (List.prefix_append pre suf)
  simpa [hi] using hj

/-- The scan of the rest of a code emits its symbol, and no sooner. -/
theorem HoldsCodes.scan_code (hs : HoldsCodes s) {pre suf : Bits} {x : Symbol} (hc : pre ++ suf ∈ s.code)
    (hx : inverse s.freq s.code (pre ++ suf) = some x) (hsuf : suf ≠ []) (rest : Bits) :
    scan s.freq s.code pre (suf ++ rest) = (x :: (scan s.freq s.code [] rest).1, (scan s.freq s.code [] rest).2) := by
  induction suf generalizing pre with
  | nil => exact absurd rfl hsuf
  | cons b bs ih =>
    rw [List.cons_append]
    by_cases hbs : bs = []
    · subst hbs
      exact scan_cons_of_some hx rest
    · rw [List.append_cons] at hc hx
      rw [scan_cons_of_none (hs.inverse_prefix hc hbs), ih hc hx hbs]

/-- The scan of a text's codes emits the text and leaves no candidate. -/
theorem HoldsCodes.scan_text (hs : HoldsCodes s) {text : List Symbol} (htext : ∀ x ∈ text, ∃ e ∈ s.freq, e.sym = x) :
    scan s.freq s.code [] (text.flatMap (codeOfSymbol s.freq s.code)) = (text, []) := by
  induction text with
  | nil => rfl
  | cons x xs ih =>
    rw [List.forall_mem_cons] at htext
    obtain ⟨hx, hxs⟩ := htext
    obtain ⟨i, c, hfind, hc, hinv⟩ := hs.exists_code hx
    have hmem := List.mem_of_getElem? hc
    rw [List.flatMap_cons, codeOfSymbol_of_find hfind hc, hs.scan_code (pre := []) hmem hinv (hs.ne_nil hmem), ih hxs]

/-- The source's decode of a payload scans the bits it was made from: the padding is stripped again (R164, R165). -/
theorem decodePayload_payload (freq : List FreqEntry) (code : List Bits) (bits : Bits) :
    decodePayload freq code (payload bits) = ((scan freq code [] bits).1, (scan freq code [] bits).2 == []) := by
  by_cases hbits : bits = []
  · subst hbits
    rfl
  · have hwhole := length_append_padding bits
    have hle : padding bits.length ≤ 8 := Nat.sub_le 8 _
    have hlen := pack_length _ _ hwhole
    have hstrip : (unpack (pack (bits ++ List.replicate (padding bits.length) false))).take
        (8 * (pack (bits ++ List.replicate (padding bits.length) false)).length - padding bits.length) = bits := by
      rw [unpack_pack _ _ hwhole, hlen, ← hwhole, List.length_append, List.length_replicate, Nat.add_sub_cancel,
        List.take_left]
    have hP : (BitVec.ofNat 8 (padding bits.length)).toNat = padding bits.length := by
      rw [BitVec.toNat_ofNat]
      omega
    rw [payload_of_ne_nil hbits, decodePayload, hP, if_neg (by omega), if_neg, hstrip]
    rintro ⟨hnil, _⟩
    simp [hnil] at hlen

/-- ENC_SYMs of symbols that have codes and fit append these codes (44_encoder.md R161, R163). -/
theorem runAll_encSyms_of_fits {text : List Symbol} (hs : HoldsCodes s) (he : s.err = .none) (ha : s.encActive = true)
    (htext : ∀ x ∈ text, ∃ e ∈ s.freq, e.sym = x)
    (hfits : payloadBytes (s.ebits.length + (text.flatMap (codeOfSymbol s.freq s.code)).length) ≤ s.cfg.outBytes) :
    runAll (text.map .encSym) s = .next (s.appendBits (text.flatMap (codeOfSymbol s.freq s.code))) := by
  induction text generalizing s with
  | nil => simp [runAll, State.appendBits]
  | cons x xs ih =>
    rw [List.forall_mem_cons] at htext
    obtain ⟨hx, hxs⟩ := htext
    obtain ⟨i, c, hfind, hc, _⟩ := hs.exists_code hx
    rw [List.flatMap_cons, codeOfSymbol_of_find hfind hc] at hfits ⊢
    rw [List.length_append] at hfits
    have hstep : exec (.encSym x) s = .next (s.appendBits c) := by
      rw [exec_encSym_of_code he ha hfind hc, if_neg]
      unfold payloadBytes at hfits ⊢
      omega
    rw [List.map_cons, runAll_cons_of_next hstep]
    refine (ih (s := s.appendBits c) hs he ha hxs ?_).trans ?_
    · simpa [State.appendBits, Nat.add_assoc] using hfits
    · simp [State.appendBits]

/-- The encode session of a text that fits ends with the payload of its codes. -/
theorem encodeSession_payload {text : List Symbol} (hs : HoldsCodes s) (hp : s.phase = .codes) (he : s.err = .none)
    (htext : ∀ x ∈ text, ∃ e ∈ s.freq, e.sym = x)
    (hfits : payloadBytes (text.flatMap (codeOfSymbol s.freq s.code)).length ≤ s.cfg.outBytes) :
    runAll (encodeSession text) s = .next
      ((s.openEnc.appendBits (text.flatMap (codeOfSymbol s.freq s.code))).closeEnc
        (payload (text.flatMap (codeOfSymbol s.freq s.code)))) := by
  have hstart : exec .encStart s = .next s.openEnc := (sessionStartResult s he hp).1
  have hsyms := runAll_encSyms_of_fits (s := s.openEnc) hs he rfl htext (by simpa using hfits)
  rw [encodeSession, runAll_cons_of_next hstart, runAll_append_of_next hsyms]
  exact runAll_cons_of_next (exec_encFinish_of_active (s := s.openEnc.appendBits _) he rfl) []

end

/-- Settles O47: the payload of an encode session scans back to the codes it was made from, and these to the text. -/
theorem roundTrip : Obligations.RoundTrip := by
  intro text s hs hp he htext hfits hroom
  have hcodes := hs.codes hp
  have hencode := encodeSession_payload hcodes hp he htext hfits
  have hdecode : decodePayload s.freq s.code (payload (text.flatMap (codeOfSymbol s.freq s.code))) = (text, true) := by
    rw [decodePayload_payload, HoldsCodes.scan_text hcodes htext]
    rfl
  generalize text.flatMap (codeOfSymbol s.freq s.code) = bits at hencode hdecode
  obtain ⟨u, hu, hbuf, hsound, _⟩ := decodeSession_endsWith (s := (s.openEnc.appendBits bits).closeEnc (payload bits))
    hcodes hp he (payload bits) (hroom.trans' (congrArg (·.1.length) hdecode).le)
  obtain ⟨herr, _, hdone⟩ := hsound (congrArg Prod.snd hdecode)
  exact ⟨_, u, hencode, he, hu, herr, hdone, hbuf.trans (congrArg Prod.fst hdecode)⟩

end Sys2Proof.Machine
end

section
/-! ### The error-blocked state (60_exceptions.md R202; O18) -/

namespace Sys2Proof.Machine

/-- Settles O18: every command but the three control commands stands behind the gate of the error-blocked state, which
`exec` reaches before it looks at an operand. -/
theorem blockedCommandsIgnored : Obligations.BlockedCommandsIgnored := by
  intro i s he hnop hclear herrClear
  cases i with
  | nop => exact absurd rfl hnop
  | clear => exact absurd rfl hclear
  | errClear => exact absurd rfl herrClear
  | freqLoad | freqRead | build | nodeRead | gen | codeFind | codeRead | encStart | encSym | encFinish | outRead
  | decStart | decByte | decFinish | decRead => exact unlessBlocked_of_error he _

end Sys2Proof.Machine
end

section
/-! ### Every command completes (70_reset_and_hazards.md R246; O59) -/

namespace Sys2Proof.Machine

/-- The command or the step completes: it neither faults nor is refused. -/
def Answers (r : Result) : Prop := ∃ t, r = .next t

section
variable {s : State} {r : Result}

theorem Answers.next (t : State) : Answers (.next t) := ⟨t, rfl⟩

/-- The gate of the error-blocked state answers (R202), so only the rule behind it has to. -/
theorem Answers.gate (h : s.err = .none → Answers r) : Answers (unlessBlocked s r) := by
  by_cases he : s.err = .none
  · rw [unlessBlocked_of_clear he]
    exact h he
  · rw [unlessBlocked_of_error he]
    exact .next s

/-- A failed check answers by raising (R201), so only the rest of the rule has to. -/
theorem Answers.check {c : Prop} [Decidable c] {e : ErrCode} (h : ¬ c → Answers r) :
    Answers (if c then raise s e else r) := by
  split
  · exact .next _
  · exact h ‹_›

theorem Answers.finishCommand (h : Answers r) : ∃ t, finishCommand r = .next t ∧ t.busy = false := by
  obtain ⟨t, rfl⟩ := h
  exact ⟨t.finish, rfl, rfl⟩

end

/-! The walk of a decode session (10_state.md R44, R45; 45_decoder.md R182 to R184). -/

/-- The sub-step found the tree it walks. -/
def Flow.Unbroken (f : Flow) : Prop := ∀ r, f ≠ .broken r

theorem Flow.Unbroken.go (s : State) : (Flow.go s).Unbroken := nofun

theorem Flow.Unbroken.raised (s : State) : (Flow.raised s).Unbroken := nofun

theorem Flow.Unbroken.andThen {f : Flow} {k : State → Flow} (hf : f.Unbroken) (hk : ∀ s, (k s).Unbroken) :
    (f.andThen k).Unbroken := by
  intro r h
  rcases Flow.andThen_eq_broken h with h | ⟨m, _, h⟩
  · exact hf r h
  · exact hk m r h

theorem Flow.Unbroken.answers {f : Flow} (h : f.Unbroken) : Answers f.result := by
  cases f with
  | go s => exact .next s
  | raised s => exact .next s
  | broken r => exact absurd rfl (h r)

section
variable {s : State}

/-- During a session the walker stands where some candidate has led it (R44, R45). -/
theorem SpecInv.exists_tracks (hs : SpecInv s) (ha : s.decActive = true) : ∃ cand, Tracks s cand := by
  obtain ⟨hwalker, _, hdead⟩ := hs.decoder ha
  obtain ⟨htree, hcodes⟩ := hs.codes (hs.session.codes_of_decActive ha)
  rcases Nat.lt_or_ge s.freq.length 2 with hn | hn
  · cases hd : s.ddead with
    | false => exact ⟨[], tracks_nil ((walkerOk_of_lt_two hn).mp hwalker) hd⟩
    | true =>
      have hcode := (codesOk_iff_of_le_one (by omega)).mp hcodes
      exact ⟨[true], .dead hd (by simp) fun rest => inverse_of_not_mem (by simp [hcode])⟩
  · have hin := (walkerOk_of_two_le hn).mp hwalker
    have ⟨k, _, _, _, hk, hnode⟩ := hin
    obtain ⟨r, hr, _⟩ := htree.root_eq (by omega)
    obtain ⟨p, hp⟩ := htree.exists_path hr (List.getElem?_eq_some_iff.mp hnode).1
    have hlive : s.ddead = false := Bool.eq_false_iff.mpr fun h => by have := hdead h; omega
    exact ⟨p, .live hlive (by simp [hk, hr, hp]) (.inr hin)⟩

/-- With or without room for the symbols, a walker that tracks a candidate finds its way (R183, R184). -/
theorem Tracks.walkBits_unbroken {cand : Bits} (ht : HoldsCodes s) (h : Tracks s cand)
    (hcap : s.decbuf.length ≤ s.cfg.decSyms) (bits : Bits) : (walkBits bits s).Unbroken := by
  rcases Nat.lt_or_ge s.cfg.decSyms (s.decbuf.length + (scan s.freq s.code cand bits).1.length) with hfull | hroom
  · obtain ⟨_, hwalk⟩ := h.walkBits_of_overflow ht hcap hfull
    exact hwalk ▸ .raised _
  · obtain ⟨_, _, hwalk, _⟩ := h.walkBits_of_room ht hroom
    exact hwalk ▸ .go _

theorem SpecInv.walkBits_unbroken (hs : SpecInv s) (ha : s.decActive = true) (bits : Bits) :
    (walkBits bits s).Unbroken := by
  obtain ⟨_, htracks⟩ := hs.exists_tracks ha
  obtain ⟨_, _, _, _, hcap⟩ := hs.memory
  exact htracks.walkBits_unbroken (hs.codes (hs.session.codes_of_decActive ha)) hcap bits

theorem SpecInv.releaseHeld_unbroken (hs : SpecInv s) (ha : s.decActive = true) : (releaseHeld s).Unbroken := by
  cases hv : s.dholdv with
  | false => exact releaseHeld_of_empty hv ▸ .go s
  | true => exact releaseHeld_of_held hv ▸ hs.walkBits_unbroken ha _

theorem checkTrailing_unbroken (s : State) : (checkTrailing s).Unbroken := by
  rcases checkTrailing_cases s with h | h <;> rw [h]
  · exact .raised _
  · exact .go s

theorem SpecInv.finishPayload_unbroken (hs : SpecInv s) (ha : s.decActive = true) : (finishPayload s).Unbroken := by
  cases hv : s.dholdv with
  | false =>
    rw [finishPayload_of_empty hv]
    split
    · exact .raised _
    · exact checkTrailing_unbroken s
  | true =>
    rw [finishPayload_of_held hv]
    exact ((hs.walkBits_unbroken ha _).andThen fun m => .go m.dropHold).andThen checkTrailing_unbroken

/-- In phase CODES a symbol is either absent or has a code (R37, R144). -/
theorem HoldsCodes.find_cases (hs : HoldsCodes s) (x : Symbol) :
    find s.freq x = none ∨ ∃ i c, find s.freq x = some i ∧ s.code[i]? = some c := by
  by_cases hx : ∃ e ∈ s.freq, e.sym = x
  · obtain ⟨i, c, hfind, hc, _⟩ := hs.exists_code hx
    exact .inr ⟨i, c, hfind, hc⟩
  · exact .inl (find_eq_none.mpr fun e he hsym => hx ⟨e, he, hsym⟩)

end

/-- Settles O59: the three faults would need a sum past TOTAL, a tree without its codes, or a walker off the tree, none of which
the invariants allow. -/
theorem everyCommandCompletes : Obligations.EveryCommandCompletes := by
  intro i s hs
  change Answers (exec i s)
  cases i with
  | nop => exact .next _
  | clear => exact .next _
  | errClear => exact .next _
  | freqLoad x => exact .gate fun _ => .check fun _ => .check fun _ => .check fun _ => .check fun _ => .check fun _ => .next _
  | freqRead k =>
    refine .gate fun _ => ?_
    split <;> exact .next _
  | build =>
    refine .gate fun _ => .check fun _ => ?_
    obtain ⟨_, _, htotal⟩ := hs.freq
    obtain ⟨nodes, root, hb⟩ := buildTree_completes (htotal ▸ s.total.isLt)
    rw [hb]
    exact .next _
  | nodeRead k =>
    refine .gate fun _ => .check fun _ => ?_
    split <;> exact .next _
  | gen =>
    refine .gate fun _ => .check fun hp => ?_
    obtain ⟨cs, hcs⟩ := (hs.tree.2 (by simp [not_not.mp hp])).genCodes_completes
    rw [hcs]
    exact .next _
  | codeFind x =>
    refine .gate fun _ => .check fun hp => ?_
    rcases HoldsCodes.find_cases (hs.codes (not_not.mp hp)) x with hx | ⟨i, c, hx, hc⟩ <;> rw [hx]
    · exact .next _
    · simp only [hc]
      exact .next _
  | codeRead k =>
    refine .gate fun _ => .check fun _ => ?_
    split
    · exact .next _
    · exact .check fun _ => .next _
  | encStart => exact .gate fun _ => .check fun _ => .next _
  | encSym x =>
    refine .gate fun _ => .check fun ha => ?_
    obtain ⟨_, _, hphase, _⟩ := hs.session
    have hp : s.phase = .codes := hphase (.inl (by simpa using ha))
    rcases HoldsCodes.find_cases (hs.codes hp) x with hx | ⟨i, c, hx, hc⟩ <;> rw [hx]
    · exact .next _
    · simp only [hc]
      exact .check fun _ => .next _
  | encFinish => exact .gate fun _ => .check fun _ => .next _
  | outRead k =>
    refine .gate fun _ => .check fun _ => ?_
    split <;> exact .next _
  | decStart => exact .gate fun _ => .check fun _ => .next _
  | decByte b =>
    refine .gate fun _ => .check fun ha => ?_
    split
    · split <;> exact .next _
    · exact ((hs.releaseHeld_unbroken (by simpa using ha)).andThen fun t => .go (t.holdByte b)).answers
  | decFinish =>
    refine .gate fun _ => .check fun ha => ?_
    split
    · exact ((hs.finishPayload_unbroken (by simpa using ha)).andThen fun t => .go t.closeDec).answers
    · exact .next _
  | decRead k =>
    refine .gate fun _ => .check fun _ => ?_
    split <;> exact .next _

end Sys2Proof.Machine
end

section
/-! ### Reset, and the steps that complete (70_reset_and_hazards.md R230, R231, R246; O8, O9, O60) -/

namespace Sys2Proof.Machine

/-- An idle Core, and any Core while reset is asserted, does nothing in its turn (R230, 60_exceptions.md R214). -/
theorem coreTurn_of_idle {s : State} (h : s.inReset = true ∨ s.busy = false) : coreTurn s = .next s := by
  refine if_neg ?_
  rcases h with h | h <;> simp [h]

/-- While reset is asserted every access to the window is refused (R230). -/
theorem busAccess_of_inReset {s : State} {off : Nat} (hr : s.inReset = true) (hb : s.cfg.hufBase % 256 = 0)
    (ho : off < 256) (size : Nat) (v : Word) :
    busAccess (.read (s.cfg.hufBase + off) size) s = .refused .accessDuringReset ∧
      busAccess (.write (s.cfg.hufBase + off) size v) s = .refused .accessDuringReset := by
  simp [busAccess, windowOffset_base hb ho, hr]

/-- Settles O8: neither the Core's turn nor an access gets past an asserted reset. -/
theorem resetHoldsTheBlock : Obligations.ResetHoldsTheBlock := by
  intro s
  refine ⟨fun ts hts => step_of_turn hts, fun ts hts hidle => ?_, fun hr hb off size v ho => ?_⟩
  · rw [step_of_turn hts]
    exact coreTurn_of_idle (s := s.setTurns ts) hidle
  · exact busAccess_of_inReset hr hb ho size v

theorem status_resetBlock (s : State) : s.resetBlock.status = 0#32 := by
  change State.reset.status = 0#32
  decide

/-- Settles O9: deasserting the input writes the block's reset state, and the registers read it. -/
theorem resetReleases : Obligations.ResetReleases := by
  intro s ts hr hts
  have hstep : step s = .next ((s.setTurns ts).resetBlock.setReset false) := by
    rw [step_of_turn hts]
    exact congrArg Host.Outcome.next (if_pos hr)
  refine ⟨_, hstep, ?_, ?_, ?_, ?_, ?_, ?_⟩
  · exact ⟨rfl, rfl, rfl, rfl, rfl, rfl, rfl⟩
  · exact ⟨rfl, rfl, rfl, rfl, rfl, rfl, rfl⟩
  · exact ⟨rfl, rfl, rfl, rfl, rfl, rfl⟩
  · exact ⟨rfl, rfl, rfl, rfl, rfl, rfl, rfl⟩
  · exact ⟨status_resetBlock (s.setTurns ts), rfl, rfl, rfl, rfl, rfl, rfl, rfl, rfl⟩
  · exact ⟨rfl, rfl, rfl, rfl, rfl, rfl⟩

/-- The step completes, or it is a host access refused because reset is asserted (R230). -/
def AnswersOrRefuses (s : State) (r : Result) : Prop :=
  Answers r ∨ r = .refused .accessDuringReset ∧ s.inReset = true

theorem busAccess_answersOrRefuses (op : BusOp) (s : State) : AnswersOrRefuses s (busAccess op s) := by
  have gate (t : State) : AnswersOrRefuses s (if s.inReset then .refused .accessDuringReset else .next t) := by
    split
    · exact .inr ⟨rfl, ‹_›⟩
    · exact .inl (.next _)
  cases op with
  | read | write =>
    simp only [busAccess]
    split
    · exact .inl (.next _)
    · exact gate _

theorem AnswersOrRefuses.afterAccess {s : State} {r : Result} (h : AnswersOrRefuses s r) (k : State → State) :
    AnswersOrRefuses s (afterAccess r k) := by
  rcases h with ⟨t, rfl⟩ | ⟨rfl, hr⟩
  · exact .inl (.next _)
  · exact .inr ⟨rfl, hr⟩

/-- Whatever its next statement, the host makes at most one access in its turn (30_encoding.md R91, R92). -/
theorem hostTurn_answersOrRefuses (s : State) : AnswersOrRefuses s (hostTurn s) := by
  unfold hostTurn
  split
  · exact .inl (.next s)
  · exact (busAccess_answersOrRefuses _ s).afterAccess _
  · exact (busAccess_answersOrRefuses _ s).afterAccess _
  · exact (busAccess_answersOrRefuses _ s).afterAccess _

section
variable {s : State}

theorem SpecInv.execute_answers (hs : SpecInv s) : Answers (execute s) := by
  unfold execute
  split
  · exact everyCommandCompletes _ s hs
  · exact .next _

/-- A busy Core completes its command (40_control.md R100, R246). -/
theorem SpecInv.coreTurn_completes (hs : SpecInv s) (hb : s.busy = true) (hr : s.inReset = false) :
    ∃ t, coreTurn s = .next t ∧ t.busy = false := by
  rw [show coreTurn s = coreStep s from if_pos (by simp [hb, hr])]
  exact hs.execute_answers.finishCommand

theorem SpecInv.coreTurn_answers (hs : SpecInv s) : Answers (coreTurn s) := by
  by_cases h : s.inReset = true ∨ s.busy = false
  · exact coreTurn_of_idle h ▸ .next s
  · obtain ⟨hr, hb⟩ := not_or.mp h
    obtain ⟨t, ht, _⟩ := hs.coreTurn_completes (by simpa using hb) (by simpa using hr)
    exact ⟨t, ht⟩

theorem SpecInv.setTurns (hs : SpecInv s) (ts : List Turn) : SpecInv (s.setTurns ts) := hs.withControl (s.setTurns ts)

theorem SpecInv.move_answersOrRefuses (hs : SpecInv s) (x : Turn) : AnswersOrRefuses s (move x s) := by
  cases x with
  | core => exact .inl hs.coreTurn_answers
  | host => exact hostTurn_answersOrRefuses s
  | resetInput level => exact .inl (.next _)

theorem step_of_default (h : s.turns = []) : step s = defaultMove s := by
  rw [step, takeTurn, h]

theorem SpecInv.step_answersOrRefuses (hs : SpecInv s) : AnswersOrRefuses s (step s) := by
  cases hts : s.turns with
  | cons x ts => exact step_of_turn hts ▸ (hs.setTurns ts).move_answersOrRefuses x
  | nil =>
    rw [step_of_default hts]
    unfold defaultMove
    split
    · exact .inl (.next s)
    · split
      · exact .inl hs.coreTurn_answers
      · exact hostTurn_answersOrRefuses s

end

/-- Settles O60: every agent's move answers, but for the host access that reset refuses. -/
theorem stepsNeverFault : Obligations.StepsNeverFault := by
  intro s hs
  have hstep := hs.step_answersOrRefuses
  refine ⟨fun f h => ?_, fun r h => ?_, fun hb hr hturn => ?_⟩
  · rw [h] at hstep
    rcases hstep with ⟨_, ht⟩ | ⟨ht, _⟩ <;> cases ht
  · rw [h] at hstep
    rcases hstep with ⟨_, ht⟩ | ⟨ht, hr⟩
    · cases ht
    · cases ht
      exact ⟨rfl, hr⟩
  · rcases hturn with hts | ⟨ts, hts⟩
    · rw [step_of_default_core hts hr hb]
      exact hs.coreTurn_completes hb hr
    · rw [step_of_turn hts]
      exact (hs.setTurns ts).coreTurn_completes hb hr

end Sys2Proof.Machine
end
